-- ==== Sys2Proof/Word.lean ====
section
/-! DEFINITION. The data widths of the Celsior CORE (00_scope.md R7): 8-bit data, 16-bit addresses. -/

namespace Sys2Proof

/-- A register, a data-bus value, a memory cell, an operand: 8 bits (R7, R10). -/
abbrev Byte := BitVec 8

/-- An address-bus value: 16 bits (R7). -/
abbrev Word := BitVec 16

end Sys2Proof
end

