-- ==== Sys2Proof/Machine/Bits.lean ====
section
/-! DEFINITION. Byte order, bit fields and sign (00_scope.md R9, R11, R12). -/

namespace Sys2Proof.Machine

/-- `cat(hi, lo)` of R12: hi in bits 15 to 8, lo in bits 7 to 0. -/
def cat (hi lo : Byte) : Word := hi ++ lo

/-- `v[15:8]`. -/
def hiByte (w : Word) : Byte := w.extractLsb' 8 8

/-- `v[7:0]`. -/
def loByte (w : Word) : Byte := w.extractLsb' 0 8

/-- `zext_16(v)` of R11. -/
def zext16 (v : Byte) : Word := v.setWidth 16

/-- `signed8(v)` of R11: `v` below 128, `v - 256` otherwise. -/
def signed8 (v : Byte) : Int := if v.toNat < 128 then (v.toNat : Int) else (v.toNat : Int) - 256

/-- A byte read as unsigned or as two's complement: `val` of 41_compare_flags.md R150 and `coord` of 44_gpu.md R215. -/
def byteVal (signed : Bool) (v : Byte) : Int := if signed then signed8 v else (v.toNat : Int)

/-- A Boolean as a one-bit number. -/
def bit (b : Bool) : Byte := if b then 1 else 0

end Sys2Proof.Machine
end

