-- ==== Sys2Proof/Config.lean ====
section
/-! DEFINITION. What the spec leaves open and names as a parameter (00_scope.md R8), and the free values of the model.
The values the machine runs with are `Machine.params` (Sys2Proof/Machine/Parameters.lean). -/

namespace Sys2Proof

/-- The two shift instructions, as the argument of `LARGE_SHIFT` (R8, R128, R134). -/
inductive ShiftOp where
  | rshift
  | lshift
  deriving DecidableEq, Repr

/-- `SHIFT_N_SOURCE` (R8): is the n byte of RSHIFT and LSHIFT the amount, or a register id? -/
inductive ShiftNSource where
  | literal
  | register
  deriving DecidableEq, Repr

/-- The six named parameters of 00_scope.md R8. Every operation that depends on one takes it as an argument. -/
structure Params where
  /-- `CMP_SIGNED`: compare as two's complement (R150). -/
  cmpSigned : Bool
  /-- `SHIFT_N_SOURCE` (R133, R134). -/
  shiftNSource : ShiftNSource
  /-- `LARGE_SHIFT`: the result of a shift by 8 to 255, from the operation, the value and the amount (R128, R134). -/
  largeShift : ShiftOp → Byte → Byte → Byte
  /-- `JIF_CMP_HIGH`: is JIF taken, for a compare type 8 to 255 and the flags byte (R172, R173). -/
  jifCmpHigh : Byte → Byte → Bool
  /-- `MTM_SCRATCH`: the register MTM clobbers, if any (R190). -/
  mtmScratch : Option (Fin 8)
  /-- `GPU_COORD_SIGNED`: GPU coordinates are two's complement (R215). -/
  gpuCoordSigned : Bool

/-- A FREE VALUE, with no body: the n-th value the spec leaves at "any value" (the ALU latches after LSHIFT,
40_alu_ops.md R134; assumption log 7). Nothing can be proved of it. -/
opaque Config.freeByte : Nat → Byte

end Sys2Proof
end

