-- ==== Sys2Proof/Syntax.lean ====
section
/-! DEFINITION. The instructions of 30_encoding.md R97, one constructor per row of the opcode table, each operand one
byte in encoding order (R93). -/

namespace Sys2Proof

/-- An instruction with the operand bytes its opcode declares (R94). Operand names are those of R97.
`mov` carries only `rTo`: its immediate is the byte at the program counter when it executes (R105, conflict C6;
assumption log 13). -/
inductive Instr where
  | nop
  | add (r1 r2 rOut : Byte)
  | sub (r1 r2 rOut : Byte)
  | mul (r1 r2 rOut : Byte)
  | rshift (r n rOut : Byte)
  | lshift (r n rOut : Byte)
  | lbl (idx hi lo : Byte)
  | jmp (idx : Byte)
  | jif (idx cmp : Byte)
  | mov (rTo : Byte)
  | push (r : Byte)
  | rtr (rFrom rTo : Byte)
  | mtr (hi lo rTo : Byte)
  | rtm (r hi lo : Byte)
  | mtm (hiA loA hiB loB : Byte)
  | vtr (varId rTo : Byte)
  | rtv (r varId : Byte)
  | ftr (rTo : Byte)
  | cmp (r1 r2 : Byte)
  | and (r1 r2 rOut : Byte)
  | not (r rOut : Byte)
  | or (r1 r2 rOut : Byte)
  | xor (r1 r2 rOut : Byte)
  | pxl (rX rY rCol : Byte)
  | line (rX rY rX1 rY1 rCol : Byte)
  | prt (rX rY rChar : Byte)
  | gmt
  deriving DecidableEq, Repr

/-- The 27 implemented opcodes (R97), in the table's order. -/
inductive Opcode where
  | nop | add | sub | mul | rshift | lshift | lbl | jmp | jif | mov | push | rtr | mtr | rtm | mtm | vtr | rtv | ftr
  | cmp | and | not | or | xor | pxl | line | prt | gmt
  deriving DecidableEq, Repr

/-- The opcode an instruction belongs to (the tag of R102's decoded form). -/
def Instr.opcode : Instr → Opcode
  | .nop => .nop
  | .add _ _ _ => .add
  | .sub _ _ _ => .sub
  | .mul _ _ _ => .mul
  | .rshift _ _ _ => .rshift
  | .lshift _ _ _ => .lshift
  | .lbl _ _ _ => .lbl
  | .jmp _ => .jmp
  | .jif _ _ => .jif
  | .mov _ => .mov
  | .push _ => .push
  | .rtr _ _ => .rtr
  | .mtr _ _ _ => .mtr
  | .rtm _ _ _ => .rtm
  | .mtm _ _ _ _ => .mtm
  | .vtr _ _ => .vtr
  | .rtv _ _ => .rtv
  | .ftr _ => .ftr
  | .cmp _ _ => .cmp
  | .and _ _ _ => .and
  | .not _ _ => .not
  | .or _ _ _ => .or
  | .xor _ _ _ => .xor
  | .pxl _ _ _ => .pxl
  | .line _ _ _ _ _ => .line
  | .prt _ _ _ => .prt
  | .gmt => .gmt

/-- The operand bytes of an instruction in encoding order (R97): what the fetch reads after the opcode. -/
def Instr.operands : Instr → List Byte
  | .nop => []
  | .add r1 r2 rOut => [r1, r2, rOut]
  | .sub r1 r2 rOut => [r1, r2, rOut]
  | .mul r1 r2 rOut => [r1, r2, rOut]
  | .rshift r n rOut => [r, n, rOut]
  | .lshift r n rOut => [r, n, rOut]
  | .lbl idx hi lo => [idx, hi, lo]
  | .jmp idx => [idx]
  | .jif idx c => [idx, c]
  | .mov rTo => [rTo]
  | .push r => [r]
  | .rtr rFrom rTo => [rFrom, rTo]
  | .mtr hi lo rTo => [hi, lo, rTo]
  | .rtm r hi lo => [r, hi, lo]
  | .mtm hiA loA hiB loB => [hiA, loA, hiB, loB]
  | .vtr varId rTo => [varId, rTo]
  | .rtv r varId => [r, varId]
  | .ftr rTo => [rTo]
  | .cmp r1 r2 => [r1, r2]
  | .and r1 r2 rOut => [r1, r2, rOut]
  | .not r rOut => [r, rOut]
  | .or r1 r2 rOut => [r1, r2, rOut]
  | .xor r1 r2 rOut => [r1, r2, rOut]
  | .pxl rX rY rCol => [rX, rY, rCol]
  | .line rX rY rX1 rY1 rCol => [rX, rY, rX1, rY1, rCol]
  | .prt rX rY rChar => [rX, rY, rChar]
  | .gmt => []

/-- The pseudo-instructions of 30_encoding.md R104, each exactly one core instruction. `LDI rTo, imm` is `MOV rTo, imm`
itself. -/
inductive Pseudo where
  | pop (rTo : Byte)
  | halt
  | ldi (rTo : Byte)
  | jeq (idx : Byte)
  | jgt (idx : Byte)
  | jlt (idx : Byte)
  | jge (idx : Byte)
  | jle (idx : Byte)
  | jne (idx : Byte)
  deriving DecidableEq, Repr

/-- R104's expansion. -/
def Pseudo.expand : Pseudo → Instr
  | .pop rTo => .rtr 10 rTo
  | .halt => .nop
  | .ldi rTo => .mov rTo
  | .jeq idx => .jif idx 0
  | .jgt idx => .jif idx 1
  | .jlt idx => .jif idx 2
  | .jge idx => .jif idx 3
  | .jle idx => .jif idx 4
  | .jne idx => .jif idx 5

end Sys2Proof
end

