-- ==== Sys2Proof/Machine/State.lean ====
section
/-! DEFINITION. The state of the CORE (10_state.md R20) as plain data, and its value after reset (R50). -/

namespace Sys2Proof.Machine

/-- A memory as (address, byte) pairs, addresses strictly rising, no entry holding 0: an unlisted address reads as 0,
the reset contents of every memory (R50; assumption log 11). Main memory, the two header tables and the framebuffer are
each one of these. -/
abbrev Memory := List Host.Cell

/-- Which access of a register id failed (60_exceptions.md R250, the information of BusFault). -/
inductive Access where
  | read
  | write
  deriving DecidableEq, Repr

/-- Which memory an out-of-range access was to (R250, the information of MemoryFault). -/
inductive Space where
  | main
  | framebuffer
  deriving DecidableEq, Repr

/-- The halt causes of R250, each with the information it records. -/
inductive HaltCause where
  /-- The opcode byte and its address. -/
  | unknownOpcode (op : Byte) (addr : Nat)
  /-- The address of the 0x00 byte. -/
  | nopSentinel (addr : Nat)
  /-- Read or write, and the register id. -/
  | busFault (access : Access) (id : Byte)
  /-- The space and the address or offset. -/
  | memoryFault (space : Space) (addr : Nat)
  /-- The byte that was not pushed. -/
  | stackOverflow (v : Byte)
  | stackUnderflow
  deriving DecidableEq, Repr

/-- The primitive that made a report (R252). -/
inductive GpuPrim where
  | pixel
  | char
  deriving DecidableEq, Repr

/-- A non-fatal report GpuCoordinateOutOfRange (R252). -/
structure GpuReport where
  prim : GpuPrim
  x : Int
  y : Int
  deriving DecidableEq, Repr

/-- The complete state of the CORE (R20), and one field of the model's own, `freeIdx`. -/
@[ext]
structure State where
  /-- r0 to r7 (R22). -/
  x : Vector Byte 8
  /-- The input mask, register id 8 (R25). -/
  input : Byte
  /-- The program counter, 0 to 65536 (R28). -/
  pc : Nat
  /-- EQ, GT, LT, GE, LE, NE in bits 0 to 5; bits 7:6 zero (R32). -/
  flags : Byte
  /-- The stack's bytes (R33). -/
  stk : Vector Byte 8
  /-- The number of entries, `sp + 1` (R33); see `State.sp`. -/
  depth : Fin 9
  /-- The header table of high bytes, 256 entries (R37). -/
  hdrHi : Memory
  /-- The header table of low bytes, 256 entries (R37). -/
  hdrLo : Memory
  /-- Main memory, 65536 bytes (R39). -/
  mem : Memory
  /-- The framebuffer, 9360 bytes (R44). -/
  fb : Memory
  /-- The data bus (R40). -/
  dbus : Byte
  /-- The address bus (R41). -/
  abus : Word
  /-- The address-bus register (R42). -/
  abr : Word
  /-- ALU latch A (R43). -/
  aluA : Byte
  /-- ALU latch B (R43). -/
  aluB : Byte
  /-- ALU latch R (R43). -/
  aluR : Byte
  /-- The halted bit (R46). -/
  halted : Bool
  /-- The halt cause and its information; none when empty (R46, R250). -/
  haltRecord : Option HaltCause
  /-- The report log, oldest first (R47). -/
  reports : List GpuReport
  /-- THE MODEL'S OWN: the number of the next free value (assumption log 7). -/
  freeIdx : Nat
  deriving DecidableEq, Repr

/-- A step never ends in a fault: the spec gives every state and instruction a next state, the halted state of
60_exceptions.md R254 included. No constructor, so nothing raises one (safe: see assumption log 8). -/
inductive Fault where
  deriving DecidableEq, Repr

/-- Why the model gives no next state. -/
inductive Refusal where
  /-- An instruction with no meaning yet, raised by `exec`'s arm of it (safe: the model stops). No arm raises it now. -/
  | notModelled (mnemonic : String)
  /-- Raised by `hostStep` only: the host loads an image after the first step, which 70_reset_and_hazards.md R293 assumes
  it never does (safe: the launch is not modelled). -/
  | loadAfterFirstStep
  deriving DecidableEq, Repr

/-- The machine right after reset: R50. `freeIdx` is the model's own (DESIGN CHOICE 0, assumption log 7). -/
def State.reset : State where
  x := #v[0, 0, 0, 0, 0, 0, 0, 0]
  input := 0
  pc := 0
  flags := 0
  stk := #v[0, 0, 0, 0, 0, 0, 0, 0]
  depth := 0
  hdrHi := []
  hdrLo := []
  mem := []
  fb := []
  dbus := 0
  abus := 0
  abr := 0
  aluA := 0
  aluB := 0
  aluR := 0
  halted := false
  haltRecord := none
  reports := []
  freeIdx := 0

/-! Named updates of the state: every operation of the machine writes it through these. -/

def State.setReg (s : State) (i : Fin 8) (v : Byte) : State := { s with x := s.x.set i v }
def State.setInput (s : State) (v : Byte) : State := { s with input := v }
def State.setPc (s : State) (n : Nat) : State := { s with pc := n }
def State.setFlags (s : State) (v : Byte) : State := { s with flags := v }
def State.setSlot (s : State) (i : Fin 8) (v : Byte) : State := { s with stk := s.stk.set i v }
def State.setDepth (s : State) (d : Fin 9) : State := { s with depth := d }
def State.setHdr (s : State) (hi lo : Memory) : State := { s with hdrHi := hi, hdrLo := lo }
def State.setMem (s : State) (m : Memory) : State := { s with mem := m }
def State.setFb (s : State) (m : Memory) : State := { s with fb := m }
def State.setDbus (s : State) (v : Byte) : State := { s with dbus := v }
def State.setAbus (s : State) (w : Word) : State := { s with abus := w }
def State.setAbr (s : State) (w : Word) : State := { s with abr := w }
def State.setAluA (s : State) (v : Byte) : State := { s with aluA := v }
def State.setAluB (s : State) (v : Byte) : State := { s with aluB := v }
def State.setAluR (s : State) (v : Byte) : State := { s with aluR := v }
def State.setHalt (s : State) (b : Bool) (r : Option HaltCause) : State := { s with halted := b, haltRecord := r }
def State.setReports (s : State) (l : List GpuReport) : State := { s with reports := l }
def State.setFreeIdx (s : State) (n : Nat) : State := { s with freeIdx := n }

/-- General register i (R22). -/
def State.reg (s : State) (i : Fin 8) : Byte := s.x[i]

/-- Stack byte i (R33). -/
def State.slot (s : State) (i : Fin 8) : Byte := s.stk[i]

/-- The stack pointer of R33: -1 when empty, 7 when full. -/
def State.sp (s : State) : Int := (s.depth.val : Int) - 1

end Sys2Proof.Machine
end

