-- ==== Sys2Proof/Machine/Memory.lean ====
section
/-! DEFINITION. A memory of bytes in canonical form: reading, writing, the form. The spec's Memory is "byte array"
of a fixed length (10_state.md R37, R39, R44); the length of each is checked where it is accessed (Ops.lean). -/

namespace Sys2Proof.Machine

/-- The byte at an address; an unlisted address reads as 0 (the reset contents, R50). -/
def Memory.read : Memory → Nat → Byte
  | [], _ => 0
  | (b, w) :: rest, a => if b = a then w else Memory.read rest a

/-- Leaves address a unlisted. -/
def Memory.erase : Memory → Nat → Memory
  | [], _ => []
  | (b, w) :: rest, a => if b = a then Memory.erase rest a else (b, w) :: Memory.erase rest a

/-- Puts an entry before the first one at the same or a higher address. -/
def Memory.insert : Memory → Nat → Byte → Memory
  | [], a, v => [(a, v)]
  | (b, w) :: rest, a, v =>
    if a ≤ b then (a, v) :: (b, w) :: rest else (b, w) :: Memory.insert rest a v

/-- Writes one byte; writing 0 leaves the address unlisted, so the canonical form is kept. -/
def Memory.write (m : Memory) (a : Nat) (v : Byte) : Memory :=
  if v = 0 then m.erase a else (m.erase a).insert a v

/-- Every entry lies at `lo` or above and below `size`, addresses strictly rise, no entry is 0. -/
def Memory.wfFrom (size : Nat) : Nat → Memory → Bool
  | _, [] => true
  | lo, (a, v) :: rest => decide (lo ≤ a) && decide (a < size) && decide (v ≠ 0) && Memory.wfFrom size (a + 1) rest

/-- The canonical form of a memory with `size` bytes. -/
def Memory.wf (size : Nat) (m : Memory) : Bool := Memory.wfFrom size 0 m

/-- Writes consecutive bytes from an address up. -/
def Memory.writeBytes : Memory → Nat → List Byte → Memory
  | m, _, [] => m
  | m, a, v :: rest => Memory.writeBytes (m.write a v) (a + 1) rest

/-- Bytes in main memory (R39). -/
def memSize : Nat := 65536

/-- Entries in each header table (R37). -/
def hdrSize : Nat := 256

/-- Bytes in the framebuffer (R44). -/
def fbSize : Nat := 9360

end Sys2Proof.Machine
end

