-- ==== Sys2Proof/Machine/Ops.lean ====
section
/-! DEFINITION. The named operations the instruction rules are written in: sequencing with halts (00_scope.md R13),
taking a halt (60_exceptions.md R254), memory, header tables, stack, buses, framebuffer, reports. -/

namespace Sys2Proof.Machine

/-- How a run of pseudocode statements ends: it went on with a value, or a statement raised a halt. Both carry the state
with everything the statements before did (R254). -/
inductive Run (α : Type) where
  | done (a : α) (s : State)
  | halted (s : State)

/-- The next statement, run only if none has halted (R13: "no later statement of the step runs"). -/
def Run.andThen {α β : Type} (r : Run α) (k : α → State → Run β) : Run β :=
  match r with
  | .done a s => k a s
  | .halted s => .halted s

/-- The state a run ends in, whichever way it ends. -/
def Run.final {α : Type} (r : Run α) : State :=
  match r with
  | .done _ s => s
  | .halted s => s

/-- Both ends of a run are a next state: a halted core is a state of the machine (R254). -/
def Run.toOutcome {α : Type} (r : Run α) : Host.Outcome State Fault Refusal := .next r.final

/-- HALT ENTRY (R254): `halted <- true` and `halt_record <- (cause, information)`, and nothing else. -/
def State.takeHalt (s : State) (c : HaltCause) : State := s.setHalt true (some c)

/-- `raise Halt(kind, info)` (R13): ends the step at once. -/
def raise {α : Type} (c : HaltCause) (s : State) : Run α := .halted (s.takeHalt c)

/-- The only way out of the halted state is an external reset (R255, 70_reset_and_hazards.md R285). -/
def State.externalReset (_ : State) : State := State.reset

/-- The numeric code of a halt cause (R250, D18); no program can read it. -/
def HaltCause.code : HaltCause → Nat
  | .unknownOpcode _ _ => 1
  | .nopSentinel _ => 2
  | .busFault _ _ => 3
  | .memoryFault _ _ => 4
  | .stackOverflow _ => 5
  | .stackUnderflow => 6

/-! Main memory (20_memory.md R62). -/

/-- `MemRead(addr, 1)`. -/
def memRead (addr : Nat) (s : State) : Run Byte :=
  if addr < memSize then .done (s.mem.read addr) s else raise (.memoryFault .main addr) s

/-- `MemWrite(addr, 1, v)`. -/
def memWrite (addr : Nat) (v : Byte) (s : State) : Run Unit :=
  if addr < memSize then .done () (s.setMem (s.mem.write addr v)) else raise (.memoryFault .main addr) s

/-! Header tables (10_state.md R38). -/

/-- `HdrRead(idx)`. -/
def hdrRead (idx : Byte) (s : State) : Word := cat (s.hdrHi.read idx.toNat) (s.hdrLo.read idx.toNat)

/-- `HdrWrite(idx, hi, lo)`. -/
def hdrWrite (idx hi lo : Byte) (s : State) : State :=
  s.setHdr (s.hdrHi.write idx.toNat hi) (s.hdrLo.write idx.toNat lo)

/-! Stack (R35, R36). -/

/-- `Push(v)`. -/
def push (v : Byte) (s : State) : Run Unit :=
  if h : s.depth.val < 8 then
    .done () ((s.setSlot ⟨s.depth.val, h⟩ v).setDepth ⟨s.depth.val + 1, by omega⟩)
  else raise (.stackOverflow v) s

/-- The byte of the top entry (of slot 0 when the stack is empty, where `pop` does not read it). -/
def State.top (s : State) : Byte := s.slot ⟨s.depth.val - 1, by omega⟩

/-- The state with one entry fewer; the byte stays in its slot (R36). -/
def State.dropTop (s : State) : State := s.setDepth ⟨s.depth.val - 1, by omega⟩

/-- `Pop()`. -/
def pop (s : State) : Run Byte :=
  if s.depth.val = 0 then raise .stackUnderflow s else .done s.top s.dropTop

/-- The entries `stk[0..sp]`, bottom first (R36, 60_exceptions.md R263). -/
def State.stackContents (s : State) : List Byte := s.stk.toList.take s.depth.val

/-! Buses and address-bus register (R41, R42; the operations of R21's address_bus_mux). -/

/-- `abr_compose(hi, lo)`. -/
def State.abrCompose (s : State) (hi lo : Byte) : State := s.setAbr (cat hi lo)

/-- `abus_from_abr()`. -/
def State.abusFromAbr (s : State) : State := s.setAbus s.abr

/-- `abus_from_pc()`. -/
def State.abusFromPc (s : State) : State := s.setAbus (BitVec.ofNat 16 s.pc)

/-- `abus_sub(byte)`. -/
def State.abusSub (s : State) (v : Byte) : State := s.setAbus (s.abus - zext16 v)

/-- `dbus <- MemRead(abus, 1)`: the address-bus value is the address and the data bus takes the value (R62). -/
def busRead (s : State) : Run Unit :=
  (memRead s.abus.toNat s).andThen fun v t => .done () (t.setDbus v)

/-- `MemWrite(abus, 1, dbus)`. -/
def busWrite (s : State) : Run Unit := memWrite s.abus.toNat s.dbus s

/-! Program counter (R29, R30). -/

/-- `pc_hi = pc[15:8]`. R30 gives the halves for `pc` 0 to 65535 only; the model takes them of `pc` mod 65536, so at
65536 both are 0 (DESIGN CHOICE, assumption log 9; no instruction reads a half). -/
def State.pcHi (s : State) : Byte := hiByte (BitVec.ofNat 16 s.pc)

/-- `pc_lo = pc[7:0]`; at 65536 as `State.pcHi` (DESIGN CHOICE, assumption log 9). -/
def State.pcLo (s : State) : Byte := loByte (BitVec.ofNat 16 s.pc)

/-- `pc <- pc + 1`. -/
def State.advance (s : State) : State := s.setPc (s.pc + 1)

/-- `pc <- abus`. -/
def State.pcFromAbus (s : State) : State := s.setPc s.abus.toNat

/-! Framebuffer and reports (R45, R252). -/

/-- `FbWrite(off, v)`. -/
def fbWrite (off : Nat) (v : Byte) (s : State) : Run Unit :=
  if off < fbSize then .done () (s.setFb (s.fb.write off v)) else raise (.memoryFault .framebuffer off) s

/-- `report GpuCoordinateOutOfRange(prim, x, y)`: appended, nothing else. -/
def report (prim : GpuPrim) (x y : Int) (s : State) : State := s.setReports (s.reports ++ [⟨prim, x, y⟩])

end Sys2Proof.Machine
end

