-- ==== Sys2Proof/Machine/Operands.lean ====
section
/-! DEFINITION. Every operand form: register ids (10_state.md R24 to R27), absolute and variable addresses
(30_encoding.md R96, 43_data_movement.md R193), the shift amount (40_alu_ops.md R133), GPU coordinates (44_gpu.md
R215). -/

namespace Sys2Proof.Machine

/-- `RegRead(id)` (R26): the value goes to the data bus. -/
def regRead (id : Byte) (s : State) : Run Byte :=
  if h : id.toNat < 8 then .done (s.reg ⟨id.toNat, h⟩) (s.setDbus (s.reg ⟨id.toNat, h⟩))
  else if id.toNat = 8 then .done s.input (s.setDbus s.input)
  else if id.toNat = 10 then (pop s).andThen fun v t => .done v (t.setDbus v)
  else raise (.busFault .read id) s

/-- `RegWrite(id, v)` (R27): the value goes through the data bus, before any halt. -/
def regWrite (id v : Byte) (s : State) : Run Unit :=
  if h : id.toNat < 8 then .done () ((s.setDbus v).setReg ⟨id.toNat, h⟩ v)
  else if id.toNat = 10 then push v (s.setDbus v)
  else raise (.busFault .write id) (s.setDbus v)

/-- An absolute address on the address bus: stage (hi, lo) in the address-bus register, copy it to the bus (R42). -/
def absoluteAddress (hi lo : Byte) (s : State) : State := (s.abrCompose hi lo).abusFromAbr

/-- A variable slot's address on the address bus: 0xFFFF, minus the variable id (20_memory.md R67). -/
def variableAddress (varId : Byte) (s : State) : State := ((s.setAbr 0xFFFF).abusFromAbr).abusSub varId

/-- A jump target on the address bus: the header entry, through the address-bus register (42_control_transfer.md
R171). -/
def headerAddress (idx : Byte) (s : State) : State := (s.setAbr (hdrRead idx s)).abusFromAbr

/-- The shift amount from the n byte (R133; `SHIFT_N_SOURCE` of R8): the number itself, or a register's value. -/
def shiftAmount (p : Params) (n : Byte) (s : State) : Run Byte :=
  match p.shiftNSource with
  | .literal => .done n s
  | .register => regRead n s

/-- `coord(v)` of 44_gpu.md R215. -/
def coord (p : Params) (v : Byte) : Int := byteVal p.gpuCoordSigned v

/-- Pixel-grid range (44_gpu.md R217). -/
def pixelInRange (x y : Int) : Bool := decide (0 ≤ x) && decide (x ≤ 127) && decide (0 ≤ y) && decide (y ≤ 71)

/-- Character-grid range (R219). -/
def charInRange (x y : Int) : Bool := decide (0 ≤ x) && decide (x ≤ 15) && decide (0 ≤ y) && decide (y ≤ 8)

end Sys2Proof.Machine
end

