-- ==== Sys2Proof/Machine/Alu.lean ====
section
/-! DEFINITION. The ALU (40_alu_ops.md R120 to R129, R134): each operation reads the latches A and B and writes R. -/

namespace Sys2Proof.Machine

/-- R121. -/
def aluAdd (a b : Byte) : Byte := a + b

/-- R122. -/
def aluSub (a b : Byte) : Byte := a - b

/-- R123: the low 8 bits of the product. -/
def aluMul (a b : Byte) : Byte := a * b

/-- R124. -/
def aluXor (a b : Byte) : Byte := a ^^^ b

/-- R125. -/
def aluOr (a b : Byte) : Byte := a ||| b

/-- R126. -/
def aluAnd (a b : Byte) : Byte := a &&& b

/-- R127: operand A only. -/
def aluNot (a : Byte) : Byte := ~~~a

/-- R128: logical right shift, zero-fill; `LARGE_SHIFT` from 8 up. -/
def aluRshift (p : Params) (a b : Byte) : Byte :=
  if b.toNat ≤ 7 then a >>> b.toNat else p.largeShift .rshift a b

/-- The result of LSHIFT (R134): `(a * 2^n) mod 256` for n 0 to 7; `LARGE_SHIFT` from 8 up. -/
def leftShift (p : Params) (a n : Byte) : Byte :=
  if n.toNat ≤ 7 then a <<< n.toNat else p.largeShift .lshift a n

/-- `ALU.op()` (R120): latch R takes the operation of latches A and B; nothing else changes. -/
def State.aluRun (s : State) (op : Byte → Byte → Byte) : State := s.setAluR (op s.aluA s.aluB)

/-- `dbus <- alu.R`, then `RegWrite(rOut, alu.R)`. -/
def writeResult (rOut : Byte) (s : State) : Run Unit := regWrite rOut s.aluR (s.setDbus s.aluR)

/-- `Binary(op, r1, r2, rOut)` (R129): reads in encoding order, then the operation, then the write. -/
def binary (op : Byte → Byte → Byte) (r1 r2 rOut : Byte) (s : State) : Run Unit :=
  (regRead r1 s).andThen fun a s =>
  (regRead r2 (s.setAluA a)).andThen fun b s =>
  writeResult rOut ((s.setAluB b).aluRun op)

/-- NOT (R136): latch B is not written. -/
def complement (r rOut : Byte) (s : State) : Run Unit :=
  (regRead r s).andThen fun a s =>
  writeResult rOut ((s.setAluA a).aluRun fun a _ => aluNot a)

/-- RSHIFT (R133). -/
def shiftRight (p : Params) (r n rOut : Byte) (s : State) : Run Unit :=
  (regRead r s).andThen fun a s =>
  (shiftAmount p n (s.setAluA a)).andThen fun b s =>
  writeResult rOut (((s.setDbus b).setAluB b).aluRun (aluRshift p))

/-- The ALU latches at "any value" (R134, D27): three free values of their own. -/
def State.freeLatches (s : State) : State :=
  (((s.setAluA (Config.freeByte s.freeIdx)).setAluB (Config.freeByte (s.freeIdx + 1))).setAluR
    (Config.freeByte (s.freeIdx + 2))).setFreeIdx (s.freeIdx + 3)

/-- LSHIFT (R134). -/
def shiftLeft (p : Params) (r n rOut : Byte) (s : State) : Run Unit :=
  (regRead r s).andThen fun a s =>
  (shiftAmount p n s).andThen fun k s =>
  regWrite rOut (leftShift p a k) (s.freeLatches.setDbus (leftShift p a k))

end Sys2Proof.Machine
end

