-- ==== Sys2Proof/Machine/Parameters.lean ====
section
/-! DEFINITION. The parameter values the machine runs with: the defaults of 00_scope.md R8. -/

namespace Sys2Proof.Machine

/-- R8's defaults: unsigned compare (D2), literal shift amount (D3), shifts by 8 or more give 0 (D4), JIF on a compare
type 8 to 255 is not taken (D5), MTM clobbers no register (D6), unsigned GPU coordinates (D14). Assumption logs 1 to
6. -/
def params : Params where
  cmpSigned := false
  shiftNSource := .literal
  largeShift := fun _ _ _ => 0
  jifCmpHigh := fun _ _ => false
  mtmScratch := none
  gpuCoordSigned := false

end Sys2Proof.Machine
end

