-- ==== Sys2Proof/Machine/Arith.lean ====
section
/-! DEFINITION. The meanings of the arithmetic and logic instructions (40_alu_ops.md R130 to R138). -/

namespace Sys2Proof.Machine

/-- ADD (R130). -/
def execAdd (r1 r2 rOut : Byte) (s : State) : Host.Outcome State Fault Refusal := (binary aluAdd r1 r2 rOut s).toOutcome

/-- SUB (R131). -/
def execSub (r1 r2 rOut : Byte) (s : State) : Host.Outcome State Fault Refusal := (binary aluSub r1 r2 rOut s).toOutcome

/-- MUL (R132). -/
def execMul (r1 r2 rOut : Byte) (s : State) : Host.Outcome State Fault Refusal := (binary aluMul r1 r2 rOut s).toOutcome

/-- RSHIFT (R133). -/
def execRshift (r n rOut : Byte) (s : State) : Host.Outcome State Fault Refusal :=
  (shiftRight params r n rOut s).toOutcome

/-- LSHIFT (R134). -/
def execLshift (r n rOut : Byte) (s : State) : Host.Outcome State Fault Refusal :=
  (shiftLeft params r n rOut s).toOutcome

/-- AND (R135). -/
def execAnd (r1 r2 rOut : Byte) (s : State) : Host.Outcome State Fault Refusal := (binary aluAnd r1 r2 rOut s).toOutcome

/-- NOT (R136). -/
def execNot (r rOut : Byte) (s : State) : Host.Outcome State Fault Refusal := (complement r rOut s).toOutcome

/-- OR (R137). -/
def execOr (r1 r2 rOut : Byte) (s : State) : Host.Outcome State Fault Refusal := (binary aluOr r1 r2 rOut s).toOutcome

/-- XOR (R138). -/
def execXor (r1 r2 rOut : Byte) (s : State) : Host.Outcome State Fault Refusal := (binary aluXor r1 r2 rOut s).toOutcome

end Sys2Proof.Machine
end

