-- ==== Sys2Proof/Machine/Flags.lean ====
section
/-! DEFINITION. The flags: the ALU compare (41_compare_flags.md R150), CMP's and JIF's use of the flags register. -/

namespace Sys2Proof.Machine

/-- `val` of R150. -/
def cmpVal (p : Params) (v : Byte) : Int := byteVal p.cmpSigned v

/-- The five sub-comparisons of R150, each an ALU operation of its own. -/
def aluEq (p : Params) (a b : Byte) : Bool := decide (cmpVal p a = cmpVal p b)
def aluGt (p : Params) (a b : Byte) : Bool := decide (cmpVal p a > cmpVal p b)
def aluLt (p : Params) (a b : Byte) : Bool := decide (cmpVal p a < cmpVal p b)
def aluGe (p : Params) (a b : Byte) : Bool := decide (cmpVal p a ≥ cmpVal p b)
def aluLe (p : Params) (a b : Byte) : Bool := decide (cmpVal p a ≤ cmpVal p b)

/-- `ALU.compare` (R150): not-equal is the negation of equal; bits 7:6 are 0. -/
def aluCompare (p : Params) (a b : Byte) : Byte :=
  bit (aluEq p a b) * 1 + bit (aluGt p a b) * 2 + bit (aluLt p a b) * 4 + bit (aluGe p a b) * 8 +
    bit (aluLe p a b) * 16 + bit (!aluEq p a b) * 32

/-- CMP (R152). -/
def compareRegs (p : Params) (r1 r2 : Byte) (s : State) : Run Unit :=
  (regRead r1 s).andThen fun a s =>
  (regRead r2 (s.setAluA a)).andThen fun b s =>
  let s := (s.setAluB b).aluRun (aluCompare p)
  .done () ((s.setDbus s.aluR).setFlags s.aluR)

/-- JIF's test (42_control_transfer.md R172, R173): flags bit `cmp`, and `JIF_CMP_HIGH` from 8 up. -/
def jifTaken (p : Params) (cmp flags : Byte) : Bool :=
  if cmp.toNat ≤ 7 then flags.getLsbD cmp.toNat else p.jifCmpHigh cmp flags

end Sys2Proof.Machine
end

