-- ==== Sys2Proof/Machine/Compare.lean ====
section
/-! DEFINITION. The meanings of CMP and FTR (41_compare_flags.md R152, R153). -/

namespace Sys2Proof.Machine

/-- CMP (R152). -/
def execCmp (r1 r2 : Byte) (s : State) : Host.Outcome State Fault Refusal := (compareRegs params r1 r2 s).toOutcome

/-- FTR (R153): `dbus <- flags`, then the register write. -/
def execFtr (rTo : Byte) (s : State) : Host.Outcome State Fault Refusal :=
  (regWrite rTo s.flags (s.setDbus s.flags)).toOutcome

end Sys2Proof.Machine
end

