-- ==== Sys2Proof/Machine/Control.lean ====
section
/-! DEFINITION. The meanings of NOP (the 0x00 sentinel), LBL, JMP and JIF (42_control_transfer.md R168 to R173). -/

namespace Sys2Proof.Machine

/-- NOP (R168): halts with NopSentinel. When it executes the program counter is one past the 0x00 byte. -/
def execNop (s : State) : Host.Outcome State Fault Refusal := .next (s.takeHalt (.nopSentinel (s.pc - 1)))

/-- LBL (R169): compose the address, copy it to the bus, record the bus's two bytes. -/
def execLbl (idx hi lo : Byte) (s : State) : Host.Outcome State Fault Refusal :=
  let s := absoluteAddress hi lo s
  .next (hdrWrite idx (hiByte s.abus) (loByte s.abus) s)

/-- The jump of R171: header entry to the address bus, address bus to the program counter. -/
def jumpThrough (idx : Byte) (s : State) : State := (headerAddress idx s).pcFromAbus

/-- JMP (R171). -/
def execJmp (idx : Byte) (s : State) : Host.Outcome State Fault Refusal := .next (jumpThrough idx s)

/-- JIF under any parameters (R172). -/
def jumpIf (p : Params) (idx cmp : Byte) (s : State) : State :=
  if jifTaken p cmp s.flags then jumpThrough idx s else s

/-- JIF (R172). -/
def execJif (idx cmp : Byte) (s : State) : Host.Outcome State Fault Refusal := .next (jumpIf params idx cmp s)

end Sys2Proof.Machine
end

