-- ==== Sys2Proof/Machine/Gpu.lean ====
section
/-! DEFINITION. The GPU's primitives (44_gpu.md R216 to R221). -/

namespace Sys2Proof.Machine

/-- `DrawPixel(x, y, c)` (R217). -/
def drawPixel (x y : Int) (c : Byte) (s : State) : Run Unit :=
  if pixelInRange x y then fbWrite (y * 128 + x).toNat c s else .done () (report .pixel x y s)

/-- R218's loop: the pixels of n iterations from (x, y), `num` the running numerator, (sx, sy) the step of both axes,
(dxd, dyd) that of the driving axis. -/
def linePixelsFrom : Nat → (L S num : Nat) → (x y sx sy dxd dyd : Int) → List (Int × Int)
  | 0, _, _, _, _, _, _, _, _, _ => []
  | n + 1, L, S, num, x, y, sx, sy, dxd, dyd =>
    (x, y) ::
      if num + S ≥ L then linePixelsFrom n L S (num + S - L) (x + sx) (y + sy) sx sy dxd dyd
      else linePixelsFrom n L S (num + S) (x + dxd) (y + dyd) sx sy dxd dyd

/-- The pixels R218 draws, in its order: the width drives unless it is strictly shorter than the height. -/
def linePixels (x0 y0 x1 y1 : Int) : List (Int × Int) :=
  let w := x1 - x0
  let h := y1 - y0
  if w.natAbs ≥ h.natAbs then
    linePixelsFrom (w.natAbs + 1) w.natAbs h.natAbs (w.natAbs / 2) x0 y0 w.sign h.sign w.sign 0
  else linePixelsFrom (h.natAbs + 1) h.natAbs w.natAbs (h.natAbs / 2) x0 y0 w.sign h.sign 0 h.sign

/-- `DrawPixel` on each of a list of pixels, in order. -/
def drawPixels : List (Int × Int) → Byte → State → Run Unit
  | [], _, s => .done () s
  | (x, y) :: rest, c, s => (drawPixel x y c s).andThen fun _ t => drawPixels rest c t

/-- `DrawLine(x0, y0, x1, y1, c)` (R218): every pixel goes through `DrawPixel`. -/
def drawLine (x0 y0 x1 y1 : Int) (c : Byte) (s : State) : Run Unit := drawPixels (linePixels x0 y0 x1 y1) c s

/-- `DrawChar(x, y, code)` (R219), with the pixel grid's row stride. -/
def drawChar (x y : Int) (code : Byte) (s : State) : Run Unit :=
  if charInRange x y then fbWrite (9216 + y * 128 + x).toNat code s else .done () (report .char x y s)

/-- `toggleMode()` (R220): inert. -/
def State.toggleMode (s : State) : State := s

/-- `tick()` (R221): advances no state. -/
def State.tick (s : State) : State := s

/-- The channels of a colour byte (R216): `c[7:5]`, `c[4:2]`, `c[1:0]`. The CORE stores the byte unchanged. -/
def colourRed (c : Byte) : Nat := c.toNat / 32
def colourGreen (c : Byte) : Nat := c.toNat / 4 % 8
def colourBlue (c : Byte) : Nat := c.toNat % 4

end Sys2Proof.Machine
end

