-- ==== Sys2Proof/Machine/Draw.lean ====
section
/-! DEFINITION. The meanings of PXL, LINE, PRT and GMT (44_gpu.md R222 to R225). -/

namespace Sys2Proof.Machine

/-- PXL under any parameters (R222). -/
def pixelFromRegs (p : Params) (rX rY rCol : Byte) (s : State) : Run Unit :=
  (regRead rX s).andThen fun vx s =>
  (regRead rY s).andThen fun vy s =>
  (regRead rCol s).andThen fun vc s =>
  drawPixel (coord p vx) (coord p vy) vc s

/-- PXL (R222). -/
def execPxl (rX rY rCol : Byte) (s : State) : Host.Outcome State Fault Refusal :=
  (pixelFromRegs params rX rY rCol s).toOutcome

/-- LINE under any parameters (R223). -/
def lineFromRegs (p : Params) (rX rY rX1 rY1 rCol : Byte) (s : State) : Run Unit :=
  (regRead rX s).andThen fun v0 s =>
  (regRead rY s).andThen fun v1 s =>
  (regRead rX1 s).andThen fun v2 s =>
  (regRead rY1 s).andThen fun v3 s =>
  (regRead rCol s).andThen fun vc s =>
  drawLine (coord p v0) (coord p v1) (coord p v2) (coord p v3) vc s

/-- LINE (R223). -/
def execLine (rX rY rX1 rY1 rCol : Byte) (s : State) : Host.Outcome State Fault Refusal :=
  (lineFromRegs params rX rY rX1 rY1 rCol s).toOutcome

/-- PRT under any parameters (R224). -/
def charFromRegs (p : Params) (rX rY rChar : Byte) (s : State) : Run Unit :=
  (regRead rX s).andThen fun vx s =>
  (regRead rY s).andThen fun vy s =>
  (regRead rChar s).andThen fun vch s =>
  drawChar (coord p vx) (coord p vy) vch s

/-- PRT (R224). -/
def execPrt (rX rY rChar : Byte) (s : State) : Host.Outcome State Fault Refusal :=
  (charFromRegs params rX rY rChar s).toOutcome

/-- GMT (R225): inert. -/
def execGmt (s : State) : Host.Outcome State Fault Refusal := .next s.toggleMode

end Sys2Proof.Machine
end

