-- ==== Sys2Proof/Machine/Move.lean ====
section
/-! DEFINITION. The meanings of MOV, PUSH, RTR, MTR, RTM, MTM, VTR and RTV (43_data_movement.md R185 to R192). -/

namespace Sys2Proof.Machine

/-- MOV's immediate read (R185): copy the program counter to the address bus, read memory, advance. -/
def fetchImmediate (s : State) : Run Unit :=
  if s.pc < memSize then (busRead s.abusFromPc).andThen fun _ s => .done () s.advance
  else raise (.memoryFault .main s.pc) s

/-- MOV (R185). -/
def execMov (rTo : Byte) (s : State) : Host.Outcome State Fault Refusal :=
  ((fetchImmediate s).andThen fun _ s => regWrite rTo s.dbus s).toOutcome

/-- PUSH (R186). -/
def execPush (r : Byte) (s : State) : Host.Outcome State Fault Refusal :=
  ((regRead r s).andThen fun v s => push v s).toOutcome

/-- RTR (R187). -/
def execRtr (rFrom rTo : Byte) (s : State) : Host.Outcome State Fault Refusal :=
  ((regRead rFrom s).andThen fun v s => regWrite rTo v s).toOutcome

/-- MTR (R188). -/
def execMtr (hi lo rTo : Byte) (s : State) : Host.Outcome State Fault Refusal :=
  ((busRead (absoluteAddress hi lo s)).andThen fun _ s => regWrite rTo s.dbus s).toOutcome

/-- RTM (R189). -/
def execRtm (r hi lo : Byte) (s : State) : Host.Outcome State Fault Refusal :=
  ((regRead r s).andThen fun _ s => busWrite (absoluteAddress hi lo s)).toOutcome

/-- The scratch register of MTM, if the parameter names one (R190, R8). -/
def State.setScratch (s : State) (p : Params) (v : Byte) : State :=
  match p.mtmScratch with
  | none => s
  | some k => s.setReg k v

/-- MTM under any parameters (R190): the byte read waits in a scratch latch while the second address is composed. -/
def copyByte (p : Params) (hiA loA hiB loB : Byte) (s : State) : Run Unit :=
  (busRead (absoluteAddress hiA loA s)).andThen fun _ s =>
  let scratch := s.dbus
  busWrite ((absoluteAddress hiB loB (s.setScratch p scratch)).setDbus scratch)

/-- MTM (R190). -/
def execMtm (hiA loA hiB loB : Byte) (s : State) : Host.Outcome State Fault Refusal :=
  (copyByte params hiA loA hiB loB s).toOutcome

/-- VTR (R191). -/
def execVtr (varId rTo : Byte) (s : State) : Host.Outcome State Fault Refusal :=
  ((busRead (variableAddress varId s)).andThen fun _ s => regWrite rTo s.dbus s).toOutcome

/-- RTV (R192). -/
def execRtv (r varId : Byte) (s : State) : Host.Outcome State Fault Refusal :=
  ((regRead r s).andThen fun _ s => busWrite (variableAddress varId s)).toOutcome

end Sys2Proof.Machine
end

