-- ==== Sys2Proof/Machine/Dispatch.lean ====
section
/-! DEFINITION. The execute part of the step, one arm per instruction (30_encoding.md R102). -/

namespace Sys2Proof.Machine

def exec (i : Instr) (s : State) : Host.Outcome State Fault Refusal :=
  match i with
  | .nop => Sys2Proof.Machine.execNop s
  | .add r1 r2 rOut => Sys2Proof.Machine.execAdd r1 r2 rOut s
  | .sub r1 r2 rOut => Sys2Proof.Machine.execSub r1 r2 rOut s
  | .mul r1 r2 rOut => Sys2Proof.Machine.execMul r1 r2 rOut s
  | .rshift r n rOut => Sys2Proof.Machine.execRshift r n rOut s
  | .lshift r n rOut => Sys2Proof.Machine.execLshift r n rOut s
  | .lbl idx hi lo => Sys2Proof.Machine.execLbl idx hi lo s
  | .jmp idx => Sys2Proof.Machine.execJmp idx s
  | .jif idx cmp => Sys2Proof.Machine.execJif idx cmp s
  | .mov rTo => Sys2Proof.Machine.execMov rTo s
  | .push r => Sys2Proof.Machine.execPush r s
  | .rtr rFrom rTo => Sys2Proof.Machine.execRtr rFrom rTo s
  | .mtr hi lo rTo => Sys2Proof.Machine.execMtr hi lo rTo s
  | .rtm r hi lo => Sys2Proof.Machine.execRtm r hi lo s
  | .mtm hiA loA hiB loB => Sys2Proof.Machine.execMtm hiA loA hiB loB s
  | .vtr varId rTo => Sys2Proof.Machine.execVtr varId rTo s
  | .rtv r varId => Sys2Proof.Machine.execRtv r varId s
  | .ftr rTo => Sys2Proof.Machine.execFtr rTo s
  | .cmp r1 r2 => Sys2Proof.Machine.execCmp r1 r2 s
  | .and r1 r2 rOut => Sys2Proof.Machine.execAnd r1 r2 rOut s
  | .not r rOut => Sys2Proof.Machine.execNot r rOut s
  | .or r1 r2 rOut => Sys2Proof.Machine.execOr r1 r2 rOut s
  | .xor r1 r2 rOut => Sys2Proof.Machine.execXor r1 r2 rOut s
  | .pxl rX rY rCol => Sys2Proof.Machine.execPxl rX rY rCol s
  | .line rX rY rX1 rY1 rCol => Sys2Proof.Machine.execLine rX rY rX1 rY1 rCol s
  | .prt rX rY rChar => Sys2Proof.Machine.execPrt rX rY rChar s
  | .gmt => Sys2Proof.Machine.execGmt s

end Sys2Proof.Machine
end

