-- ==== Sys2Proof/WellFormed.lean ====
section
/-! DEFINITION. Which instructions are well formed. The spec checks no operand value at decode (30_encoding.md R101):
every instruction term is well formed. `Instr.idsValid` is the separate check of the register ids an instruction names
(10_state.md R24), which the machine makes only when it uses them. -/

namespace Sys2Proof

/-- R101: "every value of idx, hi, lo, varId, cmp, n and the immediate is accepted", and a register id is checked only
when the execute part uses it; so nothing is refused here. -/
def Instr.wellFormed : Instr → Bool
  | .nop => true
  | .add _ _ _ => true
  | .sub _ _ _ => true
  | .mul _ _ _ => true
  | .rshift _ _ _ => true
  | .lshift _ _ _ => true
  | .lbl _ _ _ => true
  | .jmp _ => true
  | .jif _ _ => true
  | .mov _ => true
  | .push _ => true
  | .rtr _ _ => true
  | .mtr _ _ _ => true
  | .rtm _ _ _ => true
  | .mtm _ _ _ _ => true
  | .vtr _ _ => true
  | .rtv _ _ => true
  | .ftr _ => true
  | .cmp _ _ => true
  | .and _ _ _ => true
  | .not _ _ => true
  | .or _ _ _ => true
  | .xor _ _ _ => true
  | .pxl _ _ _ => true
  | .line _ _ _ _ _ => true
  | .prt _ _ _ => true
  | .gmt => true

/-- R24: the ids a register operand may read: general registers, the input mask, the stack. -/
def readableId (id : Byte) : Bool := id.toNat ≤ 8 || id.toNat == 10

/-- R24: the ids a register operand may write: general registers and the stack. -/
def writableId (id : Byte) : Bool := id.toNat ≤ 7 || id.toNat == 10

/-- The register ids an instruction reads, in encoding order (R93), with n of a shift a literal (the default of
`SHIFT_N_SOURCE`). -/
def Instr.sources : Instr → List Byte
  | .nop => []
  | .add r1 r2 _ => [r1, r2]
  | .sub r1 r2 _ => [r1, r2]
  | .mul r1 r2 _ => [r1, r2]
  | .rshift r _ _ => [r]
  | .lshift r _ _ => [r]
  | .lbl _ _ _ => []
  | .jmp _ => []
  | .jif _ _ => []
  | .mov _ => []
  | .push r => [r]
  | .rtr rFrom _ => [rFrom]
  | .mtr _ _ _ => []
  | .rtm r _ _ => [r]
  | .mtm _ _ _ _ => []
  | .vtr _ _ => []
  | .rtv r _ => [r]
  | .ftr _ => []
  | .cmp r1 r2 => [r1, r2]
  | .and r1 r2 _ => [r1, r2]
  | .not r _ => [r]
  | .or r1 r2 _ => [r1, r2]
  | .xor r1 r2 _ => [r1, r2]
  | .pxl rX rY rCol => [rX, rY, rCol]
  | .line rX rY rX1 rY1 rCol => [rX, rY, rX1, rY1, rCol]
  | .prt rX rY rChar => [rX, rY, rChar]
  | .gmt => []

/-- The register id an instruction writes, if any (R93). -/
def Instr.dest : Instr → Option Byte
  | .nop => none
  | .add _ _ rOut => some rOut
  | .sub _ _ rOut => some rOut
  | .mul _ _ rOut => some rOut
  | .rshift _ _ rOut => some rOut
  | .lshift _ _ rOut => some rOut
  | .lbl _ _ _ => none
  | .jmp _ => none
  | .jif _ _ => none
  | .mov rTo => some rTo
  | .push _ => none
  | .rtr _ rTo => some rTo
  | .mtr _ _ rTo => some rTo
  | .rtm _ _ _ => none
  | .mtm _ _ _ _ => none
  | .vtr _ rTo => some rTo
  | .rtv _ _ => none
  | .ftr rTo => some rTo
  | .cmp _ _ => none
  | .and _ _ rOut => some rOut
  | .not _ rOut => some rOut
  | .or _ _ rOut => some rOut
  | .xor _ _ rOut => some rOut
  | .pxl _ _ _ => none
  | .line _ _ _ _ _ => none
  | .prt _ _ _ => none
  | .gmt => none

/-- Every register id the instruction names is one R24 gives a meaning in that place. An instruction that fails this
check still decodes and runs: it halts with BusFault. -/
def Instr.idsValid (i : Instr) : Bool := i.sources.all readableId && i.dest.all writableId

end Sys2Proof
end

