-- ==== Sys2Proof/Decode.lean ====
section
/-! DEFINITION. The encoding of 30_encoding.md R90 to R97 and R105: the decoder, total on any bytes, and the encoder. -/

namespace Sys2Proof

/-- The opcode byte of each row of R97. -/
def Opcode.toByte : Opcode → Byte
  | .nop => 0x00
  | .add => 0x01
  | .sub => 0x02
  | .mul => 0x03
  | .rshift => 0x04
  | .lshift => 0x05
  | .lbl => 0x06
  | .jmp => 0x07
  | .jif => 0x08
  | .mov => 0x09
  | .push => 0x0A
  | .rtr => 0x0B
  | .mtr => 0x0C
  | .rtm => 0x0D
  | .mtm => 0x0E
  | .vtr => 0x0F
  | .rtv => 0x10
  | .ftr => 0x11
  | .cmp => 0x12
  | .and => 0x13
  | .not => 0x14
  | .or => 0x15
  | .xor => 0x16
  | .pxl => 0x50
  | .line => 0x51
  | .prt => 0x52
  | .gmt => 0x53

/-- The operand bytes an opcode declares (R94, R97), MOV's immediate not among them (R105). -/
def Opcode.operandCount : Opcode → Nat
  | .nop => 0
  | .add => 3
  | .sub => 3
  | .mul => 3
  | .rshift => 3
  | .lshift => 3
  | .lbl => 3
  | .jmp => 1
  | .jif => 2
  | .mov => 1
  | .push => 1
  | .rtr => 2
  | .mtr => 3
  | .rtm => 3
  | .mtm => 4
  | .vtr => 2
  | .rtv => 2
  | .ftr => 1
  | .cmp => 2
  | .and => 3
  | .not => 2
  | .or => 3
  | .xor => 3
  | .pxl => 3
  | .line => 5
  | .prt => 3
  | .gmt => 0

/-- The length of an instruction in bytes (R95): 1 plus the operand count, and 3 for MOV. -/
def Opcode.length (o : Opcode) : Nat :=
  if o = .mov then 3 else 1 + o.operandCount

/-- The whole opcode table, in the order of R97. -/
def Opcode.all : List Opcode :=
  [.nop, .add, .sub, .mul, .rshift, .lshift, .lbl, .jmp, .jif, .mov, .push, .rtr, .mtr, .rtm, .mtm, .vtr, .rtv, .ftr,
    .cmp, .and, .not, .or, .xor, .pxl, .line, .prt, .gmt]

/-- `Decode(op)` of R167: it looks only at the opcode byte. `none` is `Unknown` (R98); the 0x00 sentinel is the
opcode `nop`. -/
def Opcode.ofByte (b : Byte) : Option Opcode :=
  Opcode.all.find? fun o => o.toByte == b

/-- Operand byte j (from 0) of the bytes fetched after an opcode. -/
def operandAt (bs : List Byte) (j : Nat) : Byte := bs.getD j 0

/-- The instruction an opcode and its fetched operand bytes make (R97, R102): byte j of the instruction is operand j. -/
def Opcode.build : Opcode → List Byte → Instr
  | .nop, _ => .nop
  | .add, bs => .add (operandAt bs 0) (operandAt bs 1) (operandAt bs 2)
  | .sub, bs => .sub (operandAt bs 0) (operandAt bs 1) (operandAt bs 2)
  | .mul, bs => .mul (operandAt bs 0) (operandAt bs 1) (operandAt bs 2)
  | .rshift, bs => .rshift (operandAt bs 0) (operandAt bs 1) (operandAt bs 2)
  | .lshift, bs => .lshift (operandAt bs 0) (operandAt bs 1) (operandAt bs 2)
  | .lbl, bs => .lbl (operandAt bs 0) (operandAt bs 1) (operandAt bs 2)
  | .jmp, bs => .jmp (operandAt bs 0)
  | .jif, bs => .jif (operandAt bs 0) (operandAt bs 1)
  | .mov, bs => .mov (operandAt bs 0)
  | .push, bs => .push (operandAt bs 0)
  | .rtr, bs => .rtr (operandAt bs 0) (operandAt bs 1)
  | .mtr, bs => .mtr (operandAt bs 0) (operandAt bs 1) (operandAt bs 2)
  | .rtm, bs => .rtm (operandAt bs 0) (operandAt bs 1) (operandAt bs 2)
  | .mtm, bs => .mtm (operandAt bs 0) (operandAt bs 1) (operandAt bs 2) (operandAt bs 3)
  | .vtr, bs => .vtr (operandAt bs 0) (operandAt bs 1)
  | .rtv, bs => .rtv (operandAt bs 0) (operandAt bs 1)
  | .ftr, bs => .ftr (operandAt bs 0)
  | .cmp, bs => .cmp (operandAt bs 0) (operandAt bs 1)
  | .and, bs => .and (operandAt bs 0) (operandAt bs 1) (operandAt bs 2)
  | .not, bs => .not (operandAt bs 0) (operandAt bs 1)
  | .or, bs => .or (operandAt bs 0) (operandAt bs 1) (operandAt bs 2)
  | .xor, bs => .xor (operandAt bs 0) (operandAt bs 1) (operandAt bs 2)
  | .pxl, bs => .pxl (operandAt bs 0) (operandAt bs 1) (operandAt bs 2)
  | .line, bs => .line (operandAt bs 0) (operandAt bs 1) (operandAt bs 2) (operandAt bs 3) (operandAt bs 4)
  | .prt, bs => .prt (operandAt bs 0) (operandAt bs 1) (operandAt bs 2)
  | .gmt, _ => .gmt

/-- Why bytes do not decode. -/
inductive DecodeError where
  /-- The opcode byte is in 0x17 to 0x4F or 0x54 to 0xFF (R98). -/
  | unknownOpcode (op : Byte)
  /-- There are fewer bytes than the opcode and its operands take; a machine with bytes left in memory fetches more. -/
  | truncated
  deriving DecidableEq, Repr

/-- The decoder, total on any bytes: the instruction at the front of a byte stream and the bytes after it. MOV's
immediate is not consumed: it is read when MOV executes (R105). -/
def decode : List Byte → Except DecodeError (Instr × List Byte)
  | [] => .error .truncated
  | op :: rest =>
    match Opcode.ofByte op with
    | none => .error (.unknownOpcode op)
    | some o =>
      if o.operandCount ≤ rest.length then
        .ok (o.build (rest.take o.operandCount), rest.drop o.operandCount)
      else .error .truncated

/-- The encoder (R90, R97): the opcode byte, then the operand bytes at the next addresses. -/
def encode (i : Instr) : List Byte := i.opcode.toByte :: i.operands

/-- The three bytes of `MOV rTo, imm` (R105): what `encode` gives, then the immediate. -/
def encodeMov (rTo imm : Byte) : List Byte := encode (.mov rTo) ++ [imm]

/-- The k lowest bytes of a number, most significant first: opcode_table.json numbers byte 0 of an instruction as its
most significant byte (the table's own note on match and mask; assumption log 14). -/
def bigEndianBytes : Nat → Nat → List Byte
  | 0, _ => []
  | k + 1, w => BitVec.ofNat 8 (w / 256 ^ k) :: bigEndianBytes k w

/-- The longest instruction is LINE with 6 bytes (R95). -/
def longestInstr : Nat := 6

/-- Bytes whose first is an opcode of that many bytes in all (R95). -/
def startsInstr (bs : List Byte) : Bool :=
  match bs.head?.bind Opcode.ofByte with
  | none => false
  | some o => o.length == bs.length

/-- The bytes of a table word of `nbits` bits as they lie in memory, filled with zero bytes up to the longest instruction.
A word that is a row's only when numbered the other way, byte 0 in its low bits, is read that way (assumption log 14). -/
def tableBytes (nbits w : Nat) : List Byte :=
  let k := (nbits + 7) / 8
  let bs := bigEndianBytes k w
  let bs := if !startsInstr bs && startsInstr bs.reverse then bs.reverse else bs
  bs ++ List.replicate (longestInstr - k) 0

/-- The instruction the decoder reads from a word of opcode_table.json. -/
def decodeTableWord (nbits w : Nat) : Option Instr :=
  match decode (tableBytes nbits w) with
  | .ok (i, _) => some i
  | .error _ => none

end Sys2Proof
end

