-- ==== Sys2Proof/Machine/Fetch.lean ====
section
/-! DEFINITION. Fetching an instruction and the step around its execute part (42_control_transfer.md R165, R166), and
laying bytes where it is fetched. -/

namespace Sys2Proof.Machine

/-- `Fetch()` (R166): the byte at the program counter, which advances by one; it drives no bus (D25, assumption
log 12). -/
def fetch (s : State) : Run Byte :=
  (memRead s.pc s).andThen fun b s => .done b s.advance

/-- k calls of `Fetch()`, in address order. -/
def fetchBytes : Nat → State → Run (List Byte)
  | 0, s => .done [] s
  | k + 1, s => (fetch s).andThen fun b s => (fetchBytes k s).andThen fun bs s => .done (b :: bs) s

/-- The step up to `Execute` (R165): the opcode, its decoding, then its operand bytes. -/
def fetchInstr (s : State) : Run Instr :=
  (fetch s).andThen fun op t =>
  match Opcode.ofByte op with
  | none => raise (.unknownOpcode op s.pc) t
  | some o => (fetchBytes o.operandCount t).andThen fun bs t => .done (o.build bs) t

/-- `Step()` of R165 around an execute part: nothing when halted; else fetch, decode, operands, execute. -/
def stepBy (execute : Instr → State → Host.Outcome State Fault Refusal) (s : State) :
    Host.Outcome State Fault Refusal :=
  if s.halted then .next s
  else
    match fetchInstr s with
    | .halted t => .next t
    | .done i t => execute i t

/-- The bytes that fit from an address to the end of main memory. -/
def bytesThatFit (a : Nat) (bs : List Byte) : List Byte := bs.take (memSize - a)

/-- The state with bytes stored from the program counter up, ready to fetch (the host's load stands behind it,
70_reset_and_hazards.md R289; assumption log 15). -/
def State.withBytesAtPc (s : State) (bs : List Byte) : State :=
  (s.setMem (s.mem.writeBytes s.pc (bytesThatFit s.pc bs))).setHalt false none

end Sys2Proof.Machine
end

