-- ==== Sys2Proof/Machine/Step.lean ====
section
/-! DEFINITION. One step of the CORE (42_control_transfer.md R165). -/

namespace Sys2Proof.Machine

/-- `Step()`, with `exec` as the execute part. -/
def step (s : State) : Host.Outcome State Fault Refusal := stepBy exec s

/-- The state with a word of opcode_table.json stored where `step` fetches next. -/
def State.withFetchWord (s : State) (nbits w : Nat) : State := s.withBytesAtPc (tableBytes nbits w)

end Sys2Proof.Machine
end

