-- ==== Sys2Proof/Machine/Under.lean ====
section
/-! DEFINITION. The machine under any value of the parameters of 00_scope.md R8. `exec`, `step` and `Sys2Proof.core` are
these at `params`, the spec's defaults. -/

namespace Sys2Proof.Machine

/-- The execute part under parameters p, one arm per instruction. -/
def execUnder (p : Params) (i : Instr) (s : State) : Host.Outcome State Fault Refusal :=
  match i with
  | .nop => execNop s
  | .add r1 r2 rOut => execAdd r1 r2 rOut s
  | .sub r1 r2 rOut => execSub r1 r2 rOut s
  | .mul r1 r2 rOut => execMul r1 r2 rOut s
  | .rshift r n rOut => (shiftRight p r n rOut s).toOutcome
  | .lshift r n rOut => (shiftLeft p r n rOut s).toOutcome
  | .lbl idx hi lo => execLbl idx hi lo s
  | .jmp idx => execJmp idx s
  | .jif idx cmp => .next (jumpIf p idx cmp s)
  | .mov rTo => execMov rTo s
  | .push r => execPush r s
  | .rtr rFrom rTo => execRtr rFrom rTo s
  | .mtr hi lo rTo => execMtr hi lo rTo s
  | .rtm r hi lo => execRtm r hi lo s
  | .mtm hiA loA hiB loB => (copyByte p hiA loA hiB loB s).toOutcome
  | .vtr varId rTo => execVtr varId rTo s
  | .rtv r varId => execRtv r varId s
  | .ftr rTo => execFtr rTo s
  | .cmp r1 r2 => (compareRegs p r1 r2 s).toOutcome
  | .and r1 r2 rOut => execAnd r1 r2 rOut s
  | .not r rOut => execNot r rOut s
  | .or r1 r2 rOut => execOr r1 r2 rOut s
  | .xor r1 r2 rOut => execXor r1 r2 rOut s
  | .pxl rX rY rCol => (pixelFromRegs p rX rY rCol s).toOutcome
  | .line rX rY rX1 rY1 rCol => (lineFromRegs p rX rY rX1 rY1 rCol s).toOutcome
  | .prt rX rY rChar => (charFromRegs p rX rY rChar s).toOutcome
  | .gmt => execGmt s

/-- `Step()` (42_control_transfer.md R165) under parameters p. -/
def stepUnder (p : Params) (s : State) : Host.Outcome State Fault Refusal := stepBy (execUnder p) s

/-- The whole machine under parameters p, behind the host's interface. -/
def coreUnder (p : Params) : Host.Core :=
  { State := State, Fault := Fault, Refusal := Refusal, step := stepUnder p, reset := State.reset }

end Sys2Proof.Machine
end

