-- ==== Sys2Proof/Machine/HostPort.lean ====
section
/-! DEFINITION. What the host can do to the CORE (70_reset_and_hazards.md R285 to R293, 60_exceptions.md R258, R263,
44_gpu.md R221, R227). Names here begin with `host` or belong to `Session`; the pipeline's own `Host` is another thing. -/

namespace Sys2Proof.Machine

/-- The bytes of an image that the load skips (R287). -/
def imageHeader : Nat := 16

/-- The memory's host port `load(offset, bytes)` (10_state.md R21, R288): the bytes from an address up, or nothing at all
(`none`) when they do not all fit. D24 says so of an image at offset 0; at any other offset, where the spec does not say
what a sequence past 0xFFFF does, refusing it whole rather than copying a prefix is the model's choice (DESIGN CHOICE,
assumption log 20). -/
def loadAt (offset : Nat) (bytes : List Byte) (s : State) : Option State :=
  if offset + bytes.length > memSize then none else some (s.setMem (s.mem.writeBytes offset bytes))

/-- `LoadImage(img)` of R288: refused as a whole (`none`) when more than 65536 bytes follow the header; else bytes 16
onward go to address 0 up, and bytes not covered keep their value. -/
def loadImage (img : List Byte) (s : State) : Option State := loadAt 0 (img.drop imageHeader) s

/-- The buttons of the input mask (10_state.md R25). -/
inductive Button where
  | left | right | up | down | a | d | w | s
  deriving DecidableEq, Repr

/-- The bit of each button, from bit 0 upward. -/
def Button.bit : Button → Nat
  | .left => 0
  | .right => 1
  | .up => 2
  | .down => 3
  | .a => 4
  | .d => 5
  | .w => 6
  | .s => 7

/-- Whether the input mask has a button's bit set. -/
def State.pressed (s : State) (b : Button) : Bool := s.input.getLsbD b.bit

/-- The inspection snapshot (R263). -/
structure Snapshot where
  x : Vector Byte 8
  input : Byte
  flags : Byte
  pc : Nat
  abus : Word
  dbus : Byte
  /-- `stk[0..sp]`, bottom first. -/
  stack : List Byte
  deriving DecidableEq, Repr

/-- Taking a snapshot (R263); it changes no state. -/
def State.snapshot (s : State) : Snapshot where
  x := s.x
  input := s.input
  flags := s.flags
  pc := s.pc
  abus := s.abus
  dbus := s.dbus
  stack := s.stackContents

/-- The interactions of R292, and nothing else. -/
inductive HostEvent where
  | reset
  | load (img : List Byte)
  | setInput (mask : Byte)
  | step
  | snapshot
  /-- One framebuffer byte; the host reads offsets 0 to 9359 (R227). -/
  | readFramebuffer (off : Fin 9360)
  | readHalt
  | tick
  deriving DecidableEq, Repr

/-- What the host gets back (R292). -/
inductive HostReply where
  | nothing
  /-- The image is too long; no state changed (R288). -/
  | imageTooLong
  | snapshot (view : Snapshot)
  | framebuffer (v : Byte)
  | halt (halted : Bool) (record : Option HaltCause) (reports : List GpuReport)
  deriving DecidableEq, Repr

/-- The CORE and what the host must know to keep R289: whether a step has been taken since reset. -/
structure Session where
  core : State
  started : Bool
  deriving DecidableEq, Repr

/-- The session right after reset (R285): reset loads no program. -/
def Session.reset : Session := ⟨State.reset, false⟩

/-- One host interaction, with the core's step given. Loading after the first step is refused (R289, R293, D21;
assumption log 20). R289's launch loads one image and R292 gives the time window only: that any number of loads is taken
between reset and the first step, each over what the ones before left, is the model's choice (DESIGN CHOICE, assumption
log 20). So is a snapshot before the first step, where R263, R292 and D34 speak only of one after a step, whether or not
debug mode is on. -/
def hostStepBy (coreStep : State → Host.Outcome State Fault Refusal) (e : HostEvent) (σ : Session) :
    Host.Outcome (Session × HostReply) Fault Refusal :=
  match e with
  | .reset => .next (⟨σ.core.externalReset, false⟩, .nothing)
  | .load img =>
    if σ.started then .refused .loadAfterFirstStep
    else
      match loadImage img σ.core with
      | none => .next (σ, .imageTooLong)
      | some t => .next (⟨t, false⟩, .nothing)
  | .setInput mask => .next (⟨σ.core.setInput mask, σ.started⟩, .nothing)
  | .step =>
    match coreStep σ.core with
    | .next t => .next (⟨t, true⟩, .nothing)
    | .fault r => .fault r
    | .refused r => .refused r
  | .snapshot => .next (σ, .snapshot σ.core.snapshot)
  | .readFramebuffer off => .next (σ, .framebuffer (σ.core.fb.read off.val))
  | .readHalt => .next (σ, .halt σ.core.halted σ.core.haltRecord σ.core.reports)
  | .tick => .next (⟨σ.core.tick, σ.started⟩, .nothing)

/-- One host interaction with the machine (R292). -/
def hostStep (e : HostEvent) (σ : Session) : Host.Outcome (Session × HostReply) Fault Refusal := hostStepBy step e σ

/-- One host interaction with the machine under parameters p (00_scope.md R8). -/
def hostStepUnder (p : Params) (e : HostEvent) (σ : Session) : Host.Outcome (Session × HostReply) Fault Refusal :=
  hostStepBy (stepUnder p) e σ

end Sys2Proof.Machine
end

