-- ==== Sys2Proof/Safety.lean ====
section
/-! DEFINITION. The words claims are stated in: when a register operand can be used and what its use leaves, the
machine's invariant, what two states must share to be told apart by no program, runs and their end. -/

namespace Sys2Proof.Machine

/-! Register operands, read off the table of 10_state.md R24. -/

/-- A read of this id does not halt: r0 to r7, the input mask, or the stack when it holds an entry. -/
abbrev Readable (id : Byte) (s : State) : Prop := id.toNat ≤ 8 ∨ (id.toNat = 10 ∧ 0 < s.depth.val)

/-- A write of this id does not halt: r0 to r7, or the stack when it is not full. -/
abbrev Writable (id : Byte) (s : State) : Prop := id.toNat ≤ 7 ∨ (id.toNat = 10 ∧ s.depth.val < 8)

/-- The value a readable id gives. -/
def readValue (id : Byte) (s : State) : Byte :=
  if h : id.toNat < 8 then s.reg ⟨id.toNat, h⟩ else if id.toNat = 8 then s.input else s.top

/-- The state after a readable id is read: the value on the data bus, and the stack one entry shorter for id 10. -/
def afterRead (id : Byte) (s : State) : State :=
  if id.toNat = 10 then s.dropTop.setDbus (readValue id s) else s.setDbus (readValue id s)

/-- The state after a writable id is written. -/
def afterWrite (id v : Byte) (s : State) : State :=
  if h : id.toNat < 8 then (s.setDbus v).setReg ⟨id.toNat, h⟩ v
  else if h : s.depth.val < 8 then
    ((s.setDbus v).setSlot ⟨s.depth.val, h⟩ v).setDepth ⟨s.depth.val + 1, by omega⟩
  else s.setDbus v

/-- The halt cause of a read that is not `Readable` (R26). -/
def readCause (id : Byte) : HaltCause := if id.toNat = 10 then .stackUnderflow else .busFault .read id

/-- The halt cause of a write that is not `Writable` (R27). -/
def writeCause (id v : Byte) : HaltCause := if id.toNat = 10 then .stackOverflow v else .busFault .write id

/-- Register ids that can be read one after the other, each in the state the reads before it left. -/
def ReadableAll : List Byte → State → Prop
  | [], _ => True
  | id :: rest, s => Readable id s ∧ ReadableAll rest (afterRead id s)

/-- The state after readable ids are read one after the other. -/
def afterReads : List Byte → State → State
  | [], s => s
  | id :: rest, s => afterReads rest (afterRead id s)

/-- The state after a write of an id, whether it completes or halts (R27): a halting write has put the value on the data
bus. -/
def written (id v : Byte) (s : State) : State :=
  if Writable id s then afterWrite id v s else (s.setDbus v).takeHalt (writeCause id v)

/-- The register ids an instruction reads under parameters p: `Instr.sources`, and the amount of a shift where
`SHIFT_N_SOURCE` makes it a register (40_alu_ops.md R133). -/
def readsUnder (p : Params) (i : Instr) : List Byte :=
  i.sources ++
    if (i.opcode = .rshift ∨ i.opcode = .lshift) ∧ p.shiftNSource = .register then [operandAt i.operands 1] else []

/-! Addresses. -/

/-- The 16-bit address an operand pair names (30_encoding.md R96). -/
def addressOf (hi lo : Byte) : Nat := hi.toNat * 256 + lo.toNat

/-- A variable slot's address (20_memory.md R67). -/
def slotAddress (varId : Byte) : Nat := 65535 - varId.toNat

/-- The address of the byte an instruction stores to main memory, if it stores one (20_memory.md R70). -/
def storeAddress : Instr → Option Nat
  | .rtm _ hi lo => some (addressOf hi lo)
  | .mtm _ _ hiB loB => some (addressOf hiB loB)
  | .rtv _ varId => some (slotAddress varId)
  | .nop | .add _ _ _ | .sub _ _ _ | .mul _ _ _ | .rshift _ _ _ | .lshift _ _ _ | .lbl _ _ _ | .jmp _ | .jif _ _ => none
  | .mov _ | .push _ | .rtr _ _ | .mtr _ _ _ | .vtr _ _ | .ftr _ | .cmp _ _ | .and _ _ _ | .not _ _ | .or _ _ _ => none
  | .xor _ _ _ | .pxl _ _ _ | .line _ _ _ _ _ | .prt _ _ _ | .gmt => none

/-! Results. -/

/-- The flag word of a compare: the table of 41_compare_flags.md R151. -/
def flagWord (signed : Bool) (a b : Byte) : Byte :=
  if byteVal signed a = byteVal signed b then 0x19 else if byteVal signed a > byteVal signed b then 0x2A else 0x34

/-- The byte an instruction writes to its destination register, its sources readable in turn, at the default parameters
(30_encoding.md R97's effect column); 0 for an instruction without one. -/
def resultByte (i : Instr) (s : State) : Byte :=
  match i with
  | .add r1 r2 _ => readValue r1 s + readValue r2 (afterRead r1 s)
  | .sub r1 r2 _ => readValue r1 s - readValue r2 (afterRead r1 s)
  | .mul r1 r2 _ => readValue r1 s * readValue r2 (afterRead r1 s)
  | .and r1 r2 _ => readValue r1 s &&& readValue r2 (afterRead r1 s)
  | .or r1 r2 _ => readValue r1 s ||| readValue r2 (afterRead r1 s)
  | .xor r1 r2 _ => readValue r1 s ^^^ readValue r2 (afterRead r1 s)
  | .not r _ => ~~~ readValue r s
  | .rshift r n _ => aluRshift params (readValue r s) n
  | .lshift r n _ => leftShift params (readValue r s) n
  | .mov _ => s.mem.read s.pc
  | .rtr rFrom _ => readValue rFrom s
  | .mtr hi lo _ => s.mem.read (addressOf hi lo)
  | .vtr varId _ => s.mem.read (slotAddress varId)
  | .ftr _ => s.flags
  | .nop | .lbl _ _ _ | .jmp _ | .jif _ _ | .push _ | .rtm _ _ _ | .mtm _ _ _ _ | .rtv _ _ | .cmp _ _ => 0
  | .pxl _ _ _ | .line _ _ _ _ _ | .prt _ _ _ | .gmt => 0

/-- What drawing one pixel leaves: the byte at offset y*128 + x, or one report (44_gpu.md R217). -/
def pixelDrawn (c : Byte) (s : State) (q : Int × Int) : State :=
  if 0 ≤ q.1 ∧ q.1 ≤ 127 ∧ 0 ≤ q.2 ∧ q.2 ≤ 71 then s.setFb (s.fb.write (q.2 * 128 + q.1).toNat c)
  else s.setReports (s.reports ++ [⟨.pixel, q.1, q.2⟩])

/-- The causes 60_exceptions.md R251 gives an instruction's execute part, cause by cause. -/
def mayHaltWith (o : Opcode) (c : HaltCause) : Bool :=
  match c with
  | .unknownOpcode _ _ => false
  | .nopSentinel _ => o == .nop
  | .busFault .read _ =>
    [Opcode.add, .sub, .mul, .and, .or, .xor, .rshift, .lshift, .not, .cmp, .push, .rtr, .rtm, .rtv, .pxl, .line,
      .prt].contains o
  | .busFault .write _ =>
    [Opcode.add, .sub, .mul, .and, .or, .xor, .rshift, .lshift, .not, .ftr, .mov, .rtr, .mtr, .vtr].contains o
  | .memoryFault .main _ => o == .mov
  | .memoryFault .framebuffer _ => o == .prt
  | .stackOverflow _ =>
    [Opcode.add, .sub, .mul, .and, .or, .xor, .rshift, .lshift, .not, .ftr, .mov, .push, .rtr, .mtr, .vtr].contains o
  | .stackUnderflow =>
    [Opcode.add, .sub, .mul, .and, .or, .xor, .rshift, .lshift, .not, .cmp, .push, .rtr, .rtm, .rtv, .pxl, .line,
      .prt].contains o

/-! The invariant. -/

/-- Coordinates outside the range the primitive draws (44_gpu.md R217, R219). -/
def GpuReport.outOfRange (r : GpuReport) : Prop :=
  match r.prim with
  | .pixel => ¬(0 ≤ r.x ∧ r.x ≤ 127 ∧ 0 ≤ r.y ∧ r.y ≤ 71)
  | .char => ¬(0 ≤ r.x ∧ r.x ≤ 15 ∧ 0 ≤ r.y ∧ r.y ≤ 8)

/-- The state in which a halt with this cause and information can stand (60_exceptions.md R250, R254). -/
def HaltCause.Justified (c : HaltCause) (s : State) : Prop :=
  match c with
  | .unknownOpcode op a => Opcode.ofByte op = none ∧ a < memSize ∧ s.pc = a + 1
  | .nopSentinel a => a < memSize ∧ s.pc = a + 1
  | .busFault .read id => readableId id = false
  | .busFault .write id => writableId id = false
  | .memoryFault .main a => a = memSize ∧ s.pc = memSize
  | .memoryFault .framebuffer off => 9472 ≤ off ∧ off ≤ 10255
  | .stackOverflow _ => s.depth.val = 8
  | .stackUnderflow => s.depth.val = 0

/-- What holds of the machine at every step boundary. -/
structure State.Inv (s : State) : Prop where
  /-- 10_state.md R28. -/
  pc_le : s.pc ≤ memSize
  /-- 41_compare_flags.md R151: the reset value or one of the three flag words. -/
  flags_word : s.flags = 0 ∨ s.flags = 0x19 ∨ s.flags = 0x2A ∨ s.flags = 0x34
  mem_wf : s.mem.wf memSize = true
  hdrHi_wf : s.hdrHi.wf hdrSize = true
  hdrLo_wf : s.hdrLo.wf hdrSize = true
  fb_wf : s.fb.wf fbSize = true
  /-- 10_state.md R46: a record exactly when halted. -/
  halted_iff : s.halted = s.haltRecord.isSome
  halt_justified : ∀ c, s.haltRecord = some c → c.Justified s
  /-- 60_exceptions.md R252: only out-of-range draws are reported. -/
  reports_outOfRange : ∀ r, r ∈ s.reports → r.outOfRange

/-! What a program, or the host but for its snapshot, can tell apart. -/

/-- Two states that differ at most in hidden state (10_state.md R49): the buses, the address-bus register, the ALU
latches, the stack bytes above `sp`, and the model's counter of free values. -/
structure SameVisible (s t : State) : Prop where
  x : s.x = t.x
  input : s.input = t.input
  pc : s.pc = t.pc
  flags : s.flags = t.flags
  depth : s.depth = t.depth
  entries : ∀ i : Fin 8, i.val < s.depth.val → s.slot i = t.slot i
  hdrHi : s.hdrHi = t.hdrHi
  hdrLo : s.hdrLo = t.hdrLo
  mem : s.mem = t.mem
  fb : s.fb = t.fb
  halted : s.halted = t.halted
  haltRecord : s.haltRecord = t.haltRecord
  reports : s.reports = t.reports

/-! Runs. -/

/-- The bytes of main memory from an address up are these, and all of them exist. -/
def BytesAt (s : State) (a : Nat) (bs : List Byte) : Prop :=
  a + bs.length ≤ memSize ∧ ∀ k, (h : k < bs.length) → s.mem.read (a + k) = bs[k]

/-- k steps of a machine whose step is given, with no host interaction between them (assumption log 21). -/
def stepsBy (f : State → Host.Outcome State Fault Refusal) : Nat → State → Host.Outcome State Fault Refusal
  | 0, s => .next s
  | k + 1, s =>
    match f s with
    | .next t => stepsBy f k t
    | .fault r => .fault r
    | .refused r => .refused r

/-- k steps (the host paces them, R297). -/
def stepN (k : Nat) (s : State) : Host.Outcome State Fault Refusal := stepsBy step k s

/-- k steps under parameters p (00_scope.md R8). -/
def stepNUnder (p : Params) (k : Nat) (s : State) : Host.Outcome State Fault Refusal := stepsBy (stepUnder p) k s

/-- The first step after which `halted` is true is step k, and leaves t (70_reset_and_hazards.md R291), for the machine
under parameters p. The spec does not say whether `set_input` calls between the steps (R292) belong to one run: here a run
is core steps alone, so `input` is constant over it, and one from a halted state ends at step 0 (DESIGN CHOICE, assumption
log 21); a run with host interactions in it is a sequence of `hostStepUnder`. -/
def RunEndsUnder (p : Params) (k : Nat) (s t : State) : Prop :=
  stepNUnder p k s = .next t ∧ t.halted = true ∧ ∀ j u, j < k → stepNUnder p j s = .next u → u.halted = false

/-- `RunEndsUnder` at the spec's default parameters. -/
def RunEndsAt (k : Nat) (s t : State) : Prop := RunEndsUnder params k s t

/-- A normal end (R291): NopSentinel at the address the program designates. -/
def State.endedNormally (s : State) (designated : Nat) : Bool :=
  s.halted && decide (s.haltRecord = some (.nopSentinel designated))

/-- The sessions a host can bring about from reset (R292). -/
inductive Session.Reachable : Session → Prop where
  | reset : Session.Reachable Session.reset
  | event (e : HostEvent) (σ τ : Session) (r : HostReply) :
      Session.Reachable σ → hostStep e σ = .next (τ, r) → Session.Reachable τ

end Sys2Proof.Machine
end

