-- ==== Sys2Proof/Certificates/Slice0/Obligations.lean ====
section
/-! DEFINITION. What is claimed of the machine, for the provers. Each docstring names the rules of spec/ it rests on and,
where it follows a choice the spec marks as its own (92_eei_decisions.md), that decision and the assumption log entry. -/

open Sys2Proof Sys2Proof.Machine

/-! Encoding. -/

/-- 30_encoding.md R97: nine words written out bit by bit decode to what the table says. -/
def Obligations.KnownWordsDecode : Prop :=
  decode [0b00000001, 0b00000001, 0b00000010, 0b00000011] = .ok (.add 1 2 3, []) ∧
  decode [0b00000101, 0b00000000, 0b00000011, 0b00000001] = .ok (.lshift 0 3 1, []) ∧
  decode [0b00010010, 0b00000000, 0b00000001] = .ok (.cmp 0 1, []) ∧
  decode [0b00001000, 0b00000001, 0b00000101] = .ok (.jif 1 5, []) ∧
  decode [0b00001001, 0b00000000, 0b00101010] = .ok (.mov 0, [0b00101010]) ∧
  decode [0b00001110, 0b00010010, 0b00110100, 0b00010010, 0b00110101] = .ok (.mtm 0x12 0x34 0x12 0x35, []) ∧
  decode [0b01010001, 0, 1, 2, 3, 4] = .ok (.line 0 1 2 3 4, []) ∧
  decode [0b01010011] = .ok (.gmt, []) ∧
  decode [0b00010111] = .error (.unknownOpcode 0x17)

/-- HEADLINE. R90, R97, R102: decoding and encoding agree in both directions, for every instruction, with every operand at
every byte value and any bytes behind it. -/
def Obligations.DecodeAndEncodeAgree : Prop :=
  ∀ (bs rest : List Byte) (i : Instr), decode bs = .ok (i, rest) ↔ bs = encode i ++ rest

/-- R98: the unknown opcode bytes are 0x17 to 0x4F and 0x54 to 0xFF, and fetching one halts before any operand byte is
read. -/
def Obligations.UnknownOpcodesHalt : Prop :=
  (∀ op : Byte, Opcode.ofByte op = none ↔
    (0x17 ≤ op.toNat ∧ op.toNat ≤ 0x4F) ∨ (0x54 ≤ op.toNat ∧ op.toNat ≤ 0xFF)) ∧
  ∀ s : State, s.halted = false → s.pc < 65536 → Opcode.ofByte (s.mem.read s.pc) = none →
    step s = .next { s with
      pc := s.pc + 1, halted := true, haltRecord := some (.unknownOpcode (s.mem.read s.pc) s.pc) }

/-! The step. -/

/-- R165: when the bytes at the program counter decode to i, the step is i's execute part, with the program counter past
the bytes decoded; for the machine, and for every value of the parameters of R8. -/
def Obligations.StepRunsTheDecodedInstruction : Prop :=
  ∀ (s : State) (i : Instr) (bs : List Byte), s.halted = false → BytesAt s s.pc bs → decode bs = .ok (i, []) →
    step s = exec i (s.setPc (s.pc + bs.length)) ∧
    ∀ p : Params, stepUnder p s = execUnder p i (s.setPc (s.pc + bs.length))

/-- R28, R166 under decision D1 (log 9): nothing wraps. A fetch at 65536 halts with MemoryFault, and an instruction whose
operand bytes run past 0xFFFF halts there with every byte before it fetched. -/
def Obligations.FetchPastTheEndHalts : Prop :=
  (∀ s : State, s.halted = false → 65536 ≤ s.pc →
    step s = .next { s with halted := true, haltRecord := some (.memoryFault .main s.pc) }) ∧
  ∀ (s : State) (o : Opcode), s.halted = false → s.pc < 65536 → Opcode.ofByte (s.mem.read s.pc) = some o →
    65536 < s.pc + 1 + o.operandCount →
    step s = .next { s with pc := 65536, halted := true, haltRecord := some (.memoryFault .main 65536) }

/-- R6, R165, R250, R254: every state has a next state; no instruction and no state stops the model. For a halted state
that is decision D10 (log 8): a step of it is a no-op, where the source allows "fails or is a no-op". -/
def Obligations.EveryStepAnswersANextState : Prop :=
  (∀ (i : Instr) (s : State), ∃ t, exec i s = .next t) ∧ ∀ s : State, ∃ t, step s = .next t

/-- R255 under decision D10 (log 8): a halted core stays as it is through any number of steps. -/
def Obligations.HaltedCoreNeverMoves : Prop :=
  ∀ (k : Nat) (s : State), s.halted = true → stepN k s = .next s

/-- 10_state.md R31: after an instruction that is no jump and does not halt, the program counter is the opcode address
plus the instruction's length (R95), MOV's immediate included. -/
def Obligations.PcAdvancesByTheLength : Prop :=
  ∀ (s t : State) (o : Opcode), s.halted = false → Opcode.ofByte (s.mem.read s.pc) = some o → o ≠ .jmp → o ≠ .jif →
    step s = .next t → t.halted = false → t.pc = s.pc + o.length

/-! ALU instructions. -/

/-- R121 to R127: each ALU operation on bytes, as arithmetic on numbers mod 256 and bit by bit. -/
def Obligations.AluOperationsOnBytes : Prop :=
  ∀ a b : Byte,
    (aluAdd a b).toNat = (a.toNat + b.toNat) % 256 ∧
    ((aluSub a b).toNat : Int) = ((a.toNat : Int) - (b.toNat : Int)) % 256 ∧
    (aluMul a b).toNat = (a.toNat * b.toNat) % 256 ∧
    (∀ i, i < 8 → (aluXor a b).getLsbD i = ((a.getLsbD i) ^^ (b.getLsbD i))) ∧
    (∀ i, i < 8 → (aluOr a b).getLsbD i = (a.getLsbD i || b.getLsbD i)) ∧
    (∀ i, i < 8 → (aluAnd a b).getLsbD i = (a.getLsbD i && b.getLsbD i)) ∧
    (aluNot a).toNat = 255 - a.toNat ∧
    ∀ s : State, ∀ op, s.aluRun op = { s with aluR := op s.aluA s.aluB }

/-- R129 to R132, R135, R137, R138 (operand order: decision D9, log 17; id 10 in ALU operands: D8, log 16): with both
sources readable in turn and the destination writable, the six two-source instructions complete, and the whole next state
is this one. -/
def Obligations.BinaryInstructionsComplete : Prop :=
  ∀ (r1 r2 rOut : Byte) (s : State),
    let a := readValue r1 s
    let s1 := afterRead r1 s
    let b := readValue r2 s1
    let s2 := afterRead r2 s1
    let result := fun v : Byte => afterWrite rOut v (((s2.setAluA a).setAluB b).setAluR v)
    Readable r1 s → Readable r2 s1 → Writable rOut s2 →
      exec (.add r1 r2 rOut) s = .next (result (a + b)) ∧
      exec (.sub r1 r2 rOut) s = .next (result (a - b)) ∧
      exec (.mul r1 r2 rOut) s = .next (result (a * b)) ∧
      exec (.and r1 r2 rOut) s = .next (result (a &&& b)) ∧
      exec (.or r1 r2 rOut) s = .next (result (a ||| b)) ∧
      exec (.xor r1 r2 rOut) s = .next (result (a ^^^ b))

/-- R136 (id 10: D8, log 16): NOT completes with the complement; latch B is not written. -/
def Obligations.NotCompletes : Prop :=
  ∀ (r rOut : Byte) (s : State), Readable r s → Writable rOut (afterRead r s) →
    exec (.not r rOut) s =
      .next (afterWrite rOut (~~~ readValue r s)
        (((afterRead r s).setAluA (readValue r s)).setAluR (~~~ readValue r s)))

/-- R133, R134 with the n byte a literal (D3, log 2): both shifts complete for every amount. Below 8 the result is
arithmetic on the number; from 8 up it is `LARGE_SHIFT` of the machine's parameters (D4, log 3). LSHIFT leaves the ALU
latches at free values (log 7): nothing is said of them. That r and rOut may be id 10 is D8 (log 16). -/
def Obligations.ShiftsComplete : Prop :=
  params.shiftNSource = .literal ∧
  ∀ (r n rOut : Byte) (s : State), Readable r s → Writable rOut (afterRead r s) →
    let a := readValue r s
    let right := if n.toNat ≤ 7 then BitVec.ofNat 8 (a.toNat / 2 ^ n.toNat) else params.largeShift .rshift a n
    let left := if n.toNat ≤ 7 then BitVec.ofNat 8 (a.toNat * 2 ^ n.toNat % 256) else params.largeShift .lshift a n
    exec (.rshift r n rOut) s =
      .next (afterWrite rOut right ((((afterRead r s).setAluA a).setAluB n).setAluR right)) ∧
    ∃ A B R k, exec (.lshift r n rOut) s =
      .next (afterWrite rOut left (((((afterRead r s).setAluA A).setAluB B).setAluR R).setFreeIdx k))

/-- R8, R133, R134 for EVERY value of the parameters, each shift with its whole next state: b, the amount, is the n byte
or the value of the register n, read after r. Below 8 the result is arithmetic on the number, from 8 up `LARGE_SHIFT`.
`written` writes a writable destination and halts on any other (what a halt leaves: D11, log 8); an r, and in the register
case an n, that cannot be read halts (order of reads: D9, log 17). RSHIFT leaves its operands and result in the latches,
LSHIFT free values (D27, log 7), of which nothing is said. The choice of the parameters: D3, D4 (logs 2, 3); id 10 as an
operand: D8 (log 16). -/
def Obligations.ShiftsUnderEveryParameter : Prop :=
  ∀ (p : Params) (r n rOut : Byte) (s : State),
    let a := readValue r s
    let s1 := afterRead r s
    let right := fun b : Byte =>
      if b.toNat ≤ 7 then BitVec.ofNat 8 (a.toNat / 2 ^ b.toNat) else p.largeShift .rshift a b
    let left := fun b : Byte =>
      if b.toNat ≤ 7 then BitVec.ofNat 8 (a.toNat * 2 ^ b.toNat % 256) else p.largeShift .lshift a b
    let complete := fun (b : Byte) (u : State) =>
      execUnder p (.rshift r n rOut) s =
          .next (written rOut (right b) (((u.setAluA a).setAluB b).setAluR (right b))) ∧
        ∃ A B R k, execUnder p (.lshift r n rOut) s =
          .next (written rOut (left b) ((((u.setAluA A).setAluB B).setAluR R).setFreeIdx k))
    (Readable r s → p.shiftNSource = .literal → complete n s1) ∧
    (Readable r s → p.shiftNSource = .register → Readable n s1 → complete (readValue n s1) (afterRead n s1)) ∧
    (Readable r s → p.shiftNSource = .register → ¬ Readable n s1 →
      execUnder p (.rshift r n rOut) s = .next ((s1.setAluA a).takeHalt (readCause n)) ∧
      execUnder p (.lshift r n rOut) s = .next (s1.takeHalt (readCause n))) ∧
    (¬ Readable r s →
      execUnder p (.rshift r n rOut) s = .next (s.takeHalt (readCause r)) ∧
      execUnder p (.lshift r n rOut) s = .next (s.takeHalt (readCause r)))

/-- 00_scope.md R8: the machine is the one that takes the parameters as an argument, at the spec's default of each (its
own decisions D2 to D6 and D14; logs 1 to 6); and only the instructions R8's rows are about depend on a parameter. -/
def Obligations.ParametersAreTheDefaults : Prop :=
  (∀ (i : Instr) (s : State), exec i s = execUnder params i s) ∧ (∀ s : State, step s = stepUnder params s) ∧
  (∀ (p : Params) (i : Instr) (s : State),
    i.opcode ∉ [Opcode.cmp, .rshift, .lshift, .jif, .mtm, .pxl, .line, .prt] → execUnder p i s = exec i s) ∧
  params.cmpSigned = false ∧ params.shiftNSource = .literal ∧ (∀ op a n, params.largeShift op a n = 0) ∧
  (∀ cmp flags, params.jifCmpHigh cmp flags = false) ∧ params.mtmScratch = none ∧ params.gpuCoordSigned = false

/-! Compare and flags. -/

/-- R150, for either signedness: the compare packs the five comparisons and not-equal, bit by bit, and bits 7:6 are 0. -/
def Obligations.CompareWordBits : Prop :=
  ∀ (p : Params) (a b : Byte),
    let va := byteVal p.cmpSigned a
    let vb := byteVal p.cmpSigned b
    (aluCompare p a b).getLsbD 0 = decide (va = vb) ∧ (aluCompare p a b).getLsbD 1 = decide (va > vb) ∧
    (aluCompare p a b).getLsbD 2 = decide (va < vb) ∧ (aluCompare p a b).getLsbD 3 = decide (va ≥ vb) ∧
    (aluCompare p a b).getLsbD 4 = decide (va ≤ vb) ∧ (aluCompare p a b).getLsbD 5 = !decide (va = vb) ∧
    (aluCompare p a b).getLsbD 6 = false ∧ (aluCompare p a b).getLsbD 7 = false

/-- R151, R152 (operand order D9, log 17; signedness D2, log 1; id 10 as an operand: D8, log 16): CMP completes under
every parameter, and `exec` under the machine's, with one of three flag words. -/
def Obligations.CompareCompletes : Prop :=
  ∀ (r1 r2 : Byte) (s : State),
    let a := readValue r1 s
    let s1 := afterRead r1 s
    let b := readValue r2 s1
    let s2 := afterRead r2 s1
    let result := fun w : Byte => ((((s2.setAluA a).setAluB b).setAluR w).setDbus w).setFlags w
    Readable r1 s → Readable r2 s1 →
      (∀ p : Params, compareRegs p r1 r2 s = .done () (result (flagWord p.cmpSigned a b))) ∧
      exec (.cmp r1 r2) s = .next (result (flagWord params.cmpSigned a b))

/-- R154: only CMP writes the flags register; so a step that changes it ran opcode 0x12. -/
def Obligations.OnlyCmpWritesFlags : Prop :=
  (∀ (i : Instr) (s t : State), exec i s = .next t → i.opcode ≠ .cmp → t.flags = s.flags) ∧
  ∀ s t : State, step s = .next t → t.flags ≠ s.flags → s.mem.read s.pc = 0x12

/-- R153 (a write to id 8: D7, log 16): FTR copies the flags byte to the register, or halts with the cause of the id. -/
def Obligations.FtrCopiesFlags : Prop :=
  ∀ (rTo : Byte) (s : State),
    (Writable rTo s → exec (.ftr rTo) s = .next (afterWrite rTo s.flags s)) ∧
    (¬ Writable rTo s → exec (.ftr rTo) s =
      .next { s with dbus := s.flags, halted := true, haltRecord := some (writeCause rTo s.flags) })

/-! Control transfer. -/

/-- R168 (the cause's name: D26, log 19): the execute part of 0x00 halts, with the address of the byte before the program
counter. -/
def Obligations.NopHaltsWithTheSentinel : Prop :=
  (∀ s : State, exec .nop s = .next { s with halted := true, haltRecord := some (.nopSentinel (s.pc - 1)) }) ∧
  ∀ s : State, s.halted = false → s.pc < 65536 → s.mem.read s.pc = 0 →
    step s = .next { s with pc := s.pc + 1, halted := true, haltRecord := some (.nopSentinel s.pc) }

/-- R169: LBL records the operand bytes in the header tables, through the address-bus register and the address bus, and
changes nothing else. -/
def Obligations.LblRecordsTheAddress : Prop :=
  ∀ (idx hi lo : Byte) (s : State), ∃ t, exec (.lbl idx hi lo) s = .next t ∧
    (∀ k, t.hdrHi.read k = if k = idx.toNat then hi else s.hdrHi.read k) ∧
    (∀ k, t.hdrLo.read k = if k = idx.toNat then lo else s.hdrLo.read k) ∧
    t.abr.toNat = addressOf hi lo ∧ t.abus.toNat = addressOf hi lo ∧
    t = { s with hdrHi := t.hdrHi, hdrLo := t.hdrLo, abr := t.abr, abus := t.abus }

/-- R171: JMP sets the program counter to the header entry, through the address-bus register and the address bus, and
changes nothing else; it cannot halt. -/
def Obligations.JmpGoesToTheHeaderEntry : Prop :=
  ∀ (idx : Byte) (s : State), ∃ t, exec (.jmp idx) s = .next t ∧
    t.pc = addressOf (s.hdrHi.read idx.toNat) (s.hdrLo.read idx.toNat) ∧ t.abr.toNat = t.pc ∧ t.abus.toNat = t.pc ∧
    t = { s with pc := t.pc, abr := t.abr, abus := t.abus }

/-- R172, R173 (compare types 8 to 255: D5, log 4): JIF on cmp 0 to 7 tests that flags bit; taken, it does what JMP does,
else nothing. A higher cmp does nothing, the default of `JIF_CMP_HIGH`; under every parameter it jumps as that says. -/
def Obligations.JifTestsTheFlagsBit : Prop :=
  ∀ (idx cmp : Byte) (s : State),
    (cmp.toNat ≤ 7 → s.flags.getLsbD cmp.toNat = true → ∃ t, exec (.jif idx cmp) s = .next t ∧
      exec (.jmp idx) s = .next t ∧ t.pc = addressOf (s.hdrHi.read idx.toNat) (s.hdrLo.read idx.toNat)) ∧
    (cmp.toNat ≤ 7 → s.flags.getLsbD cmp.toNat = false → exec (.jif idx cmp) s = .next s) ∧
    (8 ≤ cmp.toNat → exec (.jif idx cmp) s = .next s) ∧
    ∀ p : Params, 8 ≤ cmp.toNat →
      jumpIf p idx cmp s = if p.jifCmpHigh cmp s.flags then jumpThrough idx s else s

/-- R151, R172, R173 (signedness: D2, log 1; operand order: D9, log 17; id 10 in the CMP: D8, log 16): JIF after a CMP.
Exactly one of cmp 0, 1, 2 jumps, 3 as 0 or 1, 4 as 0 or 2, 5 unless 0, and 6 and 7 never. -/
def Obligations.JifAgreesWithTheLastCompare : Prop :=
  ∀ (r1 r2 idx : Byte) (s t : State), Readable r1 s → Readable r2 (afterRead r1 s) → exec (.cmp r1 r2) s = .next t →
    let va := byteVal params.cmpSigned (readValue r1 s)
    let vb := byteVal params.cmpSigned (readValue r2 (afterRead r1 s))
    let taken := fun cmp : Byte => exec (.jif idx cmp) t = exec (.jmp idx) t
    (va = vb → taken 0 ∧ taken 3 ∧ taken 4 ∧ ∀ c : Byte, c.toNat ∈ [1, 2, 5, 6, 7] → exec (.jif idx c) t = .next t) ∧
    (va > vb → taken 1 ∧ taken 3 ∧ taken 5 ∧ ∀ c : Byte, c.toNat ∈ [0, 2, 4, 6, 7] → exec (.jif idx c) t = .next t) ∧
    (va < vb → taken 2 ∧ taken 4 ∧ taken 5 ∧ ∀ c : Byte, c.toNat ∈ [0, 1, 3, 6, 7] → exec (.jif idx c) t = .next t)

/-- R169 to R171: a jump goes where the most recent LBL of its index said, whatever other index a later LBL wrote. -/
def Obligations.JumpGoesToTheMostRecentLabel : Prop :=
  ∀ (idx hi lo idx' hi' lo' : Byte) (s t u : State), idx ≠ idx' →
    exec (.lbl idx hi lo) s = .next t → exec (.lbl idx' hi' lo') t = .next u →
    ∃ v, exec (.jmp idx) u = .next v ∧ v.pc = addressOf hi lo

/-! Data movement. -/

/-- R185 (the end of memory: D22, log 9; a write to id 8: D7, log 16): MOV reads its immediate where the program counter
points when it executes, advances, and writes the register; the read and the advance stand when the write halts. -/
def Obligations.MovLoadsTheByteAtPc : Prop :=
  ∀ (rTo : Byte) (s : State),
    let t := ((s.setAbus (BitVec.ofNat 16 s.pc)).setDbus (s.mem.read s.pc)).setPc (s.pc + 1)
    (s.pc < 65536 → Writable rTo s → exec (.mov rTo) s = .next (afterWrite rTo (s.mem.read s.pc) t)) ∧
    (s.pc < 65536 → ¬ Writable rTo s → exec (.mov rTo) s =
      .next (t.takeHalt (writeCause rTo (s.mem.read s.pc)))) ∧
    (65536 ≤ s.pc → exec (.mov rTo) s =
      .next { s with halted := true, haltRecord := some (.memoryFault .main s.pc) })

/-- R186: PUSH, in every case: the byte goes on the stack, or the halt of the id or of a full stack. -/
def Obligations.PushPushesTheRegister : Prop :=
  ∀ (r : Byte) (s : State),
    ((afterRead r s).depth.val < 8 → Readable r s →
      ∃ t, exec (.push r) s = .next t ∧ t.depth.val = (afterRead r s).depth.val + 1 ∧ t.top = readValue r s ∧
        (∀ j : Fin 8, j.val ≠ (afterRead r s).depth.val → t.slot j = s.slot j) ∧
        t = { s with dbus := readValue r s, stk := t.stk, depth := t.depth }) ∧
    (r.toNat = 9 ∨ 11 ≤ r.toNat → ∃ t, exec (.push r) s = .next t ∧ t.halted = true ∧
      t.haltRecord = some (.busFault .read r)) ∧
    (r.toNat = 10 → s.depth.val = 0 → ∃ t, exec (.push r) s = .next t ∧ t.halted = true ∧
      t.haltRecord = some .stackUnderflow) ∧
    (r.toNat ≤ 8 → s.depth.val = 8 → ∃ t, exec (.push r) s = .next t ∧ t.halted = true ∧
      t.haltRecord = some (.stackOverflow (readValue r s)) ∧ t.stk = s.stk ∧ t.depth = s.depth)

/-- R187, S1 (a write to id 8: D7, log 16): RTR copies, pops or pushes, as its ids say. -/
def Obligations.RtrCopies : Prop :=
  ∀ (rFrom rTo : Byte) (s : State), Readable rFrom s →
    (Writable rTo (afterRead rFrom s) → exec (.rtr rFrom rTo) s =
      .next (afterWrite rTo (readValue rFrom s) (afterRead rFrom s))) ∧
    (¬ Writable rTo (afterRead rFrom s) → exec (.rtr rFrom rTo) s =
      .next ((afterRead rFrom s).takeHalt (writeCause rTo (readValue rFrom s))))

/-- R188, R191, R193 (a write to id 8: D7, log 16): MTR and VTR load the byte at their address, which exists for all
operands, and leave memory alone. -/
def Obligations.LoadsComplete : Prop :=
  ∀ (hi lo varId rTo : Byte) (s : State), Writable rTo s →
    (∃ t, exec (.mtr hi lo rTo) s = .next (afterWrite rTo (s.mem.read (addressOf hi lo)) t) ∧
      t = { s with abr := t.abr, abus := t.abus } ∧ t.abr.toNat = addressOf hi lo ∧ t.abus.toNat = addressOf hi lo) ∧
    (∃ t, exec (.vtr varId rTo) s = .next (afterWrite rTo (s.mem.read (slotAddress varId)) t) ∧
      t = { s with abr := t.abr, abus := t.abus } ∧ t.abr.toNat = 65535 ∧ t.abus.toNat = slotAddress varId)

/-- R189: RTM stores the register's byte at its address and changes no other byte; with a register that cannot be read it
halts with the cause, and memory is as before. -/
def Obligations.RtmStoresOneByte : Prop :=
  ∀ (r hi lo : Byte) (s : State),
    (Readable r s → ∃ t, exec (.rtm r hi lo) s = .next t ∧
      (∀ a, t.mem.read a = if a = addressOf hi lo then readValue r s else s.mem.read a) ∧
      t.abr.toNat = addressOf hi lo ∧ t.abus.toNat = addressOf hi lo ∧
      t = (((afterRead r s).setMem t.mem).setAbr t.abr).setAbus t.abus) ∧
    (r.toNat = 9 ∨ 11 ≤ r.toNat → ∃ t, exec (.rtm r hi lo) s = .next t ∧ t.halted = true ∧
      t.haltRecord = some (.busFault .read r) ∧ t.mem = s.mem) ∧
    (r.toNat = 10 → s.depth.val = 0 → ∃ t, exec (.rtm r hi lo) s = .next t ∧ t.halted = true ∧
      t.haltRecord = some .stackUnderflow ∧ t.mem = s.mem)

/-- R192: RTV stores the register's byte in the variable slot and changes no other byte; with a register that cannot be
read it halts with the cause, and memory is as before. -/
def Obligations.RtvStoresOneByte : Prop :=
  ∀ (r varId : Byte) (s : State),
    (Readable r s → ∃ t, exec (.rtv r varId) s = .next t ∧
      (∀ a, t.mem.read a = if a = 65535 - varId.toNat then readValue r s else s.mem.read a) ∧
      t.abr.toNat = 65535 ∧ t.abus.toNat = 65535 - varId.toNat ∧
      t = (((afterRead r s).setMem t.mem).setAbr t.abr).setAbus t.abus) ∧
    (r.toNat = 9 ∨ 11 ≤ r.toNat → ∃ t, exec (.rtv r varId) s = .next t ∧ t.halted = true ∧
      t.haltRecord = some (.busFault .read r) ∧ t.mem = s.mem) ∧
    (r.toNat = 10 → s.depth.val = 0 → ∃ t, exec (.rtv r varId) s = .next t ∧ t.halted = true ∧
      t.haltRecord = some .stackUnderflow ∧ t.mem = s.mem)

/-- R190 (the scratch register: D6, log 5): MTM copies one byte, for all operands, under every parameter; a register is
written only where the parameter names one. -/
def Obligations.MtmCopiesOneByte : Prop :=
  ∀ (hiA loA hiB loB : Byte) (s : State),
    (∀ p : Params, ∃ t, copyByte p hiA loA hiB loB s = .done () t ∧
      (∀ a, t.mem.read a = if a = addressOf hiB loB then s.mem.read (addressOf hiA loA) else s.mem.read a) ∧
      (∀ j : Fin 8, t.reg j = if p.mtmScratch = some j then s.mem.read (addressOf hiA loA) else s.reg j) ∧
      t.dbus = s.mem.read (addressOf hiA loA) ∧ t.abr.toNat = addressOf hiB loB ∧ t.abus.toNat = addressOf hiB loB ∧
      t = { s with x := t.x, mem := t.mem, dbus := t.dbus, abr := t.abr, abus := t.abus }) ∧
    exec (.mtm hiA loA hiB loB) s = .next (copyByte params hiA loA hiB loB s).final

/-- R191, R192, S8: RTV then VTR of the same slot gives the byte back, through any readable source and any general
destination, for every variable id. -/
def Obligations.StoredVariableIsLoaded : Prop :=
  ∀ (r r2 varId : Byte) (s t : State), Readable r s → exec (.rtv r varId) s = .next t →
    ∀ j : Fin 8, r2.toNat = j.val → ∃ u, exec (.vtr varId r2) t = .next u ∧ u.reg j = readValue r s ∧ u.mem = t.mem

/-! Stack. -/

/-- R35, R36: `Push` and `Pop` in every case. -/
def Obligations.PushAndPop : Prop :=
  (∀ (v : Byte) (s : State), s.sp + 1 ≤ 7 → ∃ t, push v s = .done () t ∧ t.sp = s.sp + 1 ∧
    t.stackContents = s.stackContents ++ [v] ∧ t = { s with stk := t.stk, depth := t.depth }) ∧
  (∀ (v : Byte) (s : State), s.sp + 1 > 7 →
    push v s = .halted { s with halted := true, haltRecord := some (.stackOverflow v) }) ∧
  (∀ s : State, 0 ≤ s.sp → ∃ v t, pop s = .done v t ∧ t.sp = s.sp - 1 ∧
    s.stackContents = t.stackContents ++ [v] ∧ t = { s with depth := t.depth }) ∧
  (∀ s : State, s.sp < 0 → pop s = .halted { s with halted := true, haltRecord := some .stackUnderflow })

/-- The bytes of a list pushed in order by `PUSH`-like calls, stopping at a halt. -/
def pushAll : List Byte → State → Run Unit
  | [], s => .done () s
  | v :: rest, s => (push v s).andThen fun _ t => pushAll rest t

/-- k pops, the first byte popped first. -/
def popAll : Nat → State → Run (List Byte)
  | 0, s => .done [] s
  | k + 1, s => (pop s).andThen fun v t => (popAll k t).andThen fun vs u => .done (v :: vs) u

/-- R194: bytes pushed come back in reverse order, leaving the stack's entries as they were; a ninth push halts with
StackOverflow and a pop of an empty stack with StackUnderflow. -/
def Obligations.StackIsLastInFirstOut : Prop :=
  (∀ (vs : List Byte) (s : State), s.depth.val + vs.length ≤ 8 →
    ∃ t u, pushAll vs s = .done () t ∧ popAll vs.length t = .done vs.reverse u ∧
      u.stackContents = s.stackContents ∧ u.depth = s.depth) ∧
  (∀ (vs : List Byte) (v : Byte) (s : State), s.depth.val + vs.length = 8 →
    ∃ t, pushAll vs s = .done () t ∧ push v t = .halted (t.takeHalt (.stackOverflow v))) ∧
  (∀ s : State, s.depth.val = 0 → pop s = .halted (s.takeHalt .stackUnderflow))

/-! Register ids. -/

/-- R24 to R27 (a write to id 8: D7; id 10: D8; log 16): what each id reads and writes. -/
def Obligations.RegisterIdsDecode : Prop :=
  (∀ (id : Byte) (s : State) (j : Fin 8), id.toNat = j.val → regRead id s = .done (s.reg j) { s with dbus := s.reg j }) ∧
  (∀ (id : Byte) (s : State), id.toNat = 8 → regRead id s = .done s.input { s with dbus := s.input }) ∧
  (∀ (id : Byte) (s : State), id.toNat = 10 → 0 < s.depth.val → ∃ t, pop s = .done s.top t ∧
    regRead id s = .done s.top { t with dbus := s.top }) ∧
  (∀ (id : Byte) (s : State), id.toNat = 9 ∨ 11 ≤ id.toNat →
    regRead id s = .halted { s with halted := true, haltRecord := some (.busFault .read id) }) ∧
  (∀ (id v : Byte) (s : State) (j : Fin 8), id.toNat = j.val →
    ∃ t, regWrite id v s = .done () t ∧ t.reg j = v ∧ (∀ k, k ≠ j → t.reg k = s.reg k) ∧
      t = { s with dbus := v, x := t.x }) ∧
  (∀ (id v : Byte) (s : State), id.toNat = 10 → regWrite id v s = push v { s with dbus := v }) ∧
  (∀ (id v : Byte) (s : State), id.toNat = 8 ∨ id.toNat = 9 ∨ 11 ≤ id.toNat →
    regWrite id v s = .halted { s with dbus := v, halted := true, haltRecord := some (.busFault .write id) })

/-- R253, R254 (reads in encoding order: D9, log 17; effects before the halt stay: D11, log 8; id 10 as an operand of ALU,
compare and GPU instructions, with StackUnderflow on an empty stack: D8, log 16): every instruction that reads registers
reads its first source first, so an unreadable one halts it with nothing changed but the halt. -/
def Obligations.UnreadableFirstSourceHalts : Prop :=
  ∀ (i : Instr) (r : Byte) (rest : List Byte) (s : State), i.sources = r :: rest → ¬ Readable r s →
    exec i s = .next { s with halted := true, haltRecord := some (readCause r) }

/-- R253, for every source but the first: an instruction reads its sources in encoding order (D9, log 17), and one that
cannot be read after those before it halts the instruction, with the reads before it done (D11, log 8), no later statement
run, and its first operand in ALU latch A where the instruction uses the ALU. So a stack source with one entry, read twice,
halts at the second read with the entry gone (id 10 as such an operand: D8, log 16). -/
def Obligations.UnreadableLaterSourceHalts : Prop :=
  ∀ (i : Instr) (r1 r : Byte) (before after : List Byte) (s : State),
    i.sources = r1 :: (before ++ r :: after) → ReadableAll (r1 :: before) s →
    ¬ Readable r (afterReads (r1 :: before) s) →
    let t := afterReads (r1 :: before) s
    (i.opcode ∈ [Opcode.pxl, .line, .prt] → exec i s = .next (t.takeHalt (readCause r))) ∧
    (i.opcode ∉ [Opcode.pxl, .line, .prt] → exec i s = .next ((t.setAluA (readValue r1 s)).takeHalt (readCause r)))

/-- R27, R251, R253: an instruction whose sources can all be read, with a destination that cannot be written after those
reads (an id no register has, or id 10 with the stack full), halts with the cause of the destination, the byte it was to
write on the data bus. The reads stay done, MOV's advance too (D11, log 8); no register and no byte of memory, stack,
header table or framebuffer changes (a write to id 8: D7; id 10 in every operand: D8; log 16; order: D9, log 17; ids
checked when used: D36, log 13). This is said at the default parameters: the n of a shift is an amount and no source (D3,
log 2), and the byte a shift was to write is `LARGE_SHIFT`'s from amount 8 up (D4, log 3). -/
def Obligations.UnwritableDestinationHalts : Prop :=
  ∀ (i : Instr) (d : Byte) (s : State), i.dest = some d → ReadableAll i.sources s →
    ¬ Writable d (afterReads i.sources s) → (i.opcode = .mov → s.pc < 65536) →
    ∃ t, exec i s = .next t ∧ t.halted = true ∧ t.haltRecord = some (writeCause d (resultByte i s)) ∧
      t.dbus = resultByte i s ∧ t.pc = (if i.opcode = .mov then s.pc + 1 else s.pc) ∧
      t.depth = (afterReads i.sources s).depth ∧ t.stk = s.stk ∧ t.x = s.x ∧ t.input = s.input ∧ t.flags = s.flags ∧
      t.mem = s.mem ∧ t.hdrHi = s.hdrHi ∧ t.hdrLo = s.hdrLo ∧ t.fb = s.fb ∧ t.reports = s.reports

/-! GPU. -/

/-- R217, R252 (the report list: D28, log 19): a pixel in range is one framebuffer byte, a pixel out of range one report;
`DrawPixel` never halts. -/
def Obligations.DrawPixelWritesOrReports : Prop :=
  ∀ (x y : Int) (c : Byte) (s : State), ∃ t, drawPixel x y c s = .done () t ∧
    (0 ≤ x ∧ x ≤ 127 ∧ 0 ≤ y ∧ y ≤ 71 →
      (∀ off : Nat, t.fb.read off = if (off : Int) = y * 128 + x then c else s.fb.read off) ∧ t = { s with fb := t.fb }) ∧
    (¬(0 ≤ x ∧ x ≤ 127 ∧ 0 ≤ y ∧ y ≤ 71) → t = { s with reports := s.reports ++ [⟨.pixel, x, y⟩] })

/-- R45: a framebuffer write past the end halts with MemoryFault and writes nothing; any other writes one byte. -/
def Obligations.FramebufferWriteIsBounded : Prop :=
  ∀ (off : Nat) (v : Byte) (s : State),
    (off < 9360 → ∃ t, fbWrite off v s = .done () t ∧
      (∀ k, t.fb.read k = if k = off then v else s.fb.read k) ∧ t = { s with fb := t.fb }) ∧
    (9360 ≤ off → fbWrite off v s =
      .halted { s with halted := true, haltRecord := some (.memoryFault .framebuffer off) })

/-- R222 (operand order: D9, log 17; signedness: D14, log 6; id 10 as an operand: D8, log 16; the report list: D28, log
19): PXL completes for every coordinate, under every parameter. -/
def Obligations.PxlCompletes : Prop :=
  ∀ (rX rY rCol : Byte) (s : State),
    let s1 := afterRead rX s
    let s2 := afterRead rY s1
    let s3 := afterRead rCol s2
    let result := fun signed : Bool =>
      pixelDrawn (readValue rCol s2) s3 (byteVal signed (readValue rX s), byteVal signed (readValue rY s1))
    Readable rX s → Readable rY s1 → Readable rCol s2 →
      (∀ p : Params, pixelFromRegs p rX rY rCol s = .done () (result p.gpuCoordSigned)) ∧
      exec (.pxl rX rY rCol) s = .next (result params.gpuCoordSigned)

/-- R218, R223 (pixels off the grid one by one: D13, log 18; order: D9, log 17; signedness: D14, log 6; id 10 as an
operand: D8, log 16; the report list: D28, log 19): LINE completes for all endpoints, drawing the pixels of the line in
order. -/
def Obligations.LineCompletes : Prop :=
  ∀ (rX rY rX1 rY1 rCol : Byte) (s : State),
    let s1 := afterRead rX s
    let s2 := afterRead rY s1
    let s3 := afterRead rX1 s2
    let s4 := afterRead rY1 s3
    let s5 := afterRead rCol s4
    let pixels := fun signed : Bool =>
      linePixels (byteVal signed (readValue rX s)) (byteVal signed (readValue rY s1))
        (byteVal signed (readValue rX1 s2)) (byteVal signed (readValue rY1 s3))
    let result := fun signed : Bool => (pixels signed).foldl (pixelDrawn (readValue rCol s4)) s5
    Readable rX s → Readable rY s1 → Readable rX1 s2 → Readable rY1 s3 → Readable rCol s4 →
      (∀ p : Params, lineFromRegs p rX rY rX1 rY1 rCol s = .done () (result p.gpuCoordSigned)) ∧
      exec (.line rX rY rX1 rY1 rCol) s = .next (result params.gpuCoordSigned)

/-- R219, R224 (range check: D12, log 18; order: D9, log 17; signedness: D14, log 6; id 10 as an operand: D8, log 16; the
pops a halt keeps: D11, log 8; the report list: D28, log 19): PRT writes the cell in rows 0 and 1, halts with
MemoryFault in rows 2 to 8, and reports and skips any other cell. -/
def Obligations.PrtWritesReportsOrHalts : Prop :=
  ∀ (rX rY rChar : Byte) (s : State),
    let s1 := afterRead rX s
    let s2 := afterRead rY s1
    let s3 := afterRead rChar s2
    let x := byteVal params.gpuCoordSigned (readValue rX s)
    let y := byteVal params.gpuCoordSigned (readValue rY s1)
    let code := readValue rChar s2
    Readable rX s → Readable rY s1 → Readable rChar s2 →
      (0 ≤ x ∧ x ≤ 15 ∧ 0 ≤ y ∧ y ≤ 1 → ∃ t, exec (.prt rX rY rChar) s = .next t ∧
        (∀ off : Nat, t.fb.read off = if (off : Int) = 9216 + y * 128 + x then code else s.fb.read off) ∧
        t = s3.setFb t.fb) ∧
      (0 ≤ x ∧ x ≤ 15 ∧ 2 ≤ y ∧ y ≤ 8 → exec (.prt rX rY rChar) s =
        .next (s3.takeHalt (.memoryFault .framebuffer (9216 + y * 128 + x).toNat))) ∧
      (x < 0 ∨ 15 < x ∨ y < 0 ∨ 8 < y → exec (.prt rX rY rChar) s =
        .next (s3.setReports (s.reports ++ [⟨.char, x, y⟩])))

/-- R225: GMT changes nothing; a step that runs it changes only the program counter. -/
def Obligations.GmtChangesOnlyPc : Prop :=
  (∀ s : State, exec .gmt s = .next s) ∧
  ∀ s : State, s.halted = false → s.pc < 65536 → s.mem.read s.pc = 0x53 → step s = .next { s with pc := s.pc + 1 }

/-- R226: the loop of R218, with its running numerator, draws exactly the pixels of the closed form, L + 1 of
them, from the first endpoint to the last, for all integer endpoints. -/
def Obligations.LineIsTheClosedForm : Prop :=
  ∀ x0 y0 x1 y1 : Int,
    let w := x1 - x0
    let h := y1 - y0
    let L := max w.natAbs h.natAbs
    let S := min w.natAbs h.natAbs
    let q := fun i : Nat => (L / 2 + i * S) / L
    (linePixels x0 y0 x1 y1).length = L + 1 ∧
    (∀ i : Nat, i ≤ L → (linePixels x0 y0 x1 y1)[i]? = some
      (if h.natAbs ≤ w.natAbs then (x0 + i * w.sign, y0 + q i * h.sign) else (x0 + q i * w.sign, y0 + i * h.sign))) ∧
    (linePixels x0 y0 x1 y1)[0]? = some (x0, y0) ∧ (linePixels x0 y0 x1 y1)[L]? = some (x1, y1)

/-- R226: every pixel of a line lies in the bounding box of its endpoints. -/
def Obligations.LineStaysInItsBoundingBox : Prop :=
  ∀ (x0 y0 x1 y1 : Int) (q : Int × Int), q ∈ linePixels x0 y0 x1 y1 →
    min x0 x1 ≤ q.1 ∧ q.1 ≤ max x0 x1 ∧ min y0 y1 ≤ q.2 ∧ q.2 ≤ max y0 y1

/-! Frames: who writes what, over all instructions. -/

/-- R22, R29, R129, R190 (MTM clobbers no register: D6, log 5): an instruction changes no general register but its
destination, whether it completes or halts. -/
def Obligations.OnlyTheDestinationRegisterChanges : Prop :=
  ∀ (i : Instr) (s t : State) (j : Fin 8), exec i s = .next t → i.dest ≠ some (BitVec.ofNat 8 j.val) → t.reg j = s.reg j

/-- R62, R70: an instruction changes no byte of main memory but the one it stores to, which the operands name; only RTM,
MTM and RTV store. -/
def Obligations.OnlyTheStoredByteChanges : Prop :=
  ∀ (i : Instr) (s t : State) (a : Nat), exec i s = .next t → storeAddress i ≠ some a → t.mem.read a = s.mem.read a

/-- R34, R186, R193 (the n of a shift names no register: D3, log 2): an instruction that names id 10 nowhere and is not
PUSH leaves the stack's bytes and its depth alone. -/
def Obligations.StackChangesOnlyThroughIdTen : Prop :=
  ∀ (i : Instr) (s t : State), exec i s = .next t →
    i.opcode ≠ .push → (∀ r, r ∈ i.sources → r ≠ 10) → i.dest ≠ some 10 → t.stk = s.stk ∧ t.depth = s.depth

/-- R25, R37, R40 to R44, R47, R66, R69, R254: who may change the state the frames above and `OnlyCmpWritesFlags` do not
speak of: the input mask nobody, the header tables LBL, the framebuffer PXL, LINE and PRT (D16, log 18), the reports those
three and only by appending (D28, log 19), the program counter JMP, JIF and MOV, the ALU latches the ALU and compare
instructions, the buses and the address-bus register the instructions named (D15, log 12), the free-value counter LSHIFT
(the model's own, log 7). The halt bit and record are as before, or a halt has set both, with a cause R251 gives the
instruction. -/
def Obligations.EachStateHasItsWriters : Prop :=
  ∀ (i : Instr) (s t : State), exec i s = .next t →
    t.input = s.input ∧
    (i.opcode ≠ .lbl → t.hdrHi = s.hdrHi ∧ t.hdrLo = s.hdrLo) ∧
    (i.opcode ∉ [Opcode.pxl, .line, .prt] → t.fb = s.fb ∧ t.reports = s.reports) ∧
    (∃ new, t.reports = s.reports ++ new) ∧
    (i.opcode ∉ [Opcode.jmp, .jif, .mov] → t.pc = s.pc) ∧
    (i.opcode ∉ [Opcode.add, .sub, .mul, .and, .or, .xor, .not, .rshift, .lshift, .cmp] →
      t.aluA = s.aluA ∧ t.aluB = s.aluB ∧ t.aluR = s.aluR) ∧
    (i.opcode ∈ [Opcode.nop, .lbl, .jmp, .jif, .gmt] → t.dbus = s.dbus) ∧
    (i.opcode ∉ [Opcode.lbl, .jmp, .jif, .mov, .mtr, .rtm, .mtm, .vtr, .rtv] → t.abus = s.abus) ∧
    (i.opcode ∉ [Opcode.lbl, .jmp, .jif, .mtr, .rtm, .mtm, .vtr, .rtv] → t.abr = s.abr) ∧
    (i.opcode ≠ .lshift → t.freeIdx = s.freeIdx) ∧
    ((t.halted = s.halted ∧ t.haltRecord = s.haltRecord) ∨
      (t.halted = true ∧ ∃ c, t.haltRecord = some c ∧ mayHaltWith i.opcode c = true))

/-- R251 (D7, D8, D12, D22, D26; logs 9, 16, 18, 19): an instruction halts only with a cause the table gives it. -/
def Obligations.HaltCausesByInstruction : Prop :=
  ∀ (i : Instr) (s t : State) (c : HaltCause), exec i s = .next t → s.haltRecord = none → t.haltRecord = some c →
    mayHaltWith i.opcode c = true

/-! Memory. -/

/-- The canonical form (log 11): two memories in it that read alike everywhere are equal data. -/
def Obligations.CanonicalMemoriesAreEqual : Prop :=
  ∀ (size : Nat) (m m' : Memory), m.wf size = true → m'.wf size = true → (∀ a, a < size → m.read a = m'.read a) → m = m'

/-! The whole machine. -/

/-- R50, R286: the invariant holds right after reset. -/
def Obligations.ResetMeetsTheInvariant : Prop := State.reset.Inv

/-- R50, R285, R286: what reset leaves, every piece of state the table gives (the record and the reports empty: D35, D28,
log 19; the stack held as a number of entries: log 10). -/
def Obligations.ResetValues : Prop :=
  ∀ s : State, ∃ r : State, s.externalReset = r ∧ r = State.reset ∧
    (∀ j : Fin 8, r.reg j = 0 ∧ r.slot j = 0) ∧ r.input = 0 ∧ r.pc = 0 ∧ r.pcHi = 0 ∧ r.pcLo = 0 ∧ r.flags = 0 ∧
    r.sp = -1 ∧ (∀ a, r.hdrHi.read a = 0 ∧ r.hdrLo.read a = 0 ∧ r.mem.read a = 0 ∧ r.fb.read a = 0) ∧
    r.dbus = 0 ∧ r.abus = 0 ∧ r.abr = 0 ∧ r.aluA = 0 ∧ r.aluB = 0 ∧ r.aluR = 0 ∧
    r.halted = false ∧ r.haltRecord = none ∧ r.reports = []

/-- HEADLINE. R28, R46, R151, R250, R252 (D1, D7, D8, D12, D22, D28; logs 9, 16, 18, 19), for every value of the
parameters of R8: from every state that meets the invariant, a step gives one that meets it: the program counter at most
65536, the flags one of four words, the memories canonical, a record exactly when halted and justified by the state, and
only out-of-range draws reported. -/
def Obligations.EveryStepKeepsTheInvariant : Prop :=
  (∀ s t : State, s.Inv → step s = .next t → t.Inv) ∧
  ∀ (p : Params) (s t : State), s.Inv → stepUnder p s = .next t → t.Inv

/-- HEADLINE. R49, R15, R43 (D15, log 12): hidden state does not matter. Two states that differ only in buses, latches,
stack bytes above `sp` and free values step to two such states: no instruction reads what another left there. -/
def Obligations.HiddenStateIsNeverRead : Prop :=
  ∀ s t s' : State, SameVisible s t → step s = .next s' → ∃ t', step t = .next t' ∧ SameVisible s' t'

/-! The host. -/

/-- R287, R288 (an image too long: D24, log 20): loading copies the bytes after the 16-byte header to address 0 up, keeps
every other byte, and is refused whole exactly when more than 65536 bytes follow the header. -/
def Obligations.LoadImageSkipsTheHeader : Prop :=
  ∀ (img : List Byte) (s : State),
    (img.length - 16 ≤ 65536 → ∃ t, loadImage img s = some t ∧ t = { s with mem := t.mem } ∧
      ∀ a, t.mem.read a = if h : a + 16 < img.length then img[a + 16] else s.mem.read a) ∧
    (65536 < img.length - 16 → loadImage img s = none)

/-- R78, R285, R289, R292 (D21, log 20): in every session a host can bring about from reset, by any order of resets, loads,
input changes, steps, snapshots, reads and ticks, the invariant holds of the core. -/
def Obligations.EveryReachableSessionMeetsTheInvariant : Prop :=
  ∀ σ : Session, σ.Reachable → σ.core.Inv

/-- HEADLINE. R78, R285, R288, R289, R292 (D21, D24, log 20), for every value of the parameters of R8: from every session
whose core meets the invariant, each host interaction that is answered gives one whose core meets it. -/
def Obligations.EveryHostStepKeepsTheInvariant : Prop :=
  (∀ (e : HostEvent) (σ τ : Session) (r : HostReply), σ.core.Inv → hostStep e σ = .next (τ, r) → τ.core.Inv) ∧
  ∀ (p : Params) (e : HostEvent) (σ τ : Session) (r : HostReply), σ.core.Inv →
    hostStepUnder p e σ = .next (τ, r) → τ.core.Inv

/-- R292: "The host may never write registers, flags, the stack, the header tables or the framebuffer directly": other
than by reset and step it changes only main memory (by a load) and the input mask; and only reset clears a halt. -/
def Obligations.HostWritesOnlyMemoryAndInput : Prop :=
  (∀ (e : HostEvent) (σ τ : Session) (r : HostReply), hostStep e σ = .next (τ, r) → e ≠ .reset → e ≠ .step →
    τ.core = { σ.core with mem := τ.core.mem, input := τ.core.input } ∧
    ((∀ img, e ≠ .load img) → τ.core.mem = σ.core.mem) ∧
    ((∀ mask, e ≠ .setInput mask) → τ.core.input = σ.core.input)) ∧
  ∀ (e : HostEvent) (σ τ : Session) (r : HostReply), hostStep e σ = .next (τ, r) → σ.core.halted = true → e ≠ .reset →
    τ.core.halted = true ∧ τ.core.haltRecord = σ.core.haltRecord
end

