-- ==== Sys2Proof/Laws/Bits.lean ====
section
/-! SUPPORT. Byte order, and the compare as a function of the two operands. -/

namespace Sys2Proof.Machine

@[simp] theorem cat_toNat (hi lo : Byte) : (cat hi lo).toNat = hi.toNat * 256 + lo.toNat := by
  have h1 := hi.isLt
  have h2 := lo.isLt
  simp only [cat, BitVec.toNat_append, Nat.shiftLeft_eq]
  rw [← Nat.shiftLeft_eq, ← Nat.shiftLeft_add_eq_or_of_lt (by simpa using h2), Nat.shiftLeft_eq]

@[simp] theorem hiByte_cat (hi lo : Byte) : hiByte (cat hi lo) = hi := by
  apply BitVec.eq_of_toNat_eq
  have h1 := hi.isLt
  have h2 := lo.isLt
  simp only [hiByte, BitVec.extractLsb'_toNat, cat_toNat, Nat.shiftRight_eq_div_pow]
  omega

@[simp] theorem loByte_cat (hi lo : Byte) : loByte (cat hi lo) = lo := by
  apply BitVec.eq_of_toNat_eq
  have h1 := hi.isLt
  have h2 := lo.isLt
  simp only [loByte, BitVec.extractLsb'_toNat, cat_toNat, Nat.shiftRight_eq_div_pow]
  omega

/-- The address of a variable slot: 65535 minus the id, never below 0xFF00 (20_memory.md R67). -/
@[simp] theorem variable_toNat (v : Byte) : ((0xFFFF : Word) - zext16 v).toNat = 65535 - v.toNat := by
  have h := v.isLt
  rw [BitVec.toNat_sub_of_le]
  · simp [zext16]
    omega
  · rw [BitVec.le_def]
    simp [zext16]
    omega

theorem byteVal_injective (signed : Bool) {a b : Byte} (h : byteVal signed a = byteVal signed b) : a = b := by
  apply BitVec.eq_of_toNat_eq
  have h1 := a.isLt
  have h2 := b.isLt
  cases signed
  · simpa [byteVal] using h
  · simp only [byteVal, if_true, signed8] at h
    split at h <;> split at h <;> omega

/-- Exactly one of equal, greater, less holds. -/
theorem cmpVal_trichotomy (p : Params) (a b : Byte) :
    (cmpVal p a = cmpVal p b ∧ aluCompare p a b = 0x19) ∨ (cmpVal p a > cmpVal p b ∧ aluCompare p a b = 0x2A) ∨
      (cmpVal p a < cmpVal p b ∧ aluCompare p a b = 0x34) := by
  rcases lt_trichotomy (cmpVal p a) (cmpVal p b) with h | h | h
  · right; right
    refine ⟨h, ?_⟩
    have e1 : ¬ cmpVal p a = cmpVal p b := by omega
    have e2 : ¬ cmpVal p a > cmpVal p b := by omega
    have e3 : ¬ cmpVal p a ≥ cmpVal p b := by omega
    have e4 : cmpVal p a ≤ cmpVal p b := by omega
    simp [aluCompare, aluEq, aluGt, aluLt, aluGe, aluLe, bit, h, e1, e2, e3, e4]
  · left
    refine ⟨h, ?_⟩
    simp [aluCompare, aluEq, aluGt, aluLt, aluGe, aluLe, bit, h]
  · right; left
    refine ⟨h, ?_⟩
    have e1 : ¬ cmpVal p a = cmpVal p b := by omega
    have e2 : ¬ cmpVal p a < cmpVal p b := by omega
    have e3 : ¬ cmpVal p a ≤ cmpVal p b := by omega
    have e4 : cmpVal p a ≥ cmpVal p b := by omega
    have e5 : cmpVal p a > cmpVal p b := h
    simp [aluCompare, aluEq, aluGt, aluLt, aluGe, aluLe, bit, e1, e2, e3, e4, e5]

/-- The flag word is one of three. -/
theorem aluCompare_words (p : Params) (a b : Byte) :
    aluCompare p a b = 0x19 ∨ aluCompare p a b = 0x2A ∨ aluCompare p a b = 0x34 := by
  rcases cmpVal_trichotomy p a b with h | h | h
  · exact .inl h.2
  · exact .inr (.inl h.2)
  · exact .inr (.inr h.2)

end Sys2Proof.Machine
end

