-- ==== Sys2Proof/Laws/Codec.lean ====
section
/-! SUPPORT. The opcode table and the decoder. -/

namespace Sys2Proof

/-- Every opcode is in the table. -/
theorem Opcode.mem_all (o : Opcode) : o ∈ Opcode.all := by
  cases o <;> decide

/-- No two rows of R97 share an opcode byte. -/
theorem Opcode.toByte_injective {o o' : Opcode} (h : o.toByte = o'.toByte) : o = o' := by
  revert h
  cases o <;> cases o' <;> decide

/-- An opcode's own byte decodes to it. -/
@[simp] theorem Opcode.ofByte_toByte (o : Opcode) : Opcode.ofByte o.toByte = some o := by
  cases o <;> decide

/-- What a byte decodes to has that byte. -/
theorem Opcode.toByte_of_ofByte {b : Byte} {o : Opcode} (h : Opcode.ofByte b = some o) : o.toByte = b := by
  have := List.find?_some h
  simpa using this

theorem Opcode.ofByte_eq_some_iff {b : Byte} {o : Opcode} : Opcode.ofByte b = some o ↔ o.toByte = b :=
  ⟨Opcode.toByte_of_ofByte, fun h => h ▸ Opcode.ofByte_toByte o⟩

@[simp] theorem operandAt_cons_zero (b : Byte) (bs : List Byte) : operandAt (b :: bs) 0 = b := rfl

@[simp] theorem operandAt_cons_succ (b : Byte) (bs : List Byte) (j : Nat) :
    operandAt (b :: bs) (j + 1) = operandAt bs j := by
  simp [operandAt]

/-- An instruction is its opcode and its operand bytes. -/
@[simp] theorem Opcode.build_operands (i : Instr) : i.opcode.build i.operands = i := by
  cases i <;> rfl

/-- Building gives the opcode back. -/
@[simp] theorem Opcode.opcode_build (o : Opcode) (bs : List Byte) : (o.build bs).opcode = o := by
  cases o <;> rfl

/-- An instruction has as many operand bytes as its opcode declares (R94). -/
@[simp] theorem Instr.length_operands (i : Instr) : i.operands.length = i.opcode.operandCount := by
  cases i <;> rfl

/-- The bytes fetched are the operands of the instruction built from them. -/
theorem Opcode.operands_build {o : Opcode} {bs : List Byte} (h : bs.length = o.operandCount) :
    (o.build bs).operands = bs := by
  cases o <;> simp only [Opcode.operandCount] at h <;>
    first
    | (obtain rfl := List.length_eq_zero_iff.mp h; rfl)
    | (obtain ⟨a, rfl⟩ := List.length_eq_one_iff.mp h; rfl)
    | (obtain ⟨a, b, rfl⟩ := List.length_eq_two.mp h; rfl)
    | (obtain ⟨a, b, c, rfl⟩ := List.length_eq_three.mp h; rfl)
    | (match bs, h with
      | [a, b, c, d], _ => rfl)
    | (match bs, h with
      | [a, b, c, d, e], _ => rfl)

/-- The decoder in one equation. -/
theorem decode_cons (op : Byte) (rest : List Byte) :
    decode (op :: rest) =
      match Opcode.ofByte op with
      | none => .error (.unknownOpcode op)
      | some o =>
        if o.operandCount ≤ rest.length then
          .ok (o.build (rest.take o.operandCount), rest.drop o.operandCount)
        else .error .truncated := rfl

end Sys2Proof
end

