-- ==== Sys2Proof/Laws/Memory.lean ====
section
/-! SUPPORT. The laws of a memory: read after write, the canonical form, and that equal reads mean equal data. -/

namespace Sys2Proof.Machine

@[simp] theorem Memory.read_nil (a : Nat) : Memory.read [] a = 0 := rfl

theorem Memory.read_erase (m : Memory) (a b : Nat) : (m.erase a).read b = if a = b then 0 else m.read b := by
  induction m with
  | nil => simp [Memory.erase]
  | cons c rest ih =>
    obtain ⟨k, w⟩ := c
    by_cases hk : k = a
    · subst hk
      by_cases hb : k = b <;> simp_all [Memory.erase, Memory.read]
    · by_cases hb : k = b
      · subst hb
        simp [Memory.erase, Memory.read, hk, Ne.symm hk]
      · simp [Memory.erase, Memory.read, hk, hb, ih]

theorem Memory.read_insert (m : Memory) (a b : Nat) (v : Byte) (hm : m.read a = 0) (h : ∀ c ∈ m, c.1 ≠ a) :
    (m.insert a v).read b = if a = b then v else m.read b := by
  induction m with
  | nil => simp [Memory.insert, Memory.read]
  | cons c rest ih =>
    obtain ⟨k, w⟩ := c
    have hk : k ≠ a := h (k, w) (by simp)
    have hrest : ∀ c ∈ rest, c.1 ≠ a := fun c hc => h c (by simp [hc])
    by_cases hle : a ≤ k
    · simp [Memory.insert, Memory.read, hle]
    · have hread : Memory.read rest a = 0 := by simpa [Memory.read, hk] using hm
      by_cases hb : k = b
      · subst hb
        simp [Memory.insert, Memory.read, hle, Ne.symm hk]
      · simp [Memory.insert, Memory.read, hle, hb, ih hread hrest]

theorem Memory.erase_ne (m : Memory) (a : Nat) : ∀ c ∈ m.erase a, c.1 ≠ a := by
  induction m with
  | nil => simp [Memory.erase]
  | cons c rest ih =>
    obtain ⟨k, w⟩ := c
    by_cases hk : k = a
    · simpa [Memory.erase, hk] using ih
    · simp only [Memory.erase, hk, if_false, List.mem_cons, forall_eq_or_imp]
      exact ⟨hk, ih⟩

/-- Read after write, at every address and for every memory. -/
theorem Memory.read_write (m : Memory) (a b : Nat) (v : Byte) :
    (m.write a v).read b = if a = b then v else m.read b := by
  unfold Memory.write
  by_cases hv : v = 0
  · simp [hv, Memory.read_erase]
  · rw [if_neg hv, Memory.read_insert _ _ _ _ (by simp [Memory.read_erase]) (Memory.erase_ne m a)]
    by_cases hab : a = b <;> simp [hab, Memory.read_erase]

/-- `Memory.read_write` with the address read on the left. -/
theorem Memory.read_write' (m : Memory) (a b : Nat) (v : Byte) :
    (m.write a v).read b = if b = a then v else m.read b := by
  rw [Memory.read_write]
  by_cases h : a = b
  · rw [if_pos h, if_pos h.symm]
  · rw [if_neg h, if_neg (Ne.symm h)]

@[simp] theorem Memory.read_write_self (m : Memory) (a : Nat) (v : Byte) : (m.write a v).read a = v := by
  simp [Memory.read_write]

theorem Memory.read_write_of_ne (m : Memory) {a b : Nat} (v : Byte) (h : a ≠ b) : (m.write a v).read b = m.read b := by
  simp [Memory.read_write, h]

theorem Memory.read_writeBytes_of_lt (m : Memory) (bs : List Byte) (a b : Nat) (h : b < a) :
    (m.writeBytes a bs).read b = m.read b := by
  induction bs generalizing m a with
  | nil => rfl
  | cons v rest ih =>
    rw [Memory.writeBytes, ih _ _ (by omega), Memory.read_write_of_ne _ _ (by omega)]

/-- Writing consecutive bytes: those bytes there, everything else as before. -/
theorem Memory.read_writeBytes (m : Memory) (bs : List Byte) (a b : Nat) :
    (m.writeBytes a bs).read b = if a ≤ b ∧ b < a + bs.length then bs.getD (b - a) 0 else m.read b := by
  induction bs generalizing m a with
  | nil => simp [Memory.writeBytes]
  | cons v rest ih =>
    rw [Memory.writeBytes]
    by_cases hb : b = a
    · subst hb
      rw [Memory.read_writeBytes_of_lt _ _ _ _ (by omega)]
      simp
    · rw [ih, Memory.read_write_of_ne _ _ (Ne.symm hb)]
      by_cases hin : a + 1 ≤ b ∧ b < a + 1 + rest.length
      · have : b - a = (b - (a + 1)) + 1 := by omega
        rw [if_pos hin, if_pos (by simp only [List.length_cons]; omega), this, List.getD_cons_succ]
      · rw [if_neg hin, if_neg (by simp only [List.length_cons]; omega)]

/-! The canonical form. -/

theorem Memory.wfFrom_mono {size lo lo' : Nat} {m : Memory} (h : Memory.wfFrom size lo m = true) (hl : lo' ≤ lo) :
    Memory.wfFrom size lo' m = true := by
  cases m with
  | nil => rfl
  | cons c rest =>
    simp only [Memory.wfFrom, Bool.and_eq_true, decide_eq_true_eq] at h ⊢
    exact ⟨⟨⟨le_trans hl h.1.1.1, h.1.1.2⟩, h.1.2⟩, h.2⟩

theorem Memory.wfFrom_erase {size lo : Nat} {m : Memory} (h : Memory.wfFrom size lo m = true) (a : Nat) :
    Memory.wfFrom size lo (m.erase a) = true := by
  induction m generalizing lo with
  | nil => rfl
  | cons c rest ih =>
    obtain ⟨k, w⟩ := c
    simp only [Memory.wfFrom, Bool.and_eq_true, decide_eq_true_eq] at h
    by_cases hk : k = a
    · simp only [Memory.erase, hk, if_true]
      exact Memory.wfFrom_mono (ih h.2) (by omega)
    · simp only [Memory.erase, hk, if_false, Memory.wfFrom, Bool.and_eq_true, decide_eq_true_eq]
      exact ⟨h.1, ih h.2⟩

theorem Memory.wfFrom_insert {size lo : Nat} {m : Memory} {a : Nat} {v : Byte} (h : Memory.wfFrom size lo m = true)
    (hne : ∀ c ∈ m, c.1 ≠ a) (hlo : lo ≤ a) (ha : a < size) (hv : v ≠ 0) :
    Memory.wfFrom size lo (m.insert a v) = true := by
  induction m generalizing lo with
  | nil => simpa [Memory.insert, Memory.wfFrom, hlo, ha] using hv
  | cons c rest ih =>
    obtain ⟨k, w⟩ := c
    have hk : k ≠ a := hne (k, w) (by simp)
    have hrest : ∀ c ∈ rest, c.1 ≠ a := fun c hc => hne c (by simp [hc])
    simp only [Memory.wfFrom, Bool.and_eq_true, decide_eq_true_eq] at h
    by_cases hle : a ≤ k
    · simp only [Memory.insert, hle, if_true, Memory.wfFrom, Bool.and_eq_true, decide_eq_true_eq]
      exact ⟨⟨⟨hlo, ha⟩, hv⟩, ⟨⟨by omega, h.1.1.2⟩, h.1.2⟩, h.2⟩
    · simp only [Memory.insert, hle, if_false, Memory.wfFrom, Bool.and_eq_true, decide_eq_true_eq]
      exact ⟨h.1, ih h.2 hrest (by omega)⟩

theorem Memory.wf_nil (size : Nat) : Memory.wf size [] = true := rfl

/-- A write inside the memory keeps the canonical form. -/
theorem Memory.wf_write {size : Nat} {m : Memory} (h : m.wf size = true) {a : Nat} (ha : a < size) (v : Byte) :
    (m.write a v).wf size = true := by
  unfold Memory.write Memory.wf at *
  by_cases hv : v = 0
  · simpa [hv] using Memory.wfFrom_erase h a
  · rw [if_neg hv]
    exact Memory.wfFrom_insert (Memory.wfFrom_erase h a) (Memory.erase_ne m a) (by omega) ha hv

/-- Erasing keeps the canonical form. -/
theorem Memory.wf_erase {size : Nat} {m : Memory} (h : m.wf size = true) (a : Nat) : (m.erase a).wf size = true :=
  Memory.wfFrom_erase h a

theorem Memory.wf_writeBytes {size : Nat} {m : Memory} (h : m.wf size = true) {a : Nat} {bs : List Byte}
    (ha : a + bs.length ≤ size) : (m.writeBytes a bs).wf size = true := by
  induction bs generalizing m a with
  | nil => exact h
  | cons v rest ih =>
    simp only [List.length_cons] at ha
    exact ih (Memory.wf_write h (by omega) v) (by omega)

theorem Memory.read_of_wfFrom_lt {size lo : Nat} {m : Memory} (h : Memory.wfFrom size lo m = true) {a : Nat}
    (ha : a < lo) : m.read a = 0 := by
  induction m generalizing lo with
  | nil => rfl
  | cons c rest ih =>
    obtain ⟨k, w⟩ := c
    simp only [Memory.wfFrom, Bool.and_eq_true, decide_eq_true_eq] at h
    rw [Memory.read, if_neg (by omega)]
    exact ih h.2 (by omega)

/-- An address past the end of a canonical memory reads as 0. -/
theorem Memory.read_of_wfFrom_size {size lo : Nat} {m : Memory} (h : Memory.wfFrom size lo m = true) {a : Nat}
    (ha : size ≤ a) : m.read a = 0 := by
  induction m generalizing lo with
  | nil => rfl
  | cons c rest ih =>
    obtain ⟨k, w⟩ := c
    simp only [Memory.wfFrom, Bool.and_eq_true, decide_eq_true_eq] at h
    rw [Memory.read, if_neg (by omega)]
    exact ih h.2

/-- The head of a canonical memory is its lowest non-zero address. -/
theorem Memory.wfFrom_cons {size lo k : Nat} {w : Byte} {rest : Memory}
    (h : Memory.wfFrom size lo ((k, w) :: rest) = true) :
    lo ≤ k ∧ k < size ∧ w ≠ 0 ∧ Memory.wfFrom size (k + 1) rest = true := by
  simp only [Memory.wfFrom, Bool.and_eq_true, decide_eq_true_eq] at h
  exact ⟨h.1.1.1, h.1.1.2, h.1.2, h.2⟩

end Sys2Proof.Machine
end

