-- ==== Sys2Proof/Laws/State.lean ====
section
/-! SUPPORT. One lemma per field of State per named update of it, all true by `rfl`. -/

namespace Sys2Proof.Machine

/-! setReg -/

@[simp] theorem State.setReg_x (s : State) (i : Fin 8) (v : Byte) : (s.setReg i v).x = s.x.set i v := rfl
@[simp] theorem State.setReg_input (s : State) (i : Fin 8) (v : Byte) : (s.setReg i v).input = s.input := rfl
@[simp] theorem State.setReg_pc (s : State) (i : Fin 8) (v : Byte) : (s.setReg i v).pc = s.pc := rfl
@[simp] theorem State.setReg_flags (s : State) (i : Fin 8) (v : Byte) : (s.setReg i v).flags = s.flags := rfl
@[simp] theorem State.setReg_stk (s : State) (i : Fin 8) (v : Byte) : (s.setReg i v).stk = s.stk := rfl
@[simp] theorem State.setReg_depth (s : State) (i : Fin 8) (v : Byte) : (s.setReg i v).depth = s.depth := rfl
@[simp] theorem State.setReg_hdrHi (s : State) (i : Fin 8) (v : Byte) : (s.setReg i v).hdrHi = s.hdrHi := rfl
@[simp] theorem State.setReg_hdrLo (s : State) (i : Fin 8) (v : Byte) : (s.setReg i v).hdrLo = s.hdrLo := rfl
@[simp] theorem State.setReg_mem (s : State) (i : Fin 8) (v : Byte) : (s.setReg i v).mem = s.mem := rfl
@[simp] theorem State.setReg_fb (s : State) (i : Fin 8) (v : Byte) : (s.setReg i v).fb = s.fb := rfl
@[simp] theorem State.setReg_dbus (s : State) (i : Fin 8) (v : Byte) : (s.setReg i v).dbus = s.dbus := rfl
@[simp] theorem State.setReg_abus (s : State) (i : Fin 8) (v : Byte) : (s.setReg i v).abus = s.abus := rfl
@[simp] theorem State.setReg_abr (s : State) (i : Fin 8) (v : Byte) : (s.setReg i v).abr = s.abr := rfl
@[simp] theorem State.setReg_aluA (s : State) (i : Fin 8) (v : Byte) : (s.setReg i v).aluA = s.aluA := rfl
@[simp] theorem State.setReg_aluB (s : State) (i : Fin 8) (v : Byte) : (s.setReg i v).aluB = s.aluB := rfl
@[simp] theorem State.setReg_aluR (s : State) (i : Fin 8) (v : Byte) : (s.setReg i v).aluR = s.aluR := rfl
@[simp] theorem State.setReg_halted (s : State) (i : Fin 8) (v : Byte) : (s.setReg i v).halted = s.halted := rfl
@[simp] theorem State.setReg_haltRecord (s : State) (i : Fin 8) (v : Byte) : (s.setReg i v).haltRecord = s.haltRecord := rfl
@[simp] theorem State.setReg_reports (s : State) (i : Fin 8) (v : Byte) : (s.setReg i v).reports = s.reports := rfl
@[simp] theorem State.setReg_freeIdx (s : State) (i : Fin 8) (v : Byte) : (s.setReg i v).freeIdx = s.freeIdx := rfl

/-! setInput -/

@[simp] theorem State.setInput_x (s : State) (v : Byte) : (s.setInput v).x = s.x := rfl
@[simp] theorem State.setInput_input (s : State) (v : Byte) : (s.setInput v).input = v := rfl
@[simp] theorem State.setInput_pc (s : State) (v : Byte) : (s.setInput v).pc = s.pc := rfl
@[simp] theorem State.setInput_flags (s : State) (v : Byte) : (s.setInput v).flags = s.flags := rfl
@[simp] theorem State.setInput_stk (s : State) (v : Byte) : (s.setInput v).stk = s.stk := rfl
@[simp] theorem State.setInput_depth (s : State) (v : Byte) : (s.setInput v).depth = s.depth := rfl
@[simp] theorem State.setInput_hdrHi (s : State) (v : Byte) : (s.setInput v).hdrHi = s.hdrHi := rfl
@[simp] theorem State.setInput_hdrLo (s : State) (v : Byte) : (s.setInput v).hdrLo = s.hdrLo := rfl
@[simp] theorem State.setInput_mem (s : State) (v : Byte) : (s.setInput v).mem = s.mem := rfl
@[simp] theorem State.setInput_fb (s : State) (v : Byte) : (s.setInput v).fb = s.fb := rfl
@[simp] theorem State.setInput_dbus (s : State) (v : Byte) : (s.setInput v).dbus = s.dbus := rfl
@[simp] theorem State.setInput_abus (s : State) (v : Byte) : (s.setInput v).abus = s.abus := rfl
@[simp] theorem State.setInput_abr (s : State) (v : Byte) : (s.setInput v).abr = s.abr := rfl
@[simp] theorem State.setInput_aluA (s : State) (v : Byte) : (s.setInput v).aluA = s.aluA := rfl
@[simp] theorem State.setInput_aluB (s : State) (v : Byte) : (s.setInput v).aluB = s.aluB := rfl
@[simp] theorem State.setInput_aluR (s : State) (v : Byte) : (s.setInput v).aluR = s.aluR := rfl
@[simp] theorem State.setInput_halted (s : State) (v : Byte) : (s.setInput v).halted = s.halted := rfl
@[simp] theorem State.setInput_haltRecord (s : State) (v : Byte) : (s.setInput v).haltRecord = s.haltRecord := rfl
@[simp] theorem State.setInput_reports (s : State) (v : Byte) : (s.setInput v).reports = s.reports := rfl
@[simp] theorem State.setInput_freeIdx (s : State) (v : Byte) : (s.setInput v).freeIdx = s.freeIdx := rfl

/-! setPc -/

@[simp] theorem State.setPc_x (s : State) (n : Nat) : (s.setPc n).x = s.x := rfl
@[simp] theorem State.setPc_input (s : State) (n : Nat) : (s.setPc n).input = s.input := rfl
@[simp] theorem State.setPc_pc (s : State) (n : Nat) : (s.setPc n).pc = n := rfl
@[simp] theorem State.setPc_flags (s : State) (n : Nat) : (s.setPc n).flags = s.flags := rfl
@[simp] theorem State.setPc_stk (s : State) (n : Nat) : (s.setPc n).stk = s.stk := rfl
@[simp] theorem State.setPc_depth (s : State) (n : Nat) : (s.setPc n).depth = s.depth := rfl
@[simp] theorem State.setPc_hdrHi (s : State) (n : Nat) : (s.setPc n).hdrHi = s.hdrHi := rfl
@[simp] theorem State.setPc_hdrLo (s : State) (n : Nat) : (s.setPc n).hdrLo = s.hdrLo := rfl
@[simp] theorem State.setPc_mem (s : State) (n : Nat) : (s.setPc n).mem = s.mem := rfl
@[simp] theorem State.setPc_fb (s : State) (n : Nat) : (s.setPc n).fb = s.fb := rfl
@[simp] theorem State.setPc_dbus (s : State) (n : Nat) : (s.setPc n).dbus = s.dbus := rfl
@[simp] theorem State.setPc_abus (s : State) (n : Nat) : (s.setPc n).abus = s.abus := rfl
@[simp] theorem State.setPc_abr (s : State) (n : Nat) : (s.setPc n).abr = s.abr := rfl
@[simp] theorem State.setPc_aluA (s : State) (n : Nat) : (s.setPc n).aluA = s.aluA := rfl
@[simp] theorem State.setPc_aluB (s : State) (n : Nat) : (s.setPc n).aluB = s.aluB := rfl
@[simp] theorem State.setPc_aluR (s : State) (n : Nat) : (s.setPc n).aluR = s.aluR := rfl
@[simp] theorem State.setPc_halted (s : State) (n : Nat) : (s.setPc n).halted = s.halted := rfl
@[simp] theorem State.setPc_haltRecord (s : State) (n : Nat) : (s.setPc n).haltRecord = s.haltRecord := rfl
@[simp] theorem State.setPc_reports (s : State) (n : Nat) : (s.setPc n).reports = s.reports := rfl
@[simp] theorem State.setPc_freeIdx (s : State) (n : Nat) : (s.setPc n).freeIdx = s.freeIdx := rfl

/-! setFlags -/

@[simp] theorem State.setFlags_x (s : State) (v : Byte) : (s.setFlags v).x = s.x := rfl
@[simp] theorem State.setFlags_input (s : State) (v : Byte) : (s.setFlags v).input = s.input := rfl
@[simp] theorem State.setFlags_pc (s : State) (v : Byte) : (s.setFlags v).pc = s.pc := rfl
@[simp] theorem State.setFlags_flags (s : State) (v : Byte) : (s.setFlags v).flags = v := rfl
@[simp] theorem State.setFlags_stk (s : State) (v : Byte) : (s.setFlags v).stk = s.stk := rfl
@[simp] theorem State.setFlags_depth (s : State) (v : Byte) : (s.setFlags v).depth = s.depth := rfl
@[simp] theorem State.setFlags_hdrHi (s : State) (v : Byte) : (s.setFlags v).hdrHi = s.hdrHi := rfl
@[simp] theorem State.setFlags_hdrLo (s : State) (v : Byte) : (s.setFlags v).hdrLo = s.hdrLo := rfl
@[simp] theorem State.setFlags_mem (s : State) (v : Byte) : (s.setFlags v).mem = s.mem := rfl
@[simp] theorem State.setFlags_fb (s : State) (v : Byte) : (s.setFlags v).fb = s.fb := rfl
@[simp] theorem State.setFlags_dbus (s : State) (v : Byte) : (s.setFlags v).dbus = s.dbus := rfl
@[simp] theorem State.setFlags_abus (s : State) (v : Byte) : (s.setFlags v).abus = s.abus := rfl
@[simp] theorem State.setFlags_abr (s : State) (v : Byte) : (s.setFlags v).abr = s.abr := rfl
@[simp] theorem State.setFlags_aluA (s : State) (v : Byte) : (s.setFlags v).aluA = s.aluA := rfl
@[simp] theorem State.setFlags_aluB (s : State) (v : Byte) : (s.setFlags v).aluB = s.aluB := rfl
@[simp] theorem State.setFlags_aluR (s : State) (v : Byte) : (s.setFlags v).aluR = s.aluR := rfl
@[simp] theorem State.setFlags_halted (s : State) (v : Byte) : (s.setFlags v).halted = s.halted := rfl
@[simp] theorem State.setFlags_haltRecord (s : State) (v : Byte) : (s.setFlags v).haltRecord = s.haltRecord := rfl
@[simp] theorem State.setFlags_reports (s : State) (v : Byte) : (s.setFlags v).reports = s.reports := rfl
@[simp] theorem State.setFlags_freeIdx (s : State) (v : Byte) : (s.setFlags v).freeIdx = s.freeIdx := rfl

/-! setSlot -/

@[simp] theorem State.setSlot_x (s : State) (i : Fin 8) (v : Byte) : (s.setSlot i v).x = s.x := rfl
@[simp] theorem State.setSlot_input (s : State) (i : Fin 8) (v : Byte) : (s.setSlot i v).input = s.input := rfl
@[simp] theorem State.setSlot_pc (s : State) (i : Fin 8) (v : Byte) : (s.setSlot i v).pc = s.pc := rfl
@[simp] theorem State.setSlot_flags (s : State) (i : Fin 8) (v : Byte) : (s.setSlot i v).flags = s.flags := rfl
@[simp] theorem State.setSlot_stk (s : State) (i : Fin 8) (v : Byte) : (s.setSlot i v).stk = s.stk.set i v := rfl
@[simp] theorem State.setSlot_depth (s : State) (i : Fin 8) (v : Byte) : (s.setSlot i v).depth = s.depth := rfl
@[simp] theorem State.setSlot_hdrHi (s : State) (i : Fin 8) (v : Byte) : (s.setSlot i v).hdrHi = s.hdrHi := rfl
@[simp] theorem State.setSlot_hdrLo (s : State) (i : Fin 8) (v : Byte) : (s.setSlot i v).hdrLo = s.hdrLo := rfl
@[simp] theorem State.setSlot_mem (s : State) (i : Fin 8) (v : Byte) : (s.setSlot i v).mem = s.mem := rfl
@[simp] theorem State.setSlot_fb (s : State) (i : Fin 8) (v : Byte) : (s.setSlot i v).fb = s.fb := rfl
@[simp] theorem State.setSlot_dbus (s : State) (i : Fin 8) (v : Byte) : (s.setSlot i v).dbus = s.dbus := rfl
@[simp] theorem State.setSlot_abus (s : State) (i : Fin 8) (v : Byte) : (s.setSlot i v).abus = s.abus := rfl
@[simp] theorem State.setSlot_abr (s : State) (i : Fin 8) (v : Byte) : (s.setSlot i v).abr = s.abr := rfl
@[simp] theorem State.setSlot_aluA (s : State) (i : Fin 8) (v : Byte) : (s.setSlot i v).aluA = s.aluA := rfl
@[simp] theorem State.setSlot_aluB (s : State) (i : Fin 8) (v : Byte) : (s.setSlot i v).aluB = s.aluB := rfl
@[simp] theorem State.setSlot_aluR (s : State) (i : Fin 8) (v : Byte) : (s.setSlot i v).aluR = s.aluR := rfl
@[simp] theorem State.setSlot_halted (s : State) (i : Fin 8) (v : Byte) : (s.setSlot i v).halted = s.halted := rfl
@[simp] theorem State.setSlot_haltRecord (s : State) (i : Fin 8) (v : Byte) : (s.setSlot i v).haltRecord = s.haltRecord := rfl
@[simp] theorem State.setSlot_reports (s : State) (i : Fin 8) (v : Byte) : (s.setSlot i v).reports = s.reports := rfl
@[simp] theorem State.setSlot_freeIdx (s : State) (i : Fin 8) (v : Byte) : (s.setSlot i v).freeIdx = s.freeIdx := rfl

/-! setDepth -/

@[simp] theorem State.setDepth_x (s : State) (d : Fin 9) : (s.setDepth d).x = s.x := rfl
@[simp] theorem State.setDepth_input (s : State) (d : Fin 9) : (s.setDepth d).input = s.input := rfl
@[simp] theorem State.setDepth_pc (s : State) (d : Fin 9) : (s.setDepth d).pc = s.pc := rfl
@[simp] theorem State.setDepth_flags (s : State) (d : Fin 9) : (s.setDepth d).flags = s.flags := rfl
@[simp] theorem State.setDepth_stk (s : State) (d : Fin 9) : (s.setDepth d).stk = s.stk := rfl
@[simp] theorem State.setDepth_depth (s : State) (d : Fin 9) : (s.setDepth d).depth = d := rfl
@[simp] theorem State.setDepth_hdrHi (s : State) (d : Fin 9) : (s.setDepth d).hdrHi = s.hdrHi := rfl
@[simp] theorem State.setDepth_hdrLo (s : State) (d : Fin 9) : (s.setDepth d).hdrLo = s.hdrLo := rfl
@[simp] theorem State.setDepth_mem (s : State) (d : Fin 9) : (s.setDepth d).mem = s.mem := rfl
@[simp] theorem State.setDepth_fb (s : State) (d : Fin 9) : (s.setDepth d).fb = s.fb := rfl
@[simp] theorem State.setDepth_dbus (s : State) (d : Fin 9) : (s.setDepth d).dbus = s.dbus := rfl
@[simp] theorem State.setDepth_abus (s : State) (d : Fin 9) : (s.setDepth d).abus = s.abus := rfl
@[simp] theorem State.setDepth_abr (s : State) (d : Fin 9) : (s.setDepth d).abr = s.abr := rfl
@[simp] theorem State.setDepth_aluA (s : State) (d : Fin 9) : (s.setDepth d).aluA = s.aluA := rfl
@[simp] theorem State.setDepth_aluB (s : State) (d : Fin 9) : (s.setDepth d).aluB = s.aluB := rfl
@[simp] theorem State.setDepth_aluR (s : State) (d : Fin 9) : (s.setDepth d).aluR = s.aluR := rfl
@[simp] theorem State.setDepth_halted (s : State) (d : Fin 9) : (s.setDepth d).halted = s.halted := rfl
@[simp] theorem State.setDepth_haltRecord (s : State) (d : Fin 9) : (s.setDepth d).haltRecord = s.haltRecord := rfl
@[simp] theorem State.setDepth_reports (s : State) (d : Fin 9) : (s.setDepth d).reports = s.reports := rfl
@[simp] theorem State.setDepth_freeIdx (s : State) (d : Fin 9) : (s.setDepth d).freeIdx = s.freeIdx := rfl

/-! setHdr -/

@[simp] theorem State.setHdr_x (s : State) (hi lo : Memory) : (s.setHdr hi lo).x = s.x := rfl
@[simp] theorem State.setHdr_input (s : State) (hi lo : Memory) : (s.setHdr hi lo).input = s.input := rfl
@[simp] theorem State.setHdr_pc (s : State) (hi lo : Memory) : (s.setHdr hi lo).pc = s.pc := rfl
@[simp] theorem State.setHdr_flags (s : State) (hi lo : Memory) : (s.setHdr hi lo).flags = s.flags := rfl
@[simp] theorem State.setHdr_stk (s : State) (hi lo : Memory) : (s.setHdr hi lo).stk = s.stk := rfl
@[simp] theorem State.setHdr_depth (s : State) (hi lo : Memory) : (s.setHdr hi lo).depth = s.depth := rfl
@[simp] theorem State.setHdr_hdrHi (s : State) (hi lo : Memory) : (s.setHdr hi lo).hdrHi = hi := rfl
@[simp] theorem State.setHdr_hdrLo (s : State) (hi lo : Memory) : (s.setHdr hi lo).hdrLo = lo := rfl
@[simp] theorem State.setHdr_mem (s : State) (hi lo : Memory) : (s.setHdr hi lo).mem = s.mem := rfl
@[simp] theorem State.setHdr_fb (s : State) (hi lo : Memory) : (s.setHdr hi lo).fb = s.fb := rfl
@[simp] theorem State.setHdr_dbus (s : State) (hi lo : Memory) : (s.setHdr hi lo).dbus = s.dbus := rfl
@[simp] theorem State.setHdr_abus (s : State) (hi lo : Memory) : (s.setHdr hi lo).abus = s.abus := rfl
@[simp] theorem State.setHdr_abr (s : State) (hi lo : Memory) : (s.setHdr hi lo).abr = s.abr := rfl
@[simp] theorem State.setHdr_aluA (s : State) (hi lo : Memory) : (s.setHdr hi lo).aluA = s.aluA := rfl
@[simp] theorem State.setHdr_aluB (s : State) (hi lo : Memory) : (s.setHdr hi lo).aluB = s.aluB := rfl
@[simp] theorem State.setHdr_aluR (s : State) (hi lo : Memory) : (s.setHdr hi lo).aluR = s.aluR := rfl
@[simp] theorem State.setHdr_halted (s : State) (hi lo : Memory) : (s.setHdr hi lo).halted = s.halted := rfl
@[simp] theorem State.setHdr_haltRecord (s : State) (hi lo : Memory) : (s.setHdr hi lo).haltRecord = s.haltRecord := rfl
@[simp] theorem State.setHdr_reports (s : State) (hi lo : Memory) : (s.setHdr hi lo).reports = s.reports := rfl
@[simp] theorem State.setHdr_freeIdx (s : State) (hi lo : Memory) : (s.setHdr hi lo).freeIdx = s.freeIdx := rfl

/-! setMem -/

@[simp] theorem State.setMem_x (s : State) (m : Memory) : (s.setMem m).x = s.x := rfl
@[simp] theorem State.setMem_input (s : State) (m : Memory) : (s.setMem m).input = s.input := rfl
@[simp] theorem State.setMem_pc (s : State) (m : Memory) : (s.setMem m).pc = s.pc := rfl
@[simp] theorem State.setMem_flags (s : State) (m : Memory) : (s.setMem m).flags = s.flags := rfl
@[simp] theorem State.setMem_stk (s : State) (m : Memory) : (s.setMem m).stk = s.stk := rfl
@[simp] theorem State.setMem_depth (s : State) (m : Memory) : (s.setMem m).depth = s.depth := rfl
@[simp] theorem State.setMem_hdrHi (s : State) (m : Memory) : (s.setMem m).hdrHi = s.hdrHi := rfl
@[simp] theorem State.setMem_hdrLo (s : State) (m : Memory) : (s.setMem m).hdrLo = s.hdrLo := rfl
@[simp] theorem State.setMem_mem (s : State) (m : Memory) : (s.setMem m).mem = m := rfl
@[simp] theorem State.setMem_fb (s : State) (m : Memory) : (s.setMem m).fb = s.fb := rfl
@[simp] theorem State.setMem_dbus (s : State) (m : Memory) : (s.setMem m).dbus = s.dbus := rfl
@[simp] theorem State.setMem_abus (s : State) (m : Memory) : (s.setMem m).abus = s.abus := rfl
@[simp] theorem State.setMem_abr (s : State) (m : Memory) : (s.setMem m).abr = s.abr := rfl
@[simp] theorem State.setMem_aluA (s : State) (m : Memory) : (s.setMem m).aluA = s.aluA := rfl
@[simp] theorem State.setMem_aluB (s : State) (m : Memory) : (s.setMem m).aluB = s.aluB := rfl
@[simp] theorem State.setMem_aluR (s : State) (m : Memory) : (s.setMem m).aluR = s.aluR := rfl
@[simp] theorem State.setMem_halted (s : State) (m : Memory) : (s.setMem m).halted = s.halted := rfl
@[simp] theorem State.setMem_haltRecord (s : State) (m : Memory) : (s.setMem m).haltRecord = s.haltRecord := rfl
@[simp] theorem State.setMem_reports (s : State) (m : Memory) : (s.setMem m).reports = s.reports := rfl
@[simp] theorem State.setMem_freeIdx (s : State) (m : Memory) : (s.setMem m).freeIdx = s.freeIdx := rfl

/-! setFb -/

@[simp] theorem State.setFb_x (s : State) (m : Memory) : (s.setFb m).x = s.x := rfl
@[simp] theorem State.setFb_input (s : State) (m : Memory) : (s.setFb m).input = s.input := rfl
@[simp] theorem State.setFb_pc (s : State) (m : Memory) : (s.setFb m).pc = s.pc := rfl
@[simp] theorem State.setFb_flags (s : State) (m : Memory) : (s.setFb m).flags = s.flags := rfl
@[simp] theorem State.setFb_stk (s : State) (m : Memory) : (s.setFb m).stk = s.stk := rfl
@[simp] theorem State.setFb_depth (s : State) (m : Memory) : (s.setFb m).depth = s.depth := rfl
@[simp] theorem State.setFb_hdrHi (s : State) (m : Memory) : (s.setFb m).hdrHi = s.hdrHi := rfl
@[simp] theorem State.setFb_hdrLo (s : State) (m : Memory) : (s.setFb m).hdrLo = s.hdrLo := rfl
@[simp] theorem State.setFb_mem (s : State) (m : Memory) : (s.setFb m).mem = s.mem := rfl
@[simp] theorem State.setFb_fb (s : State) (m : Memory) : (s.setFb m).fb = m := rfl
@[simp] theorem State.setFb_dbus (s : State) (m : Memory) : (s.setFb m).dbus = s.dbus := rfl
@[simp] theorem State.setFb_abus (s : State) (m : Memory) : (s.setFb m).abus = s.abus := rfl
@[simp] theorem State.setFb_abr (s : State) (m : Memory) : (s.setFb m).abr = s.abr := rfl
@[simp] theorem State.setFb_aluA (s : State) (m : Memory) : (s.setFb m).aluA = s.aluA := rfl
@[simp] theorem State.setFb_aluB (s : State) (m : Memory) : (s.setFb m).aluB = s.aluB := rfl
@[simp] theorem State.setFb_aluR (s : State) (m : Memory) : (s.setFb m).aluR = s.aluR := rfl
@[simp] theorem State.setFb_halted (s : State) (m : Memory) : (s.setFb m).halted = s.halted := rfl
@[simp] theorem State.setFb_haltRecord (s : State) (m : Memory) : (s.setFb m).haltRecord = s.haltRecord := rfl
@[simp] theorem State.setFb_reports (s : State) (m : Memory) : (s.setFb m).reports = s.reports := rfl
@[simp] theorem State.setFb_freeIdx (s : State) (m : Memory) : (s.setFb m).freeIdx = s.freeIdx := rfl

/-! setDbus -/

@[simp] theorem State.setDbus_x (s : State) (v : Byte) : (s.setDbus v).x = s.x := rfl
@[simp] theorem State.setDbus_input (s : State) (v : Byte) : (s.setDbus v).input = s.input := rfl
@[simp] theorem State.setDbus_pc (s : State) (v : Byte) : (s.setDbus v).pc = s.pc := rfl
@[simp] theorem State.setDbus_flags (s : State) (v : Byte) : (s.setDbus v).flags = s.flags := rfl
@[simp] theorem State.setDbus_stk (s : State) (v : Byte) : (s.setDbus v).stk = s.stk := rfl
@[simp] theorem State.setDbus_depth (s : State) (v : Byte) : (s.setDbus v).depth = s.depth := rfl
@[simp] theorem State.setDbus_hdrHi (s : State) (v : Byte) : (s.setDbus v).hdrHi = s.hdrHi := rfl
@[simp] theorem State.setDbus_hdrLo (s : State) (v : Byte) : (s.setDbus v).hdrLo = s.hdrLo := rfl
@[simp] theorem State.setDbus_mem (s : State) (v : Byte) : (s.setDbus v).mem = s.mem := rfl
@[simp] theorem State.setDbus_fb (s : State) (v : Byte) : (s.setDbus v).fb = s.fb := rfl
@[simp] theorem State.setDbus_dbus (s : State) (v : Byte) : (s.setDbus v).dbus = v := rfl
@[simp] theorem State.setDbus_abus (s : State) (v : Byte) : (s.setDbus v).abus = s.abus := rfl
@[simp] theorem State.setDbus_abr (s : State) (v : Byte) : (s.setDbus v).abr = s.abr := rfl
@[simp] theorem State.setDbus_aluA (s : State) (v : Byte) : (s.setDbus v).aluA = s.aluA := rfl
@[simp] theorem State.setDbus_aluB (s : State) (v : Byte) : (s.setDbus v).aluB = s.aluB := rfl
@[simp] theorem State.setDbus_aluR (s : State) (v : Byte) : (s.setDbus v).aluR = s.aluR := rfl
@[simp] theorem State.setDbus_halted (s : State) (v : Byte) : (s.setDbus v).halted = s.halted := rfl
@[simp] theorem State.setDbus_haltRecord (s : State) (v : Byte) : (s.setDbus v).haltRecord = s.haltRecord := rfl
@[simp] theorem State.setDbus_reports (s : State) (v : Byte) : (s.setDbus v).reports = s.reports := rfl
@[simp] theorem State.setDbus_freeIdx (s : State) (v : Byte) : (s.setDbus v).freeIdx = s.freeIdx := rfl

/-! setAbus -/

@[simp] theorem State.setAbus_x (s : State) (w : Word) : (s.setAbus w).x = s.x := rfl
@[simp] theorem State.setAbus_input (s : State) (w : Word) : (s.setAbus w).input = s.input := rfl
@[simp] theorem State.setAbus_pc (s : State) (w : Word) : (s.setAbus w).pc = s.pc := rfl
@[simp] theorem State.setAbus_flags (s : State) (w : Word) : (s.setAbus w).flags = s.flags := rfl
@[simp] theorem State.setAbus_stk (s : State) (w : Word) : (s.setAbus w).stk = s.stk := rfl
@[simp] theorem State.setAbus_depth (s : State) (w : Word) : (s.setAbus w).depth = s.depth := rfl
@[simp] theorem State.setAbus_hdrHi (s : State) (w : Word) : (s.setAbus w).hdrHi = s.hdrHi := rfl
@[simp] theorem State.setAbus_hdrLo (s : State) (w : Word) : (s.setAbus w).hdrLo = s.hdrLo := rfl
@[simp] theorem State.setAbus_mem (s : State) (w : Word) : (s.setAbus w).mem = s.mem := rfl
@[simp] theorem State.setAbus_fb (s : State) (w : Word) : (s.setAbus w).fb = s.fb := rfl
@[simp] theorem State.setAbus_dbus (s : State) (w : Word) : (s.setAbus w).dbus = s.dbus := rfl
@[simp] theorem State.setAbus_abus (s : State) (w : Word) : (s.setAbus w).abus = w := rfl
@[simp] theorem State.setAbus_abr (s : State) (w : Word) : (s.setAbus w).abr = s.abr := rfl
@[simp] theorem State.setAbus_aluA (s : State) (w : Word) : (s.setAbus w).aluA = s.aluA := rfl
@[simp] theorem State.setAbus_aluB (s : State) (w : Word) : (s.setAbus w).aluB = s.aluB := rfl
@[simp] theorem State.setAbus_aluR (s : State) (w : Word) : (s.setAbus w).aluR = s.aluR := rfl
@[simp] theorem State.setAbus_halted (s : State) (w : Word) : (s.setAbus w).halted = s.halted := rfl
@[simp] theorem State.setAbus_haltRecord (s : State) (w : Word) : (s.setAbus w).haltRecord = s.haltRecord := rfl
@[simp] theorem State.setAbus_reports (s : State) (w : Word) : (s.setAbus w).reports = s.reports := rfl
@[simp] theorem State.setAbus_freeIdx (s : State) (w : Word) : (s.setAbus w).freeIdx = s.freeIdx := rfl

/-! setAbr -/

@[simp] theorem State.setAbr_x (s : State) (w : Word) : (s.setAbr w).x = s.x := rfl
@[simp] theorem State.setAbr_input (s : State) (w : Word) : (s.setAbr w).input = s.input := rfl
@[simp] theorem State.setAbr_pc (s : State) (w : Word) : (s.setAbr w).pc = s.pc := rfl
@[simp] theorem State.setAbr_flags (s : State) (w : Word) : (s.setAbr w).flags = s.flags := rfl
@[simp] theorem State.setAbr_stk (s : State) (w : Word) : (s.setAbr w).stk = s.stk := rfl
@[simp] theorem State.setAbr_depth (s : State) (w : Word) : (s.setAbr w).depth = s.depth := rfl
@[simp] theorem State.setAbr_hdrHi (s : State) (w : Word) : (s.setAbr w).hdrHi = s.hdrHi := rfl
@[simp] theorem State.setAbr_hdrLo (s : State) (w : Word) : (s.setAbr w).hdrLo = s.hdrLo := rfl
@[simp] theorem State.setAbr_mem (s : State) (w : Word) : (s.setAbr w).mem = s.mem := rfl
@[simp] theorem State.setAbr_fb (s : State) (w : Word) : (s.setAbr w).fb = s.fb := rfl
@[simp] theorem State.setAbr_dbus (s : State) (w : Word) : (s.setAbr w).dbus = s.dbus := rfl
@[simp] theorem State.setAbr_abus (s : State) (w : Word) : (s.setAbr w).abus = s.abus := rfl
@[simp] theorem State.setAbr_abr (s : State) (w : Word) : (s.setAbr w).abr = w := rfl
@[simp] theorem State.setAbr_aluA (s : State) (w : Word) : (s.setAbr w).aluA = s.aluA := rfl
@[simp] theorem State.setAbr_aluB (s : State) (w : Word) : (s.setAbr w).aluB = s.aluB := rfl
@[simp] theorem State.setAbr_aluR (s : State) (w : Word) : (s.setAbr w).aluR = s.aluR := rfl
@[simp] theorem State.setAbr_halted (s : State) (w : Word) : (s.setAbr w).halted = s.halted := rfl
@[simp] theorem State.setAbr_haltRecord (s : State) (w : Word) : (s.setAbr w).haltRecord = s.haltRecord := rfl
@[simp] theorem State.setAbr_reports (s : State) (w : Word) : (s.setAbr w).reports = s.reports := rfl
@[simp] theorem State.setAbr_freeIdx (s : State) (w : Word) : (s.setAbr w).freeIdx = s.freeIdx := rfl

/-! setAluA -/

@[simp] theorem State.setAluA_x (s : State) (v : Byte) : (s.setAluA v).x = s.x := rfl
@[simp] theorem State.setAluA_input (s : State) (v : Byte) : (s.setAluA v).input = s.input := rfl
@[simp] theorem State.setAluA_pc (s : State) (v : Byte) : (s.setAluA v).pc = s.pc := rfl
@[simp] theorem State.setAluA_flags (s : State) (v : Byte) : (s.setAluA v).flags = s.flags := rfl
@[simp] theorem State.setAluA_stk (s : State) (v : Byte) : (s.setAluA v).stk = s.stk := rfl
@[simp] theorem State.setAluA_depth (s : State) (v : Byte) : (s.setAluA v).depth = s.depth := rfl
@[simp] theorem State.setAluA_hdrHi (s : State) (v : Byte) : (s.setAluA v).hdrHi = s.hdrHi := rfl
@[simp] theorem State.setAluA_hdrLo (s : State) (v : Byte) : (s.setAluA v).hdrLo = s.hdrLo := rfl
@[simp] theorem State.setAluA_mem (s : State) (v : Byte) : (s.setAluA v).mem = s.mem := rfl
@[simp] theorem State.setAluA_fb (s : State) (v : Byte) : (s.setAluA v).fb = s.fb := rfl
@[simp] theorem State.setAluA_dbus (s : State) (v : Byte) : (s.setAluA v).dbus = s.dbus := rfl
@[simp] theorem State.setAluA_abus (s : State) (v : Byte) : (s.setAluA v).abus = s.abus := rfl
@[simp] theorem State.setAluA_abr (s : State) (v : Byte) : (s.setAluA v).abr = s.abr := rfl
@[simp] theorem State.setAluA_aluA (s : State) (v : Byte) : (s.setAluA v).aluA = v := rfl
@[simp] theorem State.setAluA_aluB (s : State) (v : Byte) : (s.setAluA v).aluB = s.aluB := rfl
@[simp] theorem State.setAluA_aluR (s : State) (v : Byte) : (s.setAluA v).aluR = s.aluR := rfl
@[simp] theorem State.setAluA_halted (s : State) (v : Byte) : (s.setAluA v).halted = s.halted := rfl
@[simp] theorem State.setAluA_haltRecord (s : State) (v : Byte) : (s.setAluA v).haltRecord = s.haltRecord := rfl
@[simp] theorem State.setAluA_reports (s : State) (v : Byte) : (s.setAluA v).reports = s.reports := rfl
@[simp] theorem State.setAluA_freeIdx (s : State) (v : Byte) : (s.setAluA v).freeIdx = s.freeIdx := rfl

/-! setAluB -/

@[simp] theorem State.setAluB_x (s : State) (v : Byte) : (s.setAluB v).x = s.x := rfl
@[simp] theorem State.setAluB_input (s : State) (v : Byte) : (s.setAluB v).input = s.input := rfl
@[simp] theorem State.setAluB_pc (s : State) (v : Byte) : (s.setAluB v).pc = s.pc := rfl
@[simp] theorem State.setAluB_flags (s : State) (v : Byte) : (s.setAluB v).flags = s.flags := rfl
@[simp] theorem State.setAluB_stk (s : State) (v : Byte) : (s.setAluB v).stk = s.stk := rfl
@[simp] theorem State.setAluB_depth (s : State) (v : Byte) : (s.setAluB v).depth = s.depth := rfl
@[simp] theorem State.setAluB_hdrHi (s : State) (v : Byte) : (s.setAluB v).hdrHi = s.hdrHi := rfl
@[simp] theorem State.setAluB_hdrLo (s : State) (v : Byte) : (s.setAluB v).hdrLo = s.hdrLo := rfl
@[simp] theorem State.setAluB_mem (s : State) (v : Byte) : (s.setAluB v).mem = s.mem := rfl
@[simp] theorem State.setAluB_fb (s : State) (v : Byte) : (s.setAluB v).fb = s.fb := rfl
@[simp] theorem State.setAluB_dbus (s : State) (v : Byte) : (s.setAluB v).dbus = s.dbus := rfl
@[simp] theorem State.setAluB_abus (s : State) (v : Byte) : (s.setAluB v).abus = s.abus := rfl
@[simp] theorem State.setAluB_abr (s : State) (v : Byte) : (s.setAluB v).abr = s.abr := rfl
@[simp] theorem State.setAluB_aluA (s : State) (v : Byte) : (s.setAluB v).aluA = s.aluA := rfl
@[simp] theorem State.setAluB_aluB (s : State) (v : Byte) : (s.setAluB v).aluB = v := rfl
@[simp] theorem State.setAluB_aluR (s : State) (v : Byte) : (s.setAluB v).aluR = s.aluR := rfl
@[simp] theorem State.setAluB_halted (s : State) (v : Byte) : (s.setAluB v).halted = s.halted := rfl
@[simp] theorem State.setAluB_haltRecord (s : State) (v : Byte) : (s.setAluB v).haltRecord = s.haltRecord := rfl
@[simp] theorem State.setAluB_reports (s : State) (v : Byte) : (s.setAluB v).reports = s.reports := rfl
@[simp] theorem State.setAluB_freeIdx (s : State) (v : Byte) : (s.setAluB v).freeIdx = s.freeIdx := rfl

/-! setAluR -/

@[simp] theorem State.setAluR_x (s : State) (v : Byte) : (s.setAluR v).x = s.x := rfl
@[simp] theorem State.setAluR_input (s : State) (v : Byte) : (s.setAluR v).input = s.input := rfl
@[simp] theorem State.setAluR_pc (s : State) (v : Byte) : (s.setAluR v).pc = s.pc := rfl
@[simp] theorem State.setAluR_flags (s : State) (v : Byte) : (s.setAluR v).flags = s.flags := rfl
@[simp] theorem State.setAluR_stk (s : State) (v : Byte) : (s.setAluR v).stk = s.stk := rfl
@[simp] theorem State.setAluR_depth (s : State) (v : Byte) : (s.setAluR v).depth = s.depth := rfl
@[simp] theorem State.setAluR_hdrHi (s : State) (v : Byte) : (s.setAluR v).hdrHi = s.hdrHi := rfl
@[simp] theorem State.setAluR_hdrLo (s : State) (v : Byte) : (s.setAluR v).hdrLo = s.hdrLo := rfl
@[simp] theorem State.setAluR_mem (s : State) (v : Byte) : (s.setAluR v).mem = s.mem := rfl
@[simp] theorem State.setAluR_fb (s : State) (v : Byte) : (s.setAluR v).fb = s.fb := rfl
@[simp] theorem State.setAluR_dbus (s : State) (v : Byte) : (s.setAluR v).dbus = s.dbus := rfl
@[simp] theorem State.setAluR_abus (s : State) (v : Byte) : (s.setAluR v).abus = s.abus := rfl
@[simp] theorem State.setAluR_abr (s : State) (v : Byte) : (s.setAluR v).abr = s.abr := rfl
@[simp] theorem State.setAluR_aluA (s : State) (v : Byte) : (s.setAluR v).aluA = s.aluA := rfl
@[simp] theorem State.setAluR_aluB (s : State) (v : Byte) : (s.setAluR v).aluB = s.aluB := rfl
@[simp] theorem State.setAluR_aluR (s : State) (v : Byte) : (s.setAluR v).aluR = v := rfl
@[simp] theorem State.setAluR_halted (s : State) (v : Byte) : (s.setAluR v).halted = s.halted := rfl
@[simp] theorem State.setAluR_haltRecord (s : State) (v : Byte) : (s.setAluR v).haltRecord = s.haltRecord := rfl
@[simp] theorem State.setAluR_reports (s : State) (v : Byte) : (s.setAluR v).reports = s.reports := rfl
@[simp] theorem State.setAluR_freeIdx (s : State) (v : Byte) : (s.setAluR v).freeIdx = s.freeIdx := rfl

/-! setHalt -/

@[simp] theorem State.setHalt_x (s : State) (b : Bool) (r : Option HaltCause) : (s.setHalt b r).x = s.x := rfl
@[simp] theorem State.setHalt_input (s : State) (b : Bool) (r : Option HaltCause) : (s.setHalt b r).input = s.input := rfl
@[simp] theorem State.setHalt_pc (s : State) (b : Bool) (r : Option HaltCause) : (s.setHalt b r).pc = s.pc := rfl
@[simp] theorem State.setHalt_flags (s : State) (b : Bool) (r : Option HaltCause) : (s.setHalt b r).flags = s.flags := rfl
@[simp] theorem State.setHalt_stk (s : State) (b : Bool) (r : Option HaltCause) : (s.setHalt b r).stk = s.stk := rfl
@[simp] theorem State.setHalt_depth (s : State) (b : Bool) (r : Option HaltCause) : (s.setHalt b r).depth = s.depth := rfl
@[simp] theorem State.setHalt_hdrHi (s : State) (b : Bool) (r : Option HaltCause) : (s.setHalt b r).hdrHi = s.hdrHi := rfl
@[simp] theorem State.setHalt_hdrLo (s : State) (b : Bool) (r : Option HaltCause) : (s.setHalt b r).hdrLo = s.hdrLo := rfl
@[simp] theorem State.setHalt_mem (s : State) (b : Bool) (r : Option HaltCause) : (s.setHalt b r).mem = s.mem := rfl
@[simp] theorem State.setHalt_fb (s : State) (b : Bool) (r : Option HaltCause) : (s.setHalt b r).fb = s.fb := rfl
@[simp] theorem State.setHalt_dbus (s : State) (b : Bool) (r : Option HaltCause) : (s.setHalt b r).dbus = s.dbus := rfl
@[simp] theorem State.setHalt_abus (s : State) (b : Bool) (r : Option HaltCause) : (s.setHalt b r).abus = s.abus := rfl
@[simp] theorem State.setHalt_abr (s : State) (b : Bool) (r : Option HaltCause) : (s.setHalt b r).abr = s.abr := rfl
@[simp] theorem State.setHalt_aluA (s : State) (b : Bool) (r : Option HaltCause) : (s.setHalt b r).aluA = s.aluA := rfl
@[simp] theorem State.setHalt_aluB (s : State) (b : Bool) (r : Option HaltCause) : (s.setHalt b r).aluB = s.aluB := rfl
@[simp] theorem State.setHalt_aluR (s : State) (b : Bool) (r : Option HaltCause) : (s.setHalt b r).aluR = s.aluR := rfl
@[simp] theorem State.setHalt_halted (s : State) (b : Bool) (r : Option HaltCause) : (s.setHalt b r).halted = b := rfl
@[simp] theorem State.setHalt_haltRecord (s : State) (b : Bool) (r : Option HaltCause) : (s.setHalt b r).haltRecord = r := rfl
@[simp] theorem State.setHalt_reports (s : State) (b : Bool) (r : Option HaltCause) : (s.setHalt b r).reports = s.reports := rfl
@[simp] theorem State.setHalt_freeIdx (s : State) (b : Bool) (r : Option HaltCause) : (s.setHalt b r).freeIdx = s.freeIdx := rfl

/-! setReports -/

@[simp] theorem State.setReports_x (s : State) (l : List GpuReport) : (s.setReports l).x = s.x := rfl
@[simp] theorem State.setReports_input (s : State) (l : List GpuReport) : (s.setReports l).input = s.input := rfl
@[simp] theorem State.setReports_pc (s : State) (l : List GpuReport) : (s.setReports l).pc = s.pc := rfl
@[simp] theorem State.setReports_flags (s : State) (l : List GpuReport) : (s.setReports l).flags = s.flags := rfl
@[simp] theorem State.setReports_stk (s : State) (l : List GpuReport) : (s.setReports l).stk = s.stk := rfl
@[simp] theorem State.setReports_depth (s : State) (l : List GpuReport) : (s.setReports l).depth = s.depth := rfl
@[simp] theorem State.setReports_hdrHi (s : State) (l : List GpuReport) : (s.setReports l).hdrHi = s.hdrHi := rfl
@[simp] theorem State.setReports_hdrLo (s : State) (l : List GpuReport) : (s.setReports l).hdrLo = s.hdrLo := rfl
@[simp] theorem State.setReports_mem (s : State) (l : List GpuReport) : (s.setReports l).mem = s.mem := rfl
@[simp] theorem State.setReports_fb (s : State) (l : List GpuReport) : (s.setReports l).fb = s.fb := rfl
@[simp] theorem State.setReports_dbus (s : State) (l : List GpuReport) : (s.setReports l).dbus = s.dbus := rfl
@[simp] theorem State.setReports_abus (s : State) (l : List GpuReport) : (s.setReports l).abus = s.abus := rfl
@[simp] theorem State.setReports_abr (s : State) (l : List GpuReport) : (s.setReports l).abr = s.abr := rfl
@[simp] theorem State.setReports_aluA (s : State) (l : List GpuReport) : (s.setReports l).aluA = s.aluA := rfl
@[simp] theorem State.setReports_aluB (s : State) (l : List GpuReport) : (s.setReports l).aluB = s.aluB := rfl
@[simp] theorem State.setReports_aluR (s : State) (l : List GpuReport) : (s.setReports l).aluR = s.aluR := rfl
@[simp] theorem State.setReports_halted (s : State) (l : List GpuReport) : (s.setReports l).halted = s.halted := rfl
@[simp] theorem State.setReports_haltRecord (s : State) (l : List GpuReport) : (s.setReports l).haltRecord = s.haltRecord := rfl
@[simp] theorem State.setReports_reports (s : State) (l : List GpuReport) : (s.setReports l).reports = l := rfl
@[simp] theorem State.setReports_freeIdx (s : State) (l : List GpuReport) : (s.setReports l).freeIdx = s.freeIdx := rfl

/-! setFreeIdx -/

@[simp] theorem State.setFreeIdx_x (s : State) (n : Nat) : (s.setFreeIdx n).x = s.x := rfl
@[simp] theorem State.setFreeIdx_input (s : State) (n : Nat) : (s.setFreeIdx n).input = s.input := rfl
@[simp] theorem State.setFreeIdx_pc (s : State) (n : Nat) : (s.setFreeIdx n).pc = s.pc := rfl
@[simp] theorem State.setFreeIdx_flags (s : State) (n : Nat) : (s.setFreeIdx n).flags = s.flags := rfl
@[simp] theorem State.setFreeIdx_stk (s : State) (n : Nat) : (s.setFreeIdx n).stk = s.stk := rfl
@[simp] theorem State.setFreeIdx_depth (s : State) (n : Nat) : (s.setFreeIdx n).depth = s.depth := rfl
@[simp] theorem State.setFreeIdx_hdrHi (s : State) (n : Nat) : (s.setFreeIdx n).hdrHi = s.hdrHi := rfl
@[simp] theorem State.setFreeIdx_hdrLo (s : State) (n : Nat) : (s.setFreeIdx n).hdrLo = s.hdrLo := rfl
@[simp] theorem State.setFreeIdx_mem (s : State) (n : Nat) : (s.setFreeIdx n).mem = s.mem := rfl
@[simp] theorem State.setFreeIdx_fb (s : State) (n : Nat) : (s.setFreeIdx n).fb = s.fb := rfl
@[simp] theorem State.setFreeIdx_dbus (s : State) (n : Nat) : (s.setFreeIdx n).dbus = s.dbus := rfl
@[simp] theorem State.setFreeIdx_abus (s : State) (n : Nat) : (s.setFreeIdx n).abus = s.abus := rfl
@[simp] theorem State.setFreeIdx_abr (s : State) (n : Nat) : (s.setFreeIdx n).abr = s.abr := rfl
@[simp] theorem State.setFreeIdx_aluA (s : State) (n : Nat) : (s.setFreeIdx n).aluA = s.aluA := rfl
@[simp] theorem State.setFreeIdx_aluB (s : State) (n : Nat) : (s.setFreeIdx n).aluB = s.aluB := rfl
@[simp] theorem State.setFreeIdx_aluR (s : State) (n : Nat) : (s.setFreeIdx n).aluR = s.aluR := rfl
@[simp] theorem State.setFreeIdx_halted (s : State) (n : Nat) : (s.setFreeIdx n).halted = s.halted := rfl
@[simp] theorem State.setFreeIdx_haltRecord (s : State) (n : Nat) : (s.setFreeIdx n).haltRecord = s.haltRecord := rfl
@[simp] theorem State.setFreeIdx_reports (s : State) (n : Nat) : (s.setFreeIdx n).reports = s.reports := rfl
@[simp] theorem State.setFreeIdx_freeIdx (s : State) (n : Nat) : (s.setFreeIdx n).freeIdx = n := rfl

/-! The accessors of registers and stack bytes. -/

@[simp] theorem State.reg_setReg_self (s : State) (i : Fin 8) (v : Byte) : (s.setReg i v).reg i = v := by
  simp [State.reg, State.setReg]

theorem State.reg_setReg (s : State) (i j : Fin 8) (v : Byte) :
    (s.setReg i v).reg j = if i = j then v else s.reg j := by
  simp [State.reg, State.setReg, Vector.getElem_set, Fin.ext_iff]

@[simp] theorem State.slot_setSlot_self (s : State) (i : Fin 8) (v : Byte) : (s.setSlot i v).slot i = v := by
  simp [State.slot, State.setSlot]

theorem State.slot_setSlot (s : State) (i j : Fin 8) (v : Byte) :
    (s.setSlot i v).slot j = if i = j then v else s.slot j := by
  simp [State.slot, State.setSlot, Vector.getElem_set, Fin.ext_iff]

theorem State.reg_congr {s t : State} (h : s.x = t.x) (i : Fin 8) : s.reg i = t.reg i := by
  simp [State.reg, h]

theorem State.slot_congr {s t : State} (h : s.stk = t.stk) (i : Fin 8) : s.slot i = t.slot i := by
  simp [State.slot, h]

end Sys2Proof.Machine
end

