-- ==== Sys2Proof/Laws/Ops.lean ====
section
/-! SUPPORT. For each shared operation, once, everything it can do. -/

namespace Sys2Proof.Machine

/-! Sequencing. -/

@[simp] theorem Run.andThen_done {α β : Type} (a : α) (s : State) (k : α → State → Run β) :
    (Run.done a s).andThen k = k a s := rfl

@[simp] theorem Run.andThen_halted {α β : Type} (s : State) (k : α → State → Run β) :
    (Run.halted s : Run α).andThen k = .halted s := rfl

@[simp] theorem Run.final_done {α : Type} (a : α) (s : State) : (Run.done a s).final = s := rfl

@[simp] theorem Run.final_halted {α : Type} (s : State) : (Run.halted s : Run α).final = s := rfl

/-- A property the first part ends with, and that the rest keeps, holds at the end. -/
theorem Run.final_andThen {α β : Type} {P : State → Prop} (r : Run α) (k : α → State → Run β) (h : P r.final)
    (hk : ∀ a t, P t → P (k a t).final) : P (r.andThen k).final := by
  cases r with
  | done a s => exact hk a s h
  | halted s => exact h

theorem Run.andThen_assoc {α β γ : Type} (r : Run α) (k : α → State → Run β) (l : β → State → Run γ) :
    (r.andThen k).andThen l = r.andThen fun a s => (k a s).andThen l := by
  cases r <;> rfl

@[simp] theorem Run.toOutcome_eq {α : Type} (r : Run α) : r.toOutcome = .next r.final := rfl

@[simp] theorem raise_andThen {α β : Type} (c : HaltCause) (s : State) (k : α → State → Run β) :
    (raise c s : Run α).andThen k = raise c s := rfl

@[simp] theorem final_raise {α : Type} (c : HaltCause) (s : State) : (raise c s : Run α).final = s.takeHalt c := rfl

/-- Halt entry writes `halted` and `halt_record` and nothing else (R254). -/
theorem takeHalt_eq (s : State) (c : HaltCause) : s.takeHalt c = { s with halted := true, haltRecord := some c } := rfl

/-! Stack. -/

theorem pop_of_pos {s : State} (h : 0 < s.depth.val) : pop s = .done s.top s.dropTop := by
  unfold pop
  rw [if_neg (by omega)]

theorem pop_of_empty {s : State} (h : s.depth.val = 0) : pop s = raise .stackUnderflow s := by
  unfold pop
  rw [if_pos h]

theorem push_of_lt {s : State} (v : Byte) (h : s.depth.val < 8) :
    push v s = .done () ((s.setSlot ⟨s.depth.val, h⟩ v).setDepth ⟨s.depth.val + 1, by omega⟩) := by
  unfold push
  rw [dif_pos h]

theorem push_of_full {s : State} (v : Byte) (h : s.depth.val = 8) : push v s = raise (.stackOverflow v) s := by
  unfold push
  rw [dif_neg (by omega)]

/-- A push, then a pop: the byte pushed, and the depth of before. -/
theorem pop_push {s : State} (v : Byte) (h : s.depth.val < 8) :
    (push v s).andThen (fun _ t => pop t) = .done v (s.setSlot ⟨s.depth.val, h⟩ v) := by
  rw [push_of_lt v h, Run.andThen_done, pop_of_pos (by simp)]
  simp only [State.top, State.dropTop, State.setDepth_depth, Nat.add_sub_cancel]
  congr 1
  simp [State.slot, State.setSlot, State.setDepth]

/-! Register ids. -/

/-- A readable id gives its value (R26). -/
theorem regRead_of_readable {id : Byte} {s : State} (h : Readable id s) :
    regRead id s = .done (readValue id s) (afterRead id s) := by
  unfold regRead readValue afterRead
  by_cases h8 : id.toNat < 8
  · simp [h8, show id.toNat ≠ 10 by omega, readValue]
  · by_cases he : id.toNat = 8
    · simp [he, readValue]
    · have hid : id.toNat = 10 ∧ 0 < s.depth.val := by rcases h with h | h <;> omega
      simp [hid.1, pop_of_pos hid.2, readValue]

/-- Any other id halts, and nothing else changes (R26, R254). -/
theorem regRead_of_not_readable {id : Byte} {s : State} (h : ¬ Readable id s) :
    regRead id s = .halted (s.takeHalt (readCause id)) := by
  unfold regRead readCause
  have h8 : ¬ id.toNat < 8 := by omega
  have he : ¬ id.toNat = 8 := by omega
  by_cases h10 : id.toNat = 10
  · simp [h10, pop_of_empty (s := s) (by omega), raise]
  · simp [h8, he, h10, raise]

/-- A register read goes on with the id's value exactly when the id is readable. -/
theorem regRead_cases (id : Byte) (s : State) :
    (Readable id s ∧ regRead id s = .done (readValue id s) (afterRead id s)) ∨
      (¬ Readable id s ∧ regRead id s = .halted (s.takeHalt (readCause id))) := by
  by_cases h : Readable id s
  · exact .inl ⟨h, regRead_of_readable h⟩
  · exact .inr ⟨h, regRead_of_not_readable h⟩

/-- A writable id is written (R27). -/
theorem regWrite_of_writable {id : Byte} {s : State} (v : Byte) (h : Writable id s) :
    regWrite id v s = .done () (afterWrite id v s) := by
  unfold regWrite afterWrite
  by_cases h8 : id.toNat < 8
  · simp [h8]
  · have hid : id.toNat = 10 ∧ s.depth.val < 8 := by rcases h with h | h <;> omega
    simp [hid.1, hid.2, push_of_lt (s := s.setDbus v) v (by simpa using hid.2)]

/-- Any other id halts; only the data bus has changed (R27, R254). -/
theorem regWrite_of_not_writable {id : Byte} {s : State} (v : Byte) (h : ¬ Writable id s) :
    regWrite id v s = .halted ((s.setDbus v).takeHalt (writeCause id v)) := by
  unfold regWrite writeCause
  have h8 : ¬ id.toNat < 8 := by omega
  by_cases h10 : id.toNat = 10
  · have hd : s.depth.val = 8 := by omega
    simp [h10, push_of_full (s := s.setDbus v) v (by simpa using hd), raise]
  · simp [h8, h10, raise]

theorem regWrite_cases (id v : Byte) (s : State) :
    (Writable id s ∧ regWrite id v s = .done () (afterWrite id v s)) ∨
      (¬ Writable id s ∧ regWrite id v s = .halted ((s.setDbus v).takeHalt (writeCause id v))) := by
  by_cases h : Writable id s
  · exact .inl ⟨h, regWrite_of_writable v h⟩
  · exact .inr ⟨h, regWrite_of_not_writable v h⟩

/-- A register write in both cases. -/
theorem regWrite_final (id v : Byte) (s : State) : (regWrite id v s).final = written id v s := by
  unfold written
  by_cases h : Writable id s
  · rw [regWrite_of_writable v h, if_pos h, Run.final_done]
  · rw [regWrite_of_not_writable v h, if_neg h, Run.final_halted]

@[simp] theorem written_of_writable {id : Byte} {s : State} (v : Byte) (h : Writable id s) :
    written id v s = afterWrite id v s := if_pos h

theorem written_of_not_writable {id : Byte} {s : State} (v : Byte) (h : ¬ Writable id s) :
    written id v s = (s.setDbus v).takeHalt (writeCause id v) := if_neg h

/-! Reads one after the other. -/

@[simp] theorem readableAll_nil (s : State) : ReadableAll [] s ↔ True := Iff.rfl

@[simp] theorem readableAll_cons (id : Byte) (rest : List Byte) (s : State) :
    ReadableAll (id :: rest) s ↔ Readable id s ∧ ReadableAll rest (afterRead id s) := Iff.rfl

@[simp] theorem afterReads_nil (s : State) : afterReads [] s = s := rfl

@[simp] theorem afterReads_cons (id : Byte) (rest : List Byte) (s : State) :
    afterReads (id :: rest) s = afterReads rest (afterRead id s) := rfl

/-- At the default parameters an instruction reads its sources and nothing else. -/
@[simp] theorem readsUnder_params (i : Instr) : readsUnder params i = i.sources := by
  simp [readsUnder, params]

/-! Memory through the buses: an address-bus value is always in range (R62). -/

theorem abus_lt_memSize (w : Word) : w.toNat < memSize := w.isLt

@[simp] theorem busRead_eq (s : State) : busRead s = .done () (s.setDbus (s.mem.read s.abus.toNat)) := by
  simp [busRead, memRead, abus_lt_memSize]

@[simp] theorem busWrite_eq (s : State) : busWrite s = .done () (s.setMem (s.mem.write s.abus.toNat s.dbus)) := by
  simp [busWrite, memWrite, abus_lt_memSize]

theorem memRead_of_lt {a : Nat} (s : State) (h : a < memSize) : memRead a s = .done (s.mem.read a) s := by
  simp [memRead, h]

theorem memRead_of_le {a : Nat} (s : State) (h : memSize ≤ a) :
    memRead a s = .halted (s.takeHalt (.memoryFault .main a)) := by
  simp [memRead, show ¬ a < memSize by omega, raise]

theorem fbWrite_of_lt {off : Nat} (v : Byte) (s : State) (h : off < fbSize) :
    fbWrite off v s = .done () (s.setFb (s.fb.write off v)) := by
  simp [fbWrite, h]

theorem fbWrite_of_le {off : Nat} (v : Byte) (s : State) (h : fbSize ≤ off) :
    fbWrite off v s = .halted (s.takeHalt (.memoryFault .framebuffer off)) := by
  simp [fbWrite, show ¬ off < fbSize by omega, raise]

/-! Addresses on the bus. -/

theorem absoluteAddress_eq (hi lo : Byte) (s : State) :
    absoluteAddress hi lo s = (s.setAbr (cat hi lo)).setAbus (cat hi lo) := rfl

theorem variableAddress_abus (v : Byte) (s : State) : (variableAddress v s).abus = 0xFFFF - zext16 v := rfl

theorem headerAddress_eq (idx : Byte) (s : State) :
    headerAddress idx s = (s.setAbr (hdrRead idx s)).setAbus (hdrRead idx s) := rfl

theorem variableAddress_eq (v : Byte) (s : State) :
    variableAddress v s = (s.setAbr 0xFFFF).setAbus (0xFFFF - zext16 v) := rfl

/-- MOV's immediate read: the byte at the program counter, through the buses, or MemoryFault at the end of memory. -/
theorem fetchImmediate_of_lt {s : State} (h : s.pc < memSize) :
    fetchImmediate s = .done () (((s.setAbus (BitVec.ofNat 16 s.pc)).setDbus (s.mem.read s.pc)).setPc (s.pc + 1)) := by
  have hm : s.pc % 65536 = s.pc := Nat.mod_eq_of_lt h
  simp [fetchImmediate, h, State.abusFromPc, State.advance, BitVec.toNat_ofNat, hm]

theorem fetchImmediate_of_le {s : State} (h : memSize ≤ s.pc) :
    fetchImmediate s = .halted (s.takeHalt (.memoryFault .main s.pc)) := by
  simp [fetchImmediate, show ¬ s.pc < memSize by omega, raise]

/-! The shift amount under the default of `SHIFT_N_SOURCE`. -/

theorem shiftAmount_literal {p : Params} (h : p.shiftNSource = .literal) (n : Byte) (s : State) :
    shiftAmount p n s = .done n s := by
  simp [shiftAmount, h]

theorem shiftAmount_register {p : Params} (h : p.shiftNSource = .register) (n : Byte) (s : State) :
    shiftAmount p n s = regRead n s := by
  simp [shiftAmount, h]

end Sys2Proof.Machine
end

