-- ==== Sys2Proof/Laws/Frame.lean ====
section
/-! SUPPORT. What reading a register, writing a register and halting leave alone, one lemma per field. -/

namespace Sys2Proof.Machine

@[simp] theorem afterRead_x (id : Byte) (s : State) : (afterRead id s).x = s.x := by
  unfold afterRead; split <;> rfl

@[simp] theorem afterRead_input (id : Byte) (s : State) : (afterRead id s).input = s.input := by
  unfold afterRead; split <;> rfl

@[simp] theorem afterRead_pc (id : Byte) (s : State) : (afterRead id s).pc = s.pc := by
  unfold afterRead; split <;> rfl

@[simp] theorem afterRead_flags (id : Byte) (s : State) : (afterRead id s).flags = s.flags := by
  unfold afterRead; split <;> rfl

@[simp] theorem afterRead_stk (id : Byte) (s : State) : (afterRead id s).stk = s.stk := by
  unfold afterRead; split <;> rfl

@[simp] theorem afterRead_hdrHi (id : Byte) (s : State) : (afterRead id s).hdrHi = s.hdrHi := by
  unfold afterRead; split <;> rfl

@[simp] theorem afterRead_hdrLo (id : Byte) (s : State) : (afterRead id s).hdrLo = s.hdrLo := by
  unfold afterRead; split <;> rfl

@[simp] theorem afterRead_mem (id : Byte) (s : State) : (afterRead id s).mem = s.mem := by
  unfold afterRead; split <;> rfl

@[simp] theorem afterRead_fb (id : Byte) (s : State) : (afterRead id s).fb = s.fb := by
  unfold afterRead; split <;> rfl

@[simp] theorem afterRead_abus (id : Byte) (s : State) : (afterRead id s).abus = s.abus := by
  unfold afterRead; split <;> rfl

@[simp] theorem afterRead_abr (id : Byte) (s : State) : (afterRead id s).abr = s.abr := by
  unfold afterRead; split <;> rfl

@[simp] theorem afterRead_aluA (id : Byte) (s : State) : (afterRead id s).aluA = s.aluA := by
  unfold afterRead; split <;> rfl

@[simp] theorem afterRead_aluB (id : Byte) (s : State) : (afterRead id s).aluB = s.aluB := by
  unfold afterRead; split <;> rfl

@[simp] theorem afterRead_aluR (id : Byte) (s : State) : (afterRead id s).aluR = s.aluR := by
  unfold afterRead; split <;> rfl

@[simp] theorem afterRead_halted (id : Byte) (s : State) : (afterRead id s).halted = s.halted := by
  unfold afterRead; split <;> rfl

@[simp] theorem afterRead_haltRecord (id : Byte) (s : State) : (afterRead id s).haltRecord = s.haltRecord := by
  unfold afterRead; split <;> rfl

@[simp] theorem afterRead_reports (id : Byte) (s : State) : (afterRead id s).reports = s.reports := by
  unfold afterRead; split <;> rfl

@[simp] theorem afterRead_freeIdx (id : Byte) (s : State) : (afterRead id s).freeIdx = s.freeIdx := by
  unfold afterRead; split <;> rfl

@[simp] theorem afterRead_dbus (id : Byte) (s : State) : (afterRead id s).dbus = readValue id s := by
  unfold afterRead; split <;> rfl

theorem afterRead_depth (id : Byte) (s : State) :
    (afterRead id s).depth = if id.toNat = 10 then ⟨s.depth.val - 1, by omega⟩ else s.depth := by
  unfold afterRead; split <;> rfl

@[simp] theorem afterWrite_input (id v : Byte) (s : State) : (afterWrite id v s).input = s.input := by
  unfold afterWrite; split
  · rfl
  · split <;> rfl

@[simp] theorem afterWrite_pc (id v : Byte) (s : State) : (afterWrite id v s).pc = s.pc := by
  unfold afterWrite; split
  · rfl
  · split <;> rfl

@[simp] theorem afterWrite_flags (id v : Byte) (s : State) : (afterWrite id v s).flags = s.flags := by
  unfold afterWrite; split
  · rfl
  · split <;> rfl

@[simp] theorem afterWrite_hdrHi (id v : Byte) (s : State) : (afterWrite id v s).hdrHi = s.hdrHi := by
  unfold afterWrite; split
  · rfl
  · split <;> rfl

@[simp] theorem afterWrite_hdrLo (id v : Byte) (s : State) : (afterWrite id v s).hdrLo = s.hdrLo := by
  unfold afterWrite; split
  · rfl
  · split <;> rfl

@[simp] theorem afterWrite_mem (id v : Byte) (s : State) : (afterWrite id v s).mem = s.mem := by
  unfold afterWrite; split
  · rfl
  · split <;> rfl

@[simp] theorem afterWrite_fb (id v : Byte) (s : State) : (afterWrite id v s).fb = s.fb := by
  unfold afterWrite; split
  · rfl
  · split <;> rfl

@[simp] theorem afterWrite_abus (id v : Byte) (s : State) : (afterWrite id v s).abus = s.abus := by
  unfold afterWrite; split
  · rfl
  · split <;> rfl

@[simp] theorem afterWrite_abr (id v : Byte) (s : State) : (afterWrite id v s).abr = s.abr := by
  unfold afterWrite; split
  · rfl
  · split <;> rfl

@[simp] theorem afterWrite_aluA (id v : Byte) (s : State) : (afterWrite id v s).aluA = s.aluA := by
  unfold afterWrite; split
  · rfl
  · split <;> rfl

@[simp] theorem afterWrite_aluB (id v : Byte) (s : State) : (afterWrite id v s).aluB = s.aluB := by
  unfold afterWrite; split
  · rfl
  · split <;> rfl

@[simp] theorem afterWrite_aluR (id v : Byte) (s : State) : (afterWrite id v s).aluR = s.aluR := by
  unfold afterWrite; split
  · rfl
  · split <;> rfl

@[simp] theorem afterWrite_halted (id v : Byte) (s : State) : (afterWrite id v s).halted = s.halted := by
  unfold afterWrite; split
  · rfl
  · split <;> rfl

@[simp] theorem afterWrite_haltRecord (id v : Byte) (s : State) : (afterWrite id v s).haltRecord = s.haltRecord := by
  unfold afterWrite; split
  · rfl
  · split <;> rfl

@[simp] theorem afterWrite_reports (id v : Byte) (s : State) : (afterWrite id v s).reports = s.reports := by
  unfold afterWrite; split
  · rfl
  · split <;> rfl

@[simp] theorem afterWrite_freeIdx (id v : Byte) (s : State) : (afterWrite id v s).freeIdx = s.freeIdx := by
  unfold afterWrite; split
  · rfl
  · split <;> rfl

@[simp] theorem afterWrite_dbus (id v : Byte) (s : State) : (afterWrite id v s).dbus = v := by
  unfold afterWrite; split
  · rfl
  · split <;> rfl

/-- A register write changes the register it names and no other. -/
theorem afterWrite_reg (id v : Byte) (s : State) (j : Fin 8) :
    (afterWrite id v s).reg j = if id.toNat = j.val then v else s.reg j := by
  unfold afterWrite
  by_cases h : id.toNat < 8
  · rw [dif_pos h, State.reg_setReg]
    simp [Fin.ext_iff, State.reg]
  · have hj : id.toNat ≠ j.val := by omega
    rw [dif_neg h, if_neg hj]
    split <;> rfl

@[simp] theorem takeHalt_x (s : State) (c : HaltCause) : (s.takeHalt c).x = s.x := rfl

@[simp] theorem takeHalt_input (s : State) (c : HaltCause) : (s.takeHalt c).input = s.input := rfl

@[simp] theorem takeHalt_pc (s : State) (c : HaltCause) : (s.takeHalt c).pc = s.pc := rfl

@[simp] theorem takeHalt_flags (s : State) (c : HaltCause) : (s.takeHalt c).flags = s.flags := rfl

@[simp] theorem takeHalt_stk (s : State) (c : HaltCause) : (s.takeHalt c).stk = s.stk := rfl

@[simp] theorem takeHalt_depth (s : State) (c : HaltCause) : (s.takeHalt c).depth = s.depth := rfl

@[simp] theorem takeHalt_hdrHi (s : State) (c : HaltCause) : (s.takeHalt c).hdrHi = s.hdrHi := rfl

@[simp] theorem takeHalt_hdrLo (s : State) (c : HaltCause) : (s.takeHalt c).hdrLo = s.hdrLo := rfl

@[simp] theorem takeHalt_mem (s : State) (c : HaltCause) : (s.takeHalt c).mem = s.mem := rfl

@[simp] theorem takeHalt_fb (s : State) (c : HaltCause) : (s.takeHalt c).fb = s.fb := rfl

@[simp] theorem takeHalt_dbus (s : State) (c : HaltCause) : (s.takeHalt c).dbus = s.dbus := rfl

@[simp] theorem takeHalt_abus (s : State) (c : HaltCause) : (s.takeHalt c).abus = s.abus := rfl

@[simp] theorem takeHalt_abr (s : State) (c : HaltCause) : (s.takeHalt c).abr = s.abr := rfl

@[simp] theorem takeHalt_aluA (s : State) (c : HaltCause) : (s.takeHalt c).aluA = s.aluA := rfl

@[simp] theorem takeHalt_aluB (s : State) (c : HaltCause) : (s.takeHalt c).aluB = s.aluB := rfl

@[simp] theorem takeHalt_aluR (s : State) (c : HaltCause) : (s.takeHalt c).aluR = s.aluR := rfl

@[simp] theorem takeHalt_halted (s : State) (c : HaltCause) : (s.takeHalt c).halted = true := rfl

@[simp] theorem takeHalt_haltRecord (s : State) (c : HaltCause) : (s.takeHalt c).haltRecord = some c := rfl

@[simp] theorem takeHalt_reports (s : State) (c : HaltCause) : (s.takeHalt c).reports = s.reports := rfl

@[simp] theorem takeHalt_freeIdx (s : State) (c : HaltCause) : (s.takeHalt c).freeIdx = s.freeIdx := rfl

end Sys2Proof.Machine
end

