-- ==== Sys2Proof/Laws/Gpu.lean ====
section
/-! SUPPORT. The GPU primitives: what a draw does, and the pixels of a line. -/

namespace Sys2Proof.Machine

theorem pixelInRange_iff (x y : Int) : pixelInRange x y = true ↔ 0 ≤ x ∧ x ≤ 127 ∧ 0 ≤ y ∧ y ≤ 71 := by
  simp [pixelInRange, and_assoc]

theorem charInRange_iff (x y : Int) : charInRange x y = true ↔ 0 ≤ x ∧ x ≤ 15 ∧ 0 ≤ y ∧ y ≤ 8 := by
  simp [charInRange, and_assoc]

/-- `DrawPixel` never halts (R217). -/
theorem drawPixel_eq (x y : Int) (c : Byte) (s : State) : drawPixel x y c s = .done () (pixelDrawn c s (x, y)) := by
  unfold drawPixel pixelDrawn
  by_cases h : pixelInRange x y = true
  · have hr := (pixelInRange_iff x y).mp h
    rw [if_pos h, if_pos hr, fbWrite_of_lt]
    unfold fbSize
    omega
  · rw [if_neg h, if_neg (mt (pixelInRange_iff x y).mpr h)]
    rfl

/-- Drawing a list of pixels never halts. -/
theorem drawPixels_eq (l : List (Int × Int)) (c : Byte) (s : State) :
    drawPixels l c s = .done () (l.foldl (pixelDrawn c) s) := by
  induction l generalizing s with
  | nil => rfl
  | cons q rest ih => simp [drawPixels, drawPixel_eq, ih]

theorem drawLine_eq (x0 y0 x1 y1 : Int) (c : Byte) (s : State) :
    drawLine x0 y0 x1 y1 c s = .done () ((linePixels x0 y0 x1 y1).foldl (pixelDrawn c) s) :=
  drawPixels_eq _ _ _

/-- What drawing changes: the framebuffer or the reports, nothing else. -/
theorem pixelDrawn_frame (c : Byte) (s : State) (q : Int × Int) :
    pixelDrawn c s q = (s.setFb (pixelDrawn c s q).fb).setReports (pixelDrawn c s q).reports := by
  unfold pixelDrawn
  split <;> rfl

theorem foldl_pixelDrawn_frame (l : List (Int × Int)) (c : Byte) (s : State) :
    l.foldl (pixelDrawn c) s =
      (s.setFb (l.foldl (pixelDrawn c) s).fb).setReports (l.foldl (pixelDrawn c) s).reports := by
  induction l generalizing s with
  | nil => rfl
  | cons q rest ih =>
    rw [List.foldl_cons]
    generalize hu : pixelDrawn c s q = u
    have hs : u = (s.setFb u.fb).setReports u.reports := by
      rw [← hu]
      exact pixelDrawn_frame c s q
    have h := ih u
    generalize hv : rest.foldl (pixelDrawn c) u = v at h ⊢
    rw [h, hs]
    rfl

/-- The number of pixels a loop of n iterations draws. -/
@[simp] theorem length_linePixelsFrom (n L S num : Nat) (x y sx sy dxd dyd : Int) :
    (linePixelsFrom n L S num x y sx sy dxd dyd).length = n := by
  induction n generalizing num x y with
  | zero => rfl
  | succ n ih =>
    rw [linePixelsFrom]
    split <;> simp [ih]

/-- One iteration of the loop (R218): draw, then step both axes or the driving one. -/
theorem linePixelsFrom_succ (n L S num : Nat) (x y sx sy dxd dyd : Int) :
    linePixelsFrom (n + 1) L S num x y sx sy dxd dyd =
      (x, y) ::
        if num + S ≥ L then linePixelsFrom n L S (num + S - L) (x + sx) (y + sy) sx sy dxd dyd
        else linePixelsFrom n L S (num + S) (x + dxd) (y + dyd) sx sy dxd dyd := rfl

end Sys2Proof.Machine
end

