-- ==== Sys2Proof/Laws/Exec.lean ====
section
/-! SUPPORT. The shared operations behind the meanings in closed form, when their register operands can be used. -/

namespace Sys2Proof.Machine

/-! Register access does not look at the ALU latches or the data bus. -/

theorem afterRead_setAluA (id : Byte) (s : State) (a : Byte) :
    afterRead id (s.setAluA a) = (afterRead id s).setAluA a := by
  unfold afterRead
  split <;> rfl

theorem readValue_setAluA (id : Byte) (s : State) (a : Byte) : readValue id (s.setAluA a) = readValue id s := rfl

theorem readable_setAluA (id : Byte) (s : State) (a : Byte) : Readable id (s.setAluA a) ↔ Readable id s := Iff.rfl

theorem afterWrite_setDbus (id v w : Byte) (s : State) : afterWrite id v (s.setDbus w) = afterWrite id v s := rfl

/-- R129. -/
theorem binary_of_readable (op : Byte → Byte → Byte) {r1 r2 rOut : Byte} {s : State} (h1 : Readable r1 s)
    (h2 : Readable r2 (afterRead r1 s)) (h3 : Writable rOut (afterRead r2 (afterRead r1 s))) :
    binary op r1 r2 rOut s =
      .done () (afterWrite rOut (op (readValue r1 s) (readValue r2 (afterRead r1 s)))
        ((((afterRead r2 (afterRead r1 s)).setAluA (readValue r1 s)).setAluB (readValue r2 (afterRead r1 s))).setAluR
          (op (readValue r1 s) (readValue r2 (afterRead r1 s))))) := by
  rw [binary, regRead_of_readable h1, Run.andThen_done, regRead_of_readable ((readable_setAluA _ _ _).mpr h2),
    Run.andThen_done, afterRead_setAluA, readValue_setAluA, writeResult, regWrite_of_writable _ (by exact h3)]
  rfl

/-- R136. -/
theorem complement_of_readable {r rOut : Byte} {s : State} (h1 : Readable r s) (h2 : Writable rOut (afterRead r s)) :
    complement r rOut s =
      .done () (afterWrite rOut (aluNot (readValue r s))
        (((afterRead r s).setAluA (readValue r s)).setAluR (aluNot (readValue r s)))) := by
  rw [complement, regRead_of_readable h1, Run.andThen_done, writeResult, regWrite_of_writable _ (by exact h2)]
  rfl

/-- R133 with a literal amount. -/
theorem shiftRight_literal {p : Params} (hp : p.shiftNSource = .literal) {r rOut : Byte} (n : Byte) {s : State}
    (h1 : Readable r s) (h2 : Writable rOut (afterRead r s)) :
    shiftRight p r n rOut s =
      .done () (afterWrite rOut (aluRshift p (readValue r s) n)
        ((((afterRead r s).setAluA (readValue r s)).setAluB n).setAluR (aluRshift p (readValue r s) n))) := by
  rw [shiftRight, regRead_of_readable h1, Run.andThen_done, shiftAmount_literal hp, Run.andThen_done, writeResult,
    regWrite_of_writable _ (by exact h2)]
  rfl

/-- R134 with a literal amount. -/
theorem shiftLeft_literal {p : Params} (hp : p.shiftNSource = .literal) {r rOut : Byte} (n : Byte) {s : State}
    (h1 : Readable r s) (h2 : Writable rOut (afterRead r s)) :
    shiftLeft p r n rOut s =
      .done () (afterWrite rOut (leftShift p (readValue r s) n) (afterRead r s).freeLatches) := by
  rw [shiftLeft, regRead_of_readable h1, Run.andThen_done, shiftAmount_literal hp, Run.andThen_done,
    regWrite_of_writable _ (by exact h2)]
  rfl

/-- A right shift below 8 divides (R128). -/
theorem aluRshift_eq (p : Params) (a n : Byte) :
    aluRshift p a n =
      if n.toNat ≤ 7 then BitVec.ofNat 8 (a.toNat / 2 ^ n.toNat) else p.largeShift .rshift a n := by
  unfold aluRshift
  split
  · apply BitVec.eq_of_toNat_eq
    have hlt := Nat.lt_of_le_of_lt (Nat.div_le_self a.toNat (2 ^ n.toNat)) a.isLt
    rw [BitVec.toNat_ushiftRight, BitVec.toNat_ofNat, Nat.shiftRight_eq_div_pow, Nat.mod_eq_of_lt hlt]
  · rfl

/-- A left shift below 8 multiplies mod 256 (R134). -/
theorem leftShift_eq (p : Params) (a n : Byte) :
    leftShift p a n =
      if n.toNat ≤ 7 then BitVec.ofNat 8 (a.toNat * 2 ^ n.toNat % 256) else p.largeShift .lshift a n := by
  unfold leftShift
  split
  · apply BitVec.eq_of_toNat_eq
    simp [BitVec.toNat_shiftLeft, Nat.shiftLeft_eq]
  · rfl

/-- The compare gives the word of R151's table. -/
theorem aluCompare_eq (p : Params) (a b : Byte) : aluCompare p a b = flagWord p.cmpSigned a b := by
  unfold flagWord
  rcases cmpVal_trichotomy p a b with ⟨h, e⟩ | ⟨h, e⟩ | ⟨h, e⟩ <;> rw [e] <;> unfold cmpVal at h
  · rw [if_pos h]
  · rw [if_neg (by omega), if_pos h]
  · rw [if_neg (by omega), if_neg (by omega)]

/-- R152. -/
theorem compareRegs_of_readable (p : Params) {r1 r2 : Byte} {s : State} (h1 : Readable r1 s)
    (h2 : Readable r2 (afterRead r1 s)) :
    compareRegs p r1 r2 s =
      .done () ((((((afterRead r2 (afterRead r1 s)).setAluA (readValue r1 s)).setAluB
        (readValue r2 (afterRead r1 s))).setAluR (flagWord p.cmpSigned (readValue r1 s)
        (readValue r2 (afterRead r1 s)))).setDbus (flagWord p.cmpSigned (readValue r1 s)
        (readValue r2 (afterRead r1 s)))).setFlags (flagWord p.cmpSigned (readValue r1 s)
        (readValue r2 (afterRead r1 s)))) := by
  rw [← aluCompare_eq, compareRegs, regRead_of_readable h1, Run.andThen_done,
    regRead_of_readable ((readable_setAluA _ _ _).mpr h2), Run.andThen_done, afterRead_setAluA, readValue_setAluA]
  rfl

/-- R190: the byte copied, the buses at the destination, the scratch register the parameter names. -/
theorem copyByte_eq (p : Params) (hiA loA hiB loB : Byte) (s : State) :
    copyByte p hiA loA hiB loB s =
      .done () (((((s.setScratch p (s.mem.read (cat hiA loA).toNat)).setAbr (cat hiB loB)).setAbus (cat hiB loB)).setDbus
        (s.mem.read (cat hiA loA).toNat)).setMem (s.mem.write (cat hiB loB).toNat (s.mem.read (cat hiA loA).toNat))) := by
  rw [copyByte, busRead_eq, Run.andThen_done]
  simp only [busWrite_eq, absoluteAddress_eq]
  congr 1
  unfold State.setScratch
  split <;> apply State.ext <;> simp

/-- JIF is JMP or nothing (R172). -/
theorem jumpIf_eq (p : Params) (idx cmp : Byte) (s : State) :
    jumpIf p idx cmp s = if jifTaken p cmp s.flags then jumpThrough idx s else s := rfl

/-- The jump: header entry to `abr`, `abus` and the program counter (R171). -/
theorem jumpThrough_eq (idx : Byte) (s : State) :
    jumpThrough idx s =
      ((s.setAbr (hdrRead idx s)).setAbus (hdrRead idx s)).setPc (hdrRead idx s).toNat := rfl

/-- R222. -/
theorem pixelFromRegs_of_readable (p : Params) {rX rY rCol : Byte} {s : State} (h1 : Readable rX s)
    (h2 : Readable rY (afterRead rX s)) (h3 : Readable rCol (afterRead rY (afterRead rX s))) :
    pixelFromRegs p rX rY rCol s =
      drawPixel (coord p (readValue rX s)) (coord p (readValue rY (afterRead rX s)))
        (readValue rCol (afterRead rY (afterRead rX s))) (afterRead rCol (afterRead rY (afterRead rX s))) := by
  rw [pixelFromRegs, regRead_of_readable h1, Run.andThen_done, regRead_of_readable h2, Run.andThen_done,
    regRead_of_readable h3, Run.andThen_done]

/-- R224. -/
theorem charFromRegs_of_readable (p : Params) {rX rY rChar : Byte} {s : State} (h1 : Readable rX s)
    (h2 : Readable rY (afterRead rX s)) (h3 : Readable rChar (afterRead rY (afterRead rX s))) :
    charFromRegs p rX rY rChar s =
      drawChar (coord p (readValue rX s)) (coord p (readValue rY (afterRead rX s)))
        (readValue rChar (afterRead rY (afterRead rX s))) (afterRead rChar (afterRead rY (afterRead rX s))) := by
  rw [charFromRegs, regRead_of_readable h1, Run.andThen_done, regRead_of_readable h2, Run.andThen_done,
    regRead_of_readable h3, Run.andThen_done]

/-- `DrawChar` in its three cases (R219). -/
theorem drawChar_cases (x y : Int) (code : Byte) (s : State) :
    (charInRange x y = true ∧ y ≤ 1 ∧
        drawChar x y code s = .done () (s.setFb (s.fb.write (9216 + y * 128 + x).toNat code))) ∨
      (charInRange x y = true ∧ 2 ≤ y ∧
        drawChar x y code s = .halted (s.takeHalt (.memoryFault .framebuffer (9216 + y * 128 + x).toNat))) ∨
      (charInRange x y = false ∧ drawChar x y code s = .done () (report .char x y s)) := by
  unfold drawChar
  by_cases h : charInRange x y = true
  · have hr := (charInRange_iff x y).mp h
    rw [if_pos h]
    by_cases hy : y ≤ 1
    · exact .inl ⟨h, hy, fbWrite_of_lt _ _ (by unfold fbSize; omega)⟩
    · exact .inr (.inl ⟨h, by omega, fbWrite_of_le _ _ (by unfold fbSize; omega)⟩)
  · rw [if_neg h]
    exact .inr (.inr ⟨by simpa using h, rfl⟩)

end Sys2Proof.Machine
end

