-- ==== Sys2Proof/Laws/FinalFrame.lean ====
section
/-! SUPPORT. What a push, a register write, a header write and a draw leave alone, whichever way they end, one lemma per
field. -/

namespace Sys2Proof.Machine

@[simp] theorem push_final_input (v : Byte) (s : State) : (push v s).final.input = s.input := by
  unfold push; split <;> rfl

@[simp] theorem regWrite_final_input (d v : Byte) (s : State) : (regWrite d v s).final.input = s.input := by
  rcases regWrite_cases d v s with ⟨_, e⟩ | ⟨_, e⟩ <;> rw [e] <;> simp

@[simp] theorem push_final_pc (v : Byte) (s : State) : (push v s).final.pc = s.pc := by
  unfold push; split <;> rfl

@[simp] theorem regWrite_final_pc (d v : Byte) (s : State) : (regWrite d v s).final.pc = s.pc := by
  rcases regWrite_cases d v s with ⟨_, e⟩ | ⟨_, e⟩ <;> rw [e] <;> simp

@[simp] theorem push_final_flags (v : Byte) (s : State) : (push v s).final.flags = s.flags := by
  unfold push; split <;> rfl

@[simp] theorem regWrite_final_flags (d v : Byte) (s : State) : (regWrite d v s).final.flags = s.flags := by
  rcases regWrite_cases d v s with ⟨_, e⟩ | ⟨_, e⟩ <;> rw [e] <;> simp

@[simp] theorem push_final_hdrHi (v : Byte) (s : State) : (push v s).final.hdrHi = s.hdrHi := by
  unfold push; split <;> rfl

@[simp] theorem regWrite_final_hdrHi (d v : Byte) (s : State) : (regWrite d v s).final.hdrHi = s.hdrHi := by
  rcases regWrite_cases d v s with ⟨_, e⟩ | ⟨_, e⟩ <;> rw [e] <;> simp

@[simp] theorem push_final_hdrLo (v : Byte) (s : State) : (push v s).final.hdrLo = s.hdrLo := by
  unfold push; split <;> rfl

@[simp] theorem regWrite_final_hdrLo (d v : Byte) (s : State) : (regWrite d v s).final.hdrLo = s.hdrLo := by
  rcases regWrite_cases d v s with ⟨_, e⟩ | ⟨_, e⟩ <;> rw [e] <;> simp

@[simp] theorem push_final_mem (v : Byte) (s : State) : (push v s).final.mem = s.mem := by
  unfold push; split <;> rfl

@[simp] theorem regWrite_final_mem (d v : Byte) (s : State) : (regWrite d v s).final.mem = s.mem := by
  rcases regWrite_cases d v s with ⟨_, e⟩ | ⟨_, e⟩ <;> rw [e] <;> simp

@[simp] theorem push_final_fb (v : Byte) (s : State) : (push v s).final.fb = s.fb := by
  unfold push; split <;> rfl

@[simp] theorem regWrite_final_fb (d v : Byte) (s : State) : (regWrite d v s).final.fb = s.fb := by
  rcases regWrite_cases d v s with ⟨_, e⟩ | ⟨_, e⟩ <;> rw [e] <;> simp

@[simp] theorem push_final_abus (v : Byte) (s : State) : (push v s).final.abus = s.abus := by
  unfold push; split <;> rfl

@[simp] theorem regWrite_final_abus (d v : Byte) (s : State) : (regWrite d v s).final.abus = s.abus := by
  rcases regWrite_cases d v s with ⟨_, e⟩ | ⟨_, e⟩ <;> rw [e] <;> simp

@[simp] theorem push_final_abr (v : Byte) (s : State) : (push v s).final.abr = s.abr := by
  unfold push; split <;> rfl

@[simp] theorem regWrite_final_abr (d v : Byte) (s : State) : (regWrite d v s).final.abr = s.abr := by
  rcases regWrite_cases d v s with ⟨_, e⟩ | ⟨_, e⟩ <;> rw [e] <;> simp

@[simp] theorem push_final_aluA (v : Byte) (s : State) : (push v s).final.aluA = s.aluA := by
  unfold push; split <;> rfl

@[simp] theorem regWrite_final_aluA (d v : Byte) (s : State) : (regWrite d v s).final.aluA = s.aluA := by
  rcases regWrite_cases d v s with ⟨_, e⟩ | ⟨_, e⟩ <;> rw [e] <;> simp

@[simp] theorem push_final_aluB (v : Byte) (s : State) : (push v s).final.aluB = s.aluB := by
  unfold push; split <;> rfl

@[simp] theorem regWrite_final_aluB (d v : Byte) (s : State) : (regWrite d v s).final.aluB = s.aluB := by
  rcases regWrite_cases d v s with ⟨_, e⟩ | ⟨_, e⟩ <;> rw [e] <;> simp

@[simp] theorem push_final_aluR (v : Byte) (s : State) : (push v s).final.aluR = s.aluR := by
  unfold push; split <;> rfl

@[simp] theorem regWrite_final_aluR (d v : Byte) (s : State) : (regWrite d v s).final.aluR = s.aluR := by
  rcases regWrite_cases d v s with ⟨_, e⟩ | ⟨_, e⟩ <;> rw [e] <;> simp

@[simp] theorem push_final_reports (v : Byte) (s : State) : (push v s).final.reports = s.reports := by
  unfold push; split <;> rfl

@[simp] theorem regWrite_final_reports (d v : Byte) (s : State) : (regWrite d v s).final.reports = s.reports := by
  rcases regWrite_cases d v s with ⟨_, e⟩ | ⟨_, e⟩ <;> rw [e] <;> simp

@[simp] theorem push_final_freeIdx (v : Byte) (s : State) : (push v s).final.freeIdx = s.freeIdx := by
  unfold push; split <;> rfl

@[simp] theorem regWrite_final_freeIdx (d v : Byte) (s : State) : (regWrite d v s).final.freeIdx = s.freeIdx := by
  rcases regWrite_cases d v s with ⟨_, e⟩ | ⟨_, e⟩ <;> rw [e] <;> simp

@[simp] theorem drawChar_final_x (x y : Int) (v : Byte) (s : State) : (drawChar x y v s).final.x = s.x := by
  rcases drawChar_cases x y v s with ⟨_, _, e⟩ | ⟨_, _, e⟩ | ⟨_, e⟩ <;> rw [e] <;> rfl

@[simp] theorem pixelDrawn_x (v : Byte) (s : State) (q : Int × Int) : (pixelDrawn v s q).x = s.x := by
  rw [pixelDrawn_frame]; rfl

@[simp] theorem drawChar_final_input (x y : Int) (v : Byte) (s : State) : (drawChar x y v s).final.input = s.input := by
  rcases drawChar_cases x y v s with ⟨_, _, e⟩ | ⟨_, _, e⟩ | ⟨_, e⟩ <;> rw [e] <;> rfl

@[simp] theorem pixelDrawn_input (v : Byte) (s : State) (q : Int × Int) : (pixelDrawn v s q).input = s.input := by
  rw [pixelDrawn_frame]; rfl

@[simp] theorem drawChar_final_pc (x y : Int) (v : Byte) (s : State) : (drawChar x y v s).final.pc = s.pc := by
  rcases drawChar_cases x y v s with ⟨_, _, e⟩ | ⟨_, _, e⟩ | ⟨_, e⟩ <;> rw [e] <;> rfl

@[simp] theorem pixelDrawn_pc (v : Byte) (s : State) (q : Int × Int) : (pixelDrawn v s q).pc = s.pc := by
  rw [pixelDrawn_frame]; rfl

@[simp] theorem drawChar_final_flags (x y : Int) (v : Byte) (s : State) : (drawChar x y v s).final.flags = s.flags := by
  rcases drawChar_cases x y v s with ⟨_, _, e⟩ | ⟨_, _, e⟩ | ⟨_, e⟩ <;> rw [e] <;> rfl

@[simp] theorem pixelDrawn_flags (v : Byte) (s : State) (q : Int × Int) : (pixelDrawn v s q).flags = s.flags := by
  rw [pixelDrawn_frame]; rfl

@[simp] theorem drawChar_final_stk (x y : Int) (v : Byte) (s : State) : (drawChar x y v s).final.stk = s.stk := by
  rcases drawChar_cases x y v s with ⟨_, _, e⟩ | ⟨_, _, e⟩ | ⟨_, e⟩ <;> rw [e] <;> rfl

@[simp] theorem pixelDrawn_stk (v : Byte) (s : State) (q : Int × Int) : (pixelDrawn v s q).stk = s.stk := by
  rw [pixelDrawn_frame]; rfl

@[simp] theorem drawChar_final_depth (x y : Int) (v : Byte) (s : State) : (drawChar x y v s).final.depth = s.depth := by
  rcases drawChar_cases x y v s with ⟨_, _, e⟩ | ⟨_, _, e⟩ | ⟨_, e⟩ <;> rw [e] <;> rfl

@[simp] theorem pixelDrawn_depth (v : Byte) (s : State) (q : Int × Int) : (pixelDrawn v s q).depth = s.depth := by
  rw [pixelDrawn_frame]; rfl

@[simp] theorem drawChar_final_hdrHi (x y : Int) (v : Byte) (s : State) : (drawChar x y v s).final.hdrHi = s.hdrHi := by
  rcases drawChar_cases x y v s with ⟨_, _, e⟩ | ⟨_, _, e⟩ | ⟨_, e⟩ <;> rw [e] <;> rfl

@[simp] theorem pixelDrawn_hdrHi (v : Byte) (s : State) (q : Int × Int) : (pixelDrawn v s q).hdrHi = s.hdrHi := by
  rw [pixelDrawn_frame]; rfl

@[simp] theorem drawChar_final_hdrLo (x y : Int) (v : Byte) (s : State) : (drawChar x y v s).final.hdrLo = s.hdrLo := by
  rcases drawChar_cases x y v s with ⟨_, _, e⟩ | ⟨_, _, e⟩ | ⟨_, e⟩ <;> rw [e] <;> rfl

@[simp] theorem pixelDrawn_hdrLo (v : Byte) (s : State) (q : Int × Int) : (pixelDrawn v s q).hdrLo = s.hdrLo := by
  rw [pixelDrawn_frame]; rfl

@[simp] theorem drawChar_final_mem (x y : Int) (v : Byte) (s : State) : (drawChar x y v s).final.mem = s.mem := by
  rcases drawChar_cases x y v s with ⟨_, _, e⟩ | ⟨_, _, e⟩ | ⟨_, e⟩ <;> rw [e] <;> rfl

@[simp] theorem pixelDrawn_mem (v : Byte) (s : State) (q : Int × Int) : (pixelDrawn v s q).mem = s.mem := by
  rw [pixelDrawn_frame]; rfl

@[simp] theorem drawChar_final_dbus (x y : Int) (v : Byte) (s : State) : (drawChar x y v s).final.dbus = s.dbus := by
  rcases drawChar_cases x y v s with ⟨_, _, e⟩ | ⟨_, _, e⟩ | ⟨_, e⟩ <;> rw [e] <;> rfl

@[simp] theorem pixelDrawn_dbus (v : Byte) (s : State) (q : Int × Int) : (pixelDrawn v s q).dbus = s.dbus := by
  rw [pixelDrawn_frame]; rfl

@[simp] theorem drawChar_final_abus (x y : Int) (v : Byte) (s : State) : (drawChar x y v s).final.abus = s.abus := by
  rcases drawChar_cases x y v s with ⟨_, _, e⟩ | ⟨_, _, e⟩ | ⟨_, e⟩ <;> rw [e] <;> rfl

@[simp] theorem pixelDrawn_abus (v : Byte) (s : State) (q : Int × Int) : (pixelDrawn v s q).abus = s.abus := by
  rw [pixelDrawn_frame]; rfl

@[simp] theorem drawChar_final_abr (x y : Int) (v : Byte) (s : State) : (drawChar x y v s).final.abr = s.abr := by
  rcases drawChar_cases x y v s with ⟨_, _, e⟩ | ⟨_, _, e⟩ | ⟨_, e⟩ <;> rw [e] <;> rfl

@[simp] theorem pixelDrawn_abr (v : Byte) (s : State) (q : Int × Int) : (pixelDrawn v s q).abr = s.abr := by
  rw [pixelDrawn_frame]; rfl

@[simp] theorem drawChar_final_aluA (x y : Int) (v : Byte) (s : State) : (drawChar x y v s).final.aluA = s.aluA := by
  rcases drawChar_cases x y v s with ⟨_, _, e⟩ | ⟨_, _, e⟩ | ⟨_, e⟩ <;> rw [e] <;> rfl

@[simp] theorem pixelDrawn_aluA (v : Byte) (s : State) (q : Int × Int) : (pixelDrawn v s q).aluA = s.aluA := by
  rw [pixelDrawn_frame]; rfl

@[simp] theorem drawChar_final_aluB (x y : Int) (v : Byte) (s : State) : (drawChar x y v s).final.aluB = s.aluB := by
  rcases drawChar_cases x y v s with ⟨_, _, e⟩ | ⟨_, _, e⟩ | ⟨_, e⟩ <;> rw [e] <;> rfl

@[simp] theorem pixelDrawn_aluB (v : Byte) (s : State) (q : Int × Int) : (pixelDrawn v s q).aluB = s.aluB := by
  rw [pixelDrawn_frame]; rfl

@[simp] theorem drawChar_final_aluR (x y : Int) (v : Byte) (s : State) : (drawChar x y v s).final.aluR = s.aluR := by
  rcases drawChar_cases x y v s with ⟨_, _, e⟩ | ⟨_, _, e⟩ | ⟨_, e⟩ <;> rw [e] <;> rfl

@[simp] theorem pixelDrawn_aluR (v : Byte) (s : State) (q : Int × Int) : (pixelDrawn v s q).aluR = s.aluR := by
  rw [pixelDrawn_frame]; rfl

@[simp] theorem drawChar_final_freeIdx (x y : Int) (v : Byte) (s : State) : (drawChar x y v s).final.freeIdx = s.freeIdx := by
  rcases drawChar_cases x y v s with ⟨_, _, e⟩ | ⟨_, _, e⟩ | ⟨_, e⟩ <;> rw [e] <;> rfl

@[simp] theorem pixelDrawn_freeIdx (v : Byte) (s : State) (q : Int × Int) : (pixelDrawn v s q).freeIdx = s.freeIdx := by
  rw [pixelDrawn_frame]; rfl

@[simp] theorem hdrWrite_x (i hi lo : Byte) (s : State) : (hdrWrite i hi lo s).x = s.x := rfl
@[simp] theorem hdrWrite_input (i hi lo : Byte) (s : State) : (hdrWrite i hi lo s).input = s.input := rfl
@[simp] theorem hdrWrite_pc (i hi lo : Byte) (s : State) : (hdrWrite i hi lo s).pc = s.pc := rfl
@[simp] theorem hdrWrite_flags (i hi lo : Byte) (s : State) : (hdrWrite i hi lo s).flags = s.flags := rfl
@[simp] theorem hdrWrite_stk (i hi lo : Byte) (s : State) : (hdrWrite i hi lo s).stk = s.stk := rfl
@[simp] theorem hdrWrite_depth (i hi lo : Byte) (s : State) : (hdrWrite i hi lo s).depth = s.depth := rfl
@[simp] theorem hdrWrite_mem (i hi lo : Byte) (s : State) : (hdrWrite i hi lo s).mem = s.mem := rfl
@[simp] theorem hdrWrite_fb (i hi lo : Byte) (s : State) : (hdrWrite i hi lo s).fb = s.fb := rfl
@[simp] theorem hdrWrite_dbus (i hi lo : Byte) (s : State) : (hdrWrite i hi lo s).dbus = s.dbus := rfl
@[simp] theorem hdrWrite_abus (i hi lo : Byte) (s : State) : (hdrWrite i hi lo s).abus = s.abus := rfl
@[simp] theorem hdrWrite_abr (i hi lo : Byte) (s : State) : (hdrWrite i hi lo s).abr = s.abr := rfl
@[simp] theorem hdrWrite_aluA (i hi lo : Byte) (s : State) : (hdrWrite i hi lo s).aluA = s.aluA := rfl
@[simp] theorem hdrWrite_aluB (i hi lo : Byte) (s : State) : (hdrWrite i hi lo s).aluB = s.aluB := rfl
@[simp] theorem hdrWrite_aluR (i hi lo : Byte) (s : State) : (hdrWrite i hi lo s).aluR = s.aluR := rfl
@[simp] theorem hdrWrite_halted (i hi lo : Byte) (s : State) : (hdrWrite i hi lo s).halted = s.halted := rfl
@[simp] theorem hdrWrite_haltRecord (i hi lo : Byte) (s : State) : (hdrWrite i hi lo s).haltRecord = s.haltRecord := rfl
@[simp] theorem hdrWrite_reports (i hi lo : Byte) (s : State) : (hdrWrite i hi lo s).reports = s.reports := rfl
@[simp] theorem hdrWrite_freeIdx (i hi lo : Byte) (s : State) : (hdrWrite i hi lo s).freeIdx = s.freeIdx := rfl

@[simp] theorem setScratch_params (s : State) (v : Byte) : s.setScratch params v = s := rfl

@[simp] theorem advance_eq (s : State) : s.advance = s.setPc (s.pc + 1) := rfl

@[simp] theorem dropTop_eq (s : State) : s.dropTop = s.setDepth ⟨s.depth.val - 1, by omega⟩ := rfl

end Sys2Proof.Machine
end

