-- ==== Sys2Proof/Laws/Step.lean ====
section
/-! SUPPORT. Fetching, and what a step can do. -/

namespace Sys2Proof.Machine

theorem fetch_of_lt {s : State} (h : s.pc < memSize) : fetch s = .done (s.mem.read s.pc) (s.setPc (s.pc + 1)) := by
  simp [fetch, memRead_of_lt s h, State.advance]

theorem fetch_of_le {s : State} (h : memSize ≤ s.pc) : fetch s = .halted (s.takeHalt (.memoryFault .main s.pc)) := by
  simp [fetch, memRead_of_le s h]

/-- k bytes from the program counter up, when they all exist. -/
theorem fetchBytes_of_le (k : Nat) {s : State} (h : s.pc + k ≤ memSize) :
    fetchBytes k s = .done ((List.range k).map fun j => s.mem.read (s.pc + j)) (s.setPc (s.pc + k)) := by
  induction k generalizing s with
  | zero => rfl
  | succ k ih =>
    have hrest : (s.setPc (s.pc + 1)).pc + k ≤ memSize := by simp only [State.setPc_pc]; omega
    rw [fetchBytes, fetch_of_lt (by omega), Run.andThen_done, ih hrest, Run.andThen_done]
    simp only [State.setPc_pc, State.setPc_mem, List.range_succ_eq_map, List.map_cons, List.map_map]
    congr 1
    · simp only [Nat.add_zero, List.cons.injEq, true_and]
      exact List.map_congr_left fun j _ => congrArg s.mem.read (by simp only [Nat.succ_eq_add_one]; omega)
    · simp [State.setPc, Nat.add_assoc, Nat.add_comm 1 k]

/-- The fetch of k bytes halts at the end of memory when they do not all exist (D1). -/
theorem fetchBytes_of_lt (k : Nat) {s : State} (hp : s.pc ≤ memSize) (h : memSize < s.pc + k) :
    fetchBytes k s = .halted ((s.setPc memSize).takeHalt (.memoryFault .main memSize)) := by
  induction k generalizing s with
  | zero => omega
  | succ k ih =>
    by_cases hpc : s.pc = memSize
    · rw [fetchBytes, fetch_of_le (by omega), Run.andThen_halted, ← hpc]
      rfl
    · have hlt : s.pc < memSize := by omega
      have hp' : (s.setPc (s.pc + 1)).pc ≤ memSize := by simp only [State.setPc_pc]; omega
      have h' : memSize < (s.setPc (s.pc + 1)).pc + k := by simp only [State.setPc_pc]; omega
      rw [fetchBytes, fetch_of_lt hlt, Run.andThen_done, ih hp' h', Run.andThen_halted]
      rfl

theorem fetchInstr_of_le {s : State} (h : memSize ≤ s.pc) :
    fetchInstr s = .halted (s.takeHalt (.memoryFault .main s.pc)) := by
  rw [fetchInstr, fetch_of_le h, Run.andThen_halted]

theorem fetchInstr_of_unknown {s : State} (h : s.pc < memSize) (ho : Opcode.ofByte (s.mem.read s.pc) = none) :
    fetchInstr s = .halted ((s.setPc (s.pc + 1)).takeHalt (.unknownOpcode (s.mem.read s.pc) s.pc)) := by
  rw [fetchInstr, fetch_of_lt h, Run.andThen_done]
  simp only [ho]
  rfl

theorem fetchInstr_of_known {s : State} {o : Opcode} (h : s.pc < memSize)
    (ho : Opcode.ofByte (s.mem.read s.pc) = some o) (hk : s.pc + 1 + o.operandCount ≤ memSize) :
    fetchInstr s =
      .done (o.build ((List.range o.operandCount).map fun j => s.mem.read (s.pc + 1 + j)))
        (s.setPc (s.pc + 1 + o.operandCount)) := by
  rw [fetchInstr, fetch_of_lt h, Run.andThen_done]
  simp only [ho]
  rw [fetchBytes_of_le _ (by simpa using hk)]
  rfl

theorem fetchInstr_of_cut {s : State} {o : Opcode} (h : s.pc < memSize)
    (ho : Opcode.ofByte (s.mem.read s.pc) = some o) (hk : memSize < s.pc + 1 + o.operandCount) :
    fetchInstr s = .halted ((s.setPc memSize).takeHalt (.memoryFault .main memSize)) := by
  rw [fetchInstr, fetch_of_lt h, Run.andThen_done]
  simp only [ho]
  rw [fetchBytes_of_lt _ (by simp only [State.setPc_pc]; omega) (by simpa using hk)]
  rfl

/-- All that a fetch can do. -/
theorem fetchInstr_cases (s : State) :
    (memSize ≤ s.pc ∧ fetchInstr s = .halted (s.takeHalt (.memoryFault .main s.pc))) ∨
      (s.pc < memSize ∧ Opcode.ofByte (s.mem.read s.pc) = none ∧
        fetchInstr s = .halted ((s.setPc (s.pc + 1)).takeHalt (.unknownOpcode (s.mem.read s.pc) s.pc))) ∨
      (s.pc < memSize ∧ ∃ o, Opcode.ofByte (s.mem.read s.pc) = some o ∧ memSize < s.pc + 1 + o.operandCount ∧
        fetchInstr s = .halted ((s.setPc memSize).takeHalt (.memoryFault .main memSize))) ∨
      (s.pc < memSize ∧ ∃ o, Opcode.ofByte (s.mem.read s.pc) = some o ∧ s.pc + 1 + o.operandCount ≤ memSize ∧
        fetchInstr s =
          .done (o.build ((List.range o.operandCount).map fun j => s.mem.read (s.pc + 1 + j)))
            (s.setPc (s.pc + 1 + o.operandCount))) := by
  by_cases h : memSize ≤ s.pc
  · exact .inl ⟨h, fetchInstr_of_le h⟩
  · have hlt : s.pc < memSize := by omega
    cases ho : Opcode.ofByte (s.mem.read s.pc) with
    | none => exact .inr (.inl ⟨hlt, rfl, fetchInstr_of_unknown hlt ho⟩)
    | some o =>
      by_cases hk : s.pc + 1 + o.operandCount ≤ memSize
      · exact .inr (.inr (.inr ⟨hlt, o, rfl, hk, fetchInstr_of_known hlt ho hk⟩))
      · exact .inr (.inr (.inl ⟨hlt, o, rfl, by omega, fetchInstr_of_cut hlt ho (by omega)⟩))

section StepBy

variable {execute : Instr → State → Host.Outcome State Fault Refusal} {s t : State} {i : Instr}

theorem stepBy_of_halted (h : s.halted = true) : stepBy execute s = .next s := by
  simp [stepBy, h]

theorem stepBy_of_fetch_halted (h : s.halted = false) (hf : fetchInstr s = .halted t) : stepBy execute s = .next t := by
  simp [stepBy, h, hf]

theorem stepBy_of_fetch_done (h : s.halted = false) (hf : fetchInstr s = .done i t) : stepBy execute s = execute i t := by
  simp [stepBy, h, hf]

theorem step_of_halted (h : s.halted = true) : step s = .next s := stepBy_of_halted h

theorem step_of_fetch_halted (h : s.halted = false) (hf : fetchInstr s = .halted t) : step s = .next t :=
  stepBy_of_fetch_halted h hf

theorem step_of_fetch_done (h : s.halted = false) (hf : fetchInstr s = .done i t) : step s = exec i t :=
  stepBy_of_fetch_done h hf

/-- Execute parts that agree make steps that agree. -/
theorem stepBy_congr {execute' : Instr → State → Host.Outcome State Fault Refusal}
    (h : ∀ i s, execute i s = execute' i s) (s : State) : stepBy execute s = stepBy execute' s := by
  rw [show execute = execute' from funext fun i => funext (h i)]

end StepBy

/-! The machine is the one of `execUnder` at the default parameters. -/

theorem exec_eq_execUnder (i : Instr) (s : State) : exec i s = execUnder params i s := by
  cases i <;> rfl

theorem step_eq_stepUnder (s : State) : step s = stepUnder params s := stepBy_congr exec_eq_execUnder s

theorem hostStep_eq_hostStepUnder (e : HostEvent) (σ : Session) : hostStep e σ = hostStepUnder params e σ := by
  rw [hostStep, hostStepUnder, show step = stepUnder params from funext step_eq_stepUnder]

end Sys2Proof.Machine
end

