-- ==== Sys2Proof/Laws/ExecKeeps.lean ====
section
/-! SUPPORT. Once, over all instructions and all parameters, every update the execute part can make. P is a property of
the states an instruction passes through while it runs, Q one of the states a halt leaves: if the updates of an instruction
keep P and its halts give Q, the instruction ends in P or in Q. Frames (with Q the same as P), the invariant and the claims
about halts are instances of `execUnder_keeps`, and at the default parameters of `exec_keeps`. -/

namespace Sys2Proof.Machine

/-- The instructions that write the ALU latches. -/
def usesAlu (o : Opcode) : Prop :=
  o ∈ [Opcode.add, .sub, .mul, .and, .or, .xor, .not, .rshift, .lshift, .cmp]

/-- The instructions that put an address in the address-bus register. -/
def usesAbr (o : Opcode) : Prop := o ∈ [Opcode.lbl, .jmp, .jif, .mtr, .rtm, .mtm, .vtr, .rtv]

/-- The instructions that put a value on the data bus. -/
def usesDbus (o : Opcode) : Prop := o ∉ [Opcode.nop, .lbl, .jmp, .jif, .gmt]

/-- A run that goes on ends in P, one that halts in Q. -/
def Run.Ends {α : Type} (P Q : State → Prop) : Run α → Prop
  | .done _ s => P s
  | .halted s => Q s

@[simp] theorem Run.ends_self {α : Type} (P : State → Prop) (r : Run α) : r.Ends P P ↔ P r.final := by
  cases r <;> rfl

theorem Run.Ends.final {α : Type} {P Q : State → Prop} {r : Run α} (h : r.Ends P Q) : P r.final ∨ Q r.final := by
  cases r with
  | done a s => exact .inl h
  | halted s => exact .inr h

theorem Run.Ends.andThen {α β : Type} {P Q : State → Prop} {r : Run α} (h : r.Ends P Q) (k : α → State → Run β)
    (hk : ∀ a t, P t → (k a t).Ends P Q) : (r.andThen k).Ends P Q := by
  cases r with
  | done a s => exact hk a s h
  | halted s => exact h

/-- P is kept by every update that instruction i can make under parameters p, and every halt it can take leads from P
to Q. -/
structure ExecClosed (p : Params) (i : Instr) (P Q : State → Prop) : Prop where
  dbus : usesDbus i.opcode → ∀ s v, P s → P (s.setDbus v)
  drop : (10 : Byte) ∈ readsUnder p i → ∀ s, P s → 0 < s.depth.val → P s.dropTop
  readHalt : ∀ id s, id ∈ readsUnder p i → P s → ¬ Readable id s → Q (s.takeHalt (readCause id))
  write : ∀ d v s, i.dest = some d → P s → (regWrite d v s).Ends P Q
  push : i.opcode = .push → ∀ v s, P s → (push v s).Ends P Q
  alu : usesAlu i.opcode → ∀ s v, P s → P (s.setAluA v) ∧ P (s.setAluB v) ∧ P (s.setAluR v)
  free : i.opcode = .lshift → ∀ s n, P s → P (s.setFreeIdx n)
  flags : i.opcode = .cmp → ∀ s v, v = 0x19 ∨ v = 0x2A ∨ v = 0x34 → P s → P (s.setFlags v)
  abr : usesAbr i.opcode → ∀ s w, P s → P (s.setAbr w)
  abus : usesAbr i.opcode ∨ i.opcode = .mov → ∀ s w, P s → P (s.setAbus w)
  hdr : ∀ idx hi lo, i = .lbl idx hi lo → ∀ s, P s → P (hdrWrite idx hi lo s)
  jump : i.opcode = .jmp ∨ i.opcode = .jif → ∀ s n, P s → n < memSize → P (s.setPc n)
  advance : i.opcode = .mov → ∀ s, P s → s.pc < memSize → P s.advance
  pastEnd : i.opcode = .mov → ∀ s, P s → memSize ≤ s.pc → Q (s.takeHalt (.memoryFault .main s.pc))
  store : ∀ a v s, storeAddress i = some a → a < memSize → P s → P (s.setMem (s.mem.write a v))
  scratch : i.opcode = .mtm → ∀ s v, P s → P (s.setScratch p v)
  pixel : i.opcode = .pxl ∨ i.opcode = .line → ∀ s c q, P s → P (pixelDrawn c s q)
  char : i.opcode = .prt → ∀ s x y c, P s →
    (drawChar (coord p x) (coord p y) c s).Ends P Q
  sentinel : i = .nop → ∀ s, P s → Q (s.takeHalt (.nopSentinel (s.pc - 1)))

variable {p : Params} {i : Instr} {P Q : State → Prop}

/-- Whatever reads a register uses the data bus. -/
theorem usesDbus_of_mem_reads {id : Byte} (h : id ∈ readsUnder p i) : usesDbus i.opcode := by
  cases i <;> first | (simp [usesDbus, Instr.opcode]; done) | simp [readsUnder, Instr.sources, Instr.opcode] at h

theorem ExecClosed.read (h : ExecClosed p i P Q) {id : Byte} (hid : id ∈ readsUnder p i) {s : State} (hs : P s) :
    (regRead id s).Ends P Q := by
  have hb := usesDbus_of_mem_reads hid
  rcases regRead_cases id s with ⟨hr, e⟩ | ⟨hr, e⟩ <;> rw [e]
  · show P (afterRead id s)
    unfold afterRead
    by_cases h10 : id.toNat = 10
    · rw [if_pos h10]
      have : id = 10 := BitVec.eq_of_toNat_eq h10
      exact h.dbus hb _ _ (h.drop (this ▸ hid) _ hs (by rcases hr with hr | hr <;> omega))
    · rw [if_neg h10]
      exact h.dbus hb _ _ hs
  · exact h.readHalt id s hid hs hr

theorem ExecClosed.read_andThen (h : ExecClosed p i P Q) {β : Type} {id : Byte} (hid : id ∈ readsUnder p i) {s : State} (hs : P s)
    (k : Byte → State → Run β) (hk : ∀ a t, P t → (k a t).Ends P Q) : ((regRead id s).andThen k).Ends P Q :=
  (h.read hid hs).andThen _ hk

theorem ExecClosed.amount (h : ExecClosed p i P Q) (ho : i.opcode = .rshift ∨ i.opcode = .lshift) {n : Byte}
    (hn : operandAt i.operands 1 = n) {s : State} (hs : P s) : (shiftAmount p n s).Ends P Q := by
  cases hp : p.shiftNSource with
  | literal => rw [shiftAmount_literal hp]; exact hs
  | register =>
    rw [shiftAmount_register hp]
    exact h.read (by simp [readsUnder, ho, hp, hn]) hs

theorem ExecClosed.absolute (h : ExecClosed p i P Q) (ho : usesAbr i.opcode) (hi lo : Byte) {s : State} (hs : P s) :
    P (absoluteAddress hi lo s) :=
  h.abus (.inl ho) _ _ (h.abr ho _ _ hs)

theorem ExecClosed.variable (h : ExecClosed p i P Q) (ho : usesAbr i.opcode) (v : Byte) {s : State} (hs : P s) :
    P (variableAddress v s) := by
  rw [variableAddress_eq]
  exact h.abus (.inl ho) _ _ (h.abr ho _ _ hs)

theorem ExecClosed.busRead (h : ExecClosed p i P Q) (hb : usesDbus i.opcode) {s : State} (hs : P s) : (busRead s).Ends P Q := by
  rw [busRead_eq]
  exact h.dbus hb _ _ hs

theorem ExecClosed.busWrite (h : ExecClosed p i P Q) {s : State} (hs : P s) (ha : storeAddress i = some s.abus.toNat) :
    (busWrite s).Ends P Q := by
  rw [busWrite_eq]
  exact h.store _ _ _ ha s.abus.isLt hs

theorem ExecClosed.pixels (h : ExecClosed p i P Q) (ho : i.opcode = .pxl ∨ i.opcode = .line) (l : List (Int × Int)) (c : Byte)
    {s : State} (hs : P s) : P (l.foldl (pixelDrawn c) s) := by
  induction l generalizing s with
  | nil => exact hs
  | cons q rest ih => exact ih (h.pixel ho _ _ _ hs)

theorem ExecClosed.binary (h : ExecClosed p i P Q) {r1 r2 rOut : Byte} (h1 : r1 ∈ readsUnder p i) (h2 : r2 ∈ readsUnder p i)
    (hd : i.dest = some rOut) (ho : usesAlu i.opcode) (op : Byte → Byte → Byte) {s : State} (hs : P s) :
    (binary op r1 r2 rOut s).Ends P Q := by
  refine h.read_andThen h1 hs _ fun a t ht => h.read_andThen h2 (h.alu ho _ _ ht).1 _ fun b t ht => ?_
  exact h.write _ _ _ hd (h.dbus (usesDbus_of_mem_reads h1) _ _ (h.alu ho _ _ (h.alu ho _ _ ht).2.1).2.2)

theorem ExecClosed.jumpThrough (h : ExecClosed p i P Q) (ho : i.opcode = .jmp ∨ i.opcode = .jif) (idx : Byte) {s : State}
    (hs : P s) : P (jumpThrough idx s) := by
  have ha : usesAbr i.opcode := by rcases ho with ho | ho <;> simp [usesAbr, ho]
  rw [jumpThrough_eq]
  exact h.jump ho _ _ (h.abus (.inl ha) _ _ (h.abr ha _ _ hs)) (hdrRead idx s).isLt

/-- Every instruction ends in P or in Q. -/
theorem execUnder_keeps (h : ExecClosed p i P Q) {s t : State} (hs : P s) (he : execUnder p i s = .next t) : P t ∨ Q t := by
  cases i with
  | nop => cases he; exact .inr (h.sentinel rfl _ hs)
  | add r1 r2 rOut => cases he; exact (h.binary (by simp [readsUnder, Instr.sources]) (by simp [readsUnder, Instr.sources]) rfl (by simp [usesAlu, Instr.opcode]) _ hs).final
  | sub r1 r2 rOut => cases he; exact (h.binary (by simp [readsUnder, Instr.sources]) (by simp [readsUnder, Instr.sources]) rfl (by simp [usesAlu, Instr.opcode]) _ hs).final
  | mul r1 r2 rOut => cases he; exact (h.binary (by simp [readsUnder, Instr.sources]) (by simp [readsUnder, Instr.sources]) rfl (by simp [usesAlu, Instr.opcode]) _ hs).final
  | and r1 r2 rOut => cases he; exact (h.binary (by simp [readsUnder, Instr.sources]) (by simp [readsUnder, Instr.sources]) rfl (by simp [usesAlu, Instr.opcode]) _ hs).final
  | or r1 r2 rOut => cases he; exact (h.binary (by simp [readsUnder, Instr.sources]) (by simp [readsUnder, Instr.sources]) rfl (by simp [usesAlu, Instr.opcode]) _ hs).final
  | xor r1 r2 rOut => cases he; exact (h.binary (by simp [readsUnder, Instr.sources]) (by simp [readsUnder, Instr.sources]) rfl (by simp [usesAlu, Instr.opcode]) _ hs).final
  | not r rOut =>
    cases he
    have ho : usesAlu (Instr.not r rOut).opcode := by simp [usesAlu, Instr.opcode]
    exact (h.read_andThen (by simp [readsUnder, Instr.sources]) hs _ fun a t ht =>
      h.write _ _ _ rfl (h.dbus (by simp [usesDbus, Instr.opcode]) _ _ (h.alu ho _ _ (h.alu ho _ _ ht).1).2.2)).final
  | rshift r n rOut =>
    cases he
    have ho : usesAlu (Instr.rshift r n rOut).opcode := by simp [usesAlu, Instr.opcode]
    have hb : usesDbus (Instr.rshift r n rOut).opcode := by simp [usesDbus, Instr.opcode]
    refine (h.read_andThen (by simp [readsUnder, Instr.sources]) hs _ fun a t ht =>
      (h.amount (.inl rfl) rfl (h.alu ho _ _ ht).1).andThen _ fun b u hu => ?_).final
    exact h.write _ _ _ rfl (h.dbus hb _ _ (h.alu ho _ _ (h.alu ho _ _ (h.dbus hb _ _ hu)).2.1).2.2)
  | lshift r n rOut =>
    cases he
    have ho : usesAlu (Instr.lshift r n rOut).opcode := by simp [usesAlu, Instr.opcode]
    have hb : usesDbus (Instr.lshift r n rOut).opcode := by simp [usesDbus, Instr.opcode]
    refine (h.read_andThen (by simp [readsUnder, Instr.sources]) hs _ fun a t ht =>
      (h.amount (.inr rfl) rfl ht).andThen _ fun k u hu => ?_).final
    exact h.write _ _ _ rfl
      (h.dbus hb _ _ (h.free rfl _ _ (h.alu ho _ _ (h.alu ho _ _ (h.alu ho _ _ hu).1).2.1).2.2))
  | lbl idx hi lo =>
    cases he
    have ho : usesAbr (Instr.lbl idx hi lo).opcode := by simp [usesAbr, Instr.opcode]
    have e : (absoluteAddress hi lo s).abus = cat hi lo := rfl
    simp only [e, hiByte_cat, loByte_cat]
    exact .inl (h.hdr _ _ _ rfl _ (h.absolute ho hi lo hs))
  | jmp idx => cases he; exact .inl (h.jumpThrough (.inl rfl) idx hs)
  | jif idx cmp =>
    cases he
    rw [jumpIf_eq]
    split
    · exact .inl (h.jumpThrough (.inr rfl) idx hs)
    · exact .inl hs
  | mov rTo =>
    cases he
    refine (Run.Ends.andThen ?_ _ fun _ t ht => h.write _ _ _ rfl ht).final
    by_cases hp : s.pc < memSize
    · rw [fetchImmediate_of_lt hp]
      exact h.advance rfl _ (h.dbus (by simp [usesDbus, Instr.opcode]) _ _ (h.abus (.inr rfl) _ _ hs)) hp
    · rw [fetchImmediate_of_le (by omega)]
      exact h.pastEnd rfl _ hs (by omega)
  | push r =>
    cases he
    exact (h.read_andThen (by simp [readsUnder, Instr.sources]) hs _ fun a t ht => h.push rfl _ _ ht).final
  | rtr rFrom rTo =>
    cases he
    exact (h.read_andThen (by simp [readsUnder, Instr.sources]) hs _ fun a t ht => h.write _ _ _ rfl ht).final
  | mtr hi lo rTo =>
    cases he
    exact ((h.busRead (by simp [usesDbus, Instr.opcode]) (h.absolute (by simp [usesAbr, Instr.opcode]) hi lo hs)).andThen _
      fun _ t ht => h.write _ _ _ rfl ht).final
  | rtm r hi lo =>
    cases he
    exact (h.read_andThen (by simp [readsUnder, Instr.sources]) hs _ fun a t ht =>
      h.busWrite (h.absolute (by simp [usesAbr, Instr.opcode]) hi lo ht)
        (by simp [storeAddress, addressOf, absoluteAddress_eq])).final
  | mtm hiA loA hiB loB =>
    cases he
    have ho : usesAbr (Instr.mtm hiA loA hiB loB).opcode := by simp [usesAbr, Instr.opcode]
    exact ((h.busRead (by simp [usesDbus, Instr.opcode]) (h.absolute ho hiA loA hs)).andThen _ fun _ t ht =>
      h.busWrite (h.dbus (by simp [usesDbus, Instr.opcode]) _ _ (h.absolute ho hiB loB (h.scratch rfl _ _ ht)))
        (by simp [storeAddress, addressOf, absoluteAddress_eq])).final
  | vtr varId rTo =>
    simp only [execUnder, execVtr, Run.toOutcome_eq, Host.Outcome.next.injEq] at he
    subst he
    apply Run.Ends.final
    have hv := h.variable (by simp [usesAbr, Instr.opcode]) varId hs
    generalize variableAddress varId s = u at hv
    exact (h.busRead (by simp [usesDbus, Instr.opcode]) hv).andThen _ fun _ t ht => h.write _ _ _ rfl ht
  | rtv r varId =>
    simp only [execUnder, execRtv, Run.toOutcome_eq, Host.Outcome.next.injEq] at he
    subst he
    apply Run.Ends.final
    apply h.read_andThen (by simp [readsUnder, Instr.sources]) hs
    intro a t ht
    have hv := h.variable (by simp [usesAbr, Instr.opcode]) varId ht
    have ha : storeAddress (.rtv r varId) = some (variableAddress varId t).abus.toNat := by
      rw [variableAddress_abus, variable_toNat]
      rfl
    generalize variableAddress varId t = u at hv ha ⊢
    exact h.busWrite hv ha
  | ftr rTo => cases he; exact (h.write _ _ _ rfl (h.dbus (by simp [usesDbus, Instr.opcode]) _ _ hs)).final
  | cmp r1 r2 =>
    cases he
    have ho : usesAlu (Instr.cmp r1 r2).opcode := by simp [usesAlu, Instr.opcode]
    refine (h.read_andThen (by simp [readsUnder, Instr.sources]) hs _ fun a t ht =>
      h.read_andThen (by simp [readsUnder, Instr.sources]) (h.alu ho _ _ ht).1 _ fun b u hu => ?_).final
    exact h.flags rfl _ _ (aluCompare_words p _ _) (h.dbus (by simp [usesDbus, Instr.opcode]) _ _ (h.alu ho _ _ (h.alu ho _ _ hu).2.1).2.2)
  | pxl rX rY rCol =>
    cases he
    refine (h.read_andThen (by simp [readsUnder, Instr.sources]) hs _ fun a t ht =>
      h.read_andThen (by simp [readsUnder, Instr.sources]) ht _ fun b t ht =>
      h.read_andThen (by simp [readsUnder, Instr.sources]) ht _ fun c t ht => ?_).final
    rw [drawPixel_eq]
    exact h.pixel (.inl rfl) _ _ _ ht
  | line rX rY rX1 rY1 rCol =>
    cases he
    refine (h.read_andThen (by simp [readsUnder, Instr.sources]) hs _ fun a t ht =>
      h.read_andThen (by simp [readsUnder, Instr.sources]) ht _ fun b t ht =>
      h.read_andThen (by simp [readsUnder, Instr.sources]) ht _ fun c t ht =>
      h.read_andThen (by simp [readsUnder, Instr.sources]) ht _ fun d t ht =>
      h.read_andThen (by simp [readsUnder, Instr.sources]) ht _ fun e t ht => ?_).final
    rw [drawLine_eq]
    exact h.pixels (.inr rfl) _ _ ht
  | prt rX rY rChar =>
    cases he
    exact (h.read_andThen (by simp [readsUnder, Instr.sources]) hs _ fun a t ht =>
      h.read_andThen (by simp [readsUnder, Instr.sources]) ht _ fun b t ht =>
      h.read_andThen (by simp [readsUnder, Instr.sources]) ht _ fun c t ht => h.char rfl _ _ _ _ ht).final
  | gmt => cases he; exact .inl hs

/-- `execUnder_keeps` at the default parameters. -/
theorem exec_keeps (h : ExecClosed params i P Q) {s t : State} (hs : P s) (he : exec i s = .next t) : P t ∨ Q t :=
  execUnder_keeps h hs (exec_eq_execUnder i s ▸ he)

/-- A property that all updates and all halts of an instruction keep is kept by the instruction. -/
theorem exec_keeps_same (h : ExecClosed params i P P) {s t : State} (hs : P s) (he : exec i s = .next t) : P t :=
  (exec_keeps h hs he).elim id id

end Sys2Proof.Machine
end

