-- ==== Sys2Proof/Laws/Host.lean ====
section
/-! SUPPORT. Loading an image: what it answers, in its two cases. -/

namespace Sys2Proof.Machine

theorem loadImage_of_le {img : List Byte} (s : State) (h : img.length - 16 ≤ 65536) :
    loadImage img s = some (s.setMem (s.mem.writeBytes 0 (img.drop imageHeader))) := by
  rw [loadImage, loadAt, if_neg]
  simp only [List.length_drop, imageHeader, memSize]
  omega

theorem loadImage_of_lt {img : List Byte} (s : State) (h : 65536 < img.length - 16) : loadImage img s = none := by
  rw [loadImage, loadAt, if_pos]
  simp only [List.length_drop, imageHeader, memSize]
  omega

/-- A load is refused, or it is accepted and changes memory only. -/
theorem loadImage_cases (img : List Byte) (s : State) :
    (img.length - 16 ≤ 65536 ∧ loadImage img s = some (s.setMem (s.mem.writeBytes 0 (img.drop imageHeader)))) ∨
      (65536 < img.length - 16 ∧ loadImage img s = none) := by
  by_cases h : img.length - 16 ≤ 65536
  · exact .inl ⟨h, loadImage_of_le s h⟩
  · exact .inr ⟨by omega, loadImage_of_lt s (by omega)⟩

end Sys2Proof.Machine
end

