-- ==== Sys2Proof/Laws/PerInstr.lean ====
section
/-! SUPPORT. A statement about every instruction as it is written and encoded, one lemma per constructor. -/

namespace Sys2Proof.Laws.Shape

/-- The encoding starts with the row's opcode byte, has one byte per declared operand after it, and is no longer than the
instruction's length in memory (R90, R94, R95); every instruction is well formed (R101). -/
def Statement (i : Instr) : Prop :=
  (encode i).head? = some i.opcode.toByte ∧ (encode i).length = 1 + i.opcode.operandCount ∧
    (encode i).length ≤ i.opcode.length ∧ i.wellFormed = true

theorem nop : Statement .nop := ⟨rfl, rfl, by decide, rfl⟩
theorem add (a b c : Byte) : Statement (.add a b c) := ⟨rfl, rfl, by simp [encode, Instr.operands, Instr.opcode, Opcode.length, Opcode.operandCount], rfl⟩
theorem sub (a b c : Byte) : Statement (.sub a b c) := ⟨rfl, rfl, by simp [encode, Instr.operands, Instr.opcode, Opcode.length, Opcode.operandCount], rfl⟩
theorem mul (a b c : Byte) : Statement (.mul a b c) := ⟨rfl, rfl, by simp [encode, Instr.operands, Instr.opcode, Opcode.length, Opcode.operandCount], rfl⟩
theorem rshift (a b c : Byte) : Statement (.rshift a b c) := ⟨rfl, rfl, by simp [encode, Instr.operands, Instr.opcode, Opcode.length, Opcode.operandCount], rfl⟩
theorem lshift (a b c : Byte) : Statement (.lshift a b c) := ⟨rfl, rfl, by simp [encode, Instr.operands, Instr.opcode, Opcode.length, Opcode.operandCount], rfl⟩
theorem lbl (a b c : Byte) : Statement (.lbl a b c) := ⟨rfl, rfl, by simp [encode, Instr.operands, Instr.opcode, Opcode.length, Opcode.operandCount], rfl⟩
theorem jmp (a : Byte) : Statement (.jmp a) := ⟨rfl, rfl, by simp [encode, Instr.operands, Instr.opcode, Opcode.length, Opcode.operandCount], rfl⟩
theorem jif (a b : Byte) : Statement (.jif a b) := ⟨rfl, rfl, by simp [encode, Instr.operands, Instr.opcode, Opcode.length, Opcode.operandCount], rfl⟩
theorem mov (a : Byte) : Statement (.mov a) := ⟨rfl, rfl, by simp [encode, Instr.operands, Instr.opcode, Opcode.length], rfl⟩
theorem push (a : Byte) : Statement (.push a) := ⟨rfl, rfl, by simp [encode, Instr.operands, Instr.opcode, Opcode.length, Opcode.operandCount], rfl⟩
theorem rtr (a b : Byte) : Statement (.rtr a b) := ⟨rfl, rfl, by simp [encode, Instr.operands, Instr.opcode, Opcode.length, Opcode.operandCount], rfl⟩
theorem mtr (a b c : Byte) : Statement (.mtr a b c) := ⟨rfl, rfl, by simp [encode, Instr.operands, Instr.opcode, Opcode.length, Opcode.operandCount], rfl⟩
theorem rtm (a b c : Byte) : Statement (.rtm a b c) := ⟨rfl, rfl, by simp [encode, Instr.operands, Instr.opcode, Opcode.length, Opcode.operandCount], rfl⟩
theorem mtm (a b c d : Byte) : Statement (.mtm a b c d) := ⟨rfl, rfl, by simp [encode, Instr.operands, Instr.opcode, Opcode.length, Opcode.operandCount], rfl⟩
theorem vtr (a b : Byte) : Statement (.vtr a b) := ⟨rfl, rfl, by simp [encode, Instr.operands, Instr.opcode, Opcode.length, Opcode.operandCount], rfl⟩
theorem rtv (a b : Byte) : Statement (.rtv a b) := ⟨rfl, rfl, by simp [encode, Instr.operands, Instr.opcode, Opcode.length, Opcode.operandCount], rfl⟩
theorem ftr (a : Byte) : Statement (.ftr a) := ⟨rfl, rfl, by simp [encode, Instr.operands, Instr.opcode, Opcode.length, Opcode.operandCount], rfl⟩
theorem cmp (a b : Byte) : Statement (.cmp a b) := ⟨rfl, rfl, by simp [encode, Instr.operands, Instr.opcode, Opcode.length, Opcode.operandCount], rfl⟩
theorem and (a b c : Byte) : Statement (.and a b c) := ⟨rfl, rfl, by simp [encode, Instr.operands, Instr.opcode, Opcode.length, Opcode.operandCount], rfl⟩
theorem not (a b : Byte) : Statement (.not a b) := ⟨rfl, rfl, by simp [encode, Instr.operands, Instr.opcode, Opcode.length, Opcode.operandCount], rfl⟩
theorem or (a b c : Byte) : Statement (.or a b c) := ⟨rfl, rfl, by simp [encode, Instr.operands, Instr.opcode, Opcode.length, Opcode.operandCount], rfl⟩
theorem xor (a b c : Byte) : Statement (.xor a b c) := ⟨rfl, rfl, by simp [encode, Instr.operands, Instr.opcode, Opcode.length, Opcode.operandCount], rfl⟩
theorem pxl (a b c : Byte) : Statement (.pxl a b c) := ⟨rfl, rfl, by simp [encode, Instr.operands, Instr.opcode, Opcode.length, Opcode.operandCount], rfl⟩
theorem line (a b c d e : Byte) : Statement (.line a b c d e) := ⟨rfl, rfl, by simp [encode, Instr.operands, Instr.opcode, Opcode.length, Opcode.operandCount], rfl⟩
theorem prt (a b c : Byte) : Statement (.prt a b c) := ⟨rfl, rfl, by simp [encode, Instr.operands, Instr.opcode, Opcode.length, Opcode.operandCount], rfl⟩
theorem gmt : Statement .gmt := ⟨rfl, rfl, by decide, rfl⟩

end Sys2Proof.Laws.Shape
end

