-- ==== Sys2Proof/Machine/Assembly.lean ====
section
/-! DEFINITION. The spec's notation for instructions (30_encoding.md R103, D19): mnemonic, space, operands in encoding
order separated by commas. Notation only; no machine reads it. -/

namespace Sys2Proof.Machine

/-- A register-id operand: `r0` to `r7`, `in`, `stk`, or a plain number. -/
def regText (id : Byte) : String :=
  if id.toNat ≤ 7 then "r" ++ toString id.toNat
  else if id.toNat = 8 then "in"
  else if id.toNat = 10 then "stk"
  else toString id.toNat

/-- Any other operand: a decimal number. -/
def numText (v : Byte) : String := toString v.toNat

/-- `MNEMONIC a,b,c`, or the mnemonic alone. -/
def lineText (mnemonic : String) (operands : List String) : String :=
  if operands.isEmpty then mnemonic else mnemonic ++ " " ++ ",".intercalate operands

/-- R103's text of an instruction; `imm` is MOV's immediate, written as its second operand. -/
def asmText (i : Instr) (imm : Byte) : String :=
  match i with
  | .nop => lineText "NOP" []
  | .add r1 r2 rOut => lineText "ADD" [regText r1, regText r2, regText rOut]
  | .sub r1 r2 rOut => lineText "SUB" [regText r1, regText r2, regText rOut]
  | .mul r1 r2 rOut => lineText "MUL" [regText r1, regText r2, regText rOut]
  | .rshift r n rOut => lineText "RSHIFT" [regText r, numText n, regText rOut]
  | .lshift r n rOut => lineText "LSHIFT" [regText r, numText n, regText rOut]
  | .lbl idx hi lo => lineText "LBL" [numText idx, numText hi, numText lo]
  | .jmp idx => lineText "JMP" [numText idx]
  | .jif idx c => lineText "JIF" [numText idx, numText c]
  | .mov rTo => lineText "MOV" [regText rTo, numText imm]
  | .push r => lineText "PUSH" [regText r]
  | .rtr rFrom rTo => lineText "RTR" [regText rFrom, regText rTo]
  | .mtr hi lo rTo => lineText "MTR" [numText hi, numText lo, regText rTo]
  | .rtm r hi lo => lineText "RTM" [regText r, numText hi, numText lo]
  | .mtm hiA loA hiB loB => lineText "MTM" [numText hiA, numText loA, numText hiB, numText loB]
  | .vtr varId rTo => lineText "VTR" [numText varId, regText rTo]
  | .rtv r varId => lineText "RTV" [regText r, numText varId]
  | .ftr rTo => lineText "FTR" [regText rTo]
  | .cmp r1 r2 => lineText "CMP" [regText r1, regText r2]
  | .and r1 r2 rOut => lineText "AND" [regText r1, regText r2, regText rOut]
  | .not r rOut => lineText "NOT" [regText r, regText rOut]
  | .or r1 r2 rOut => lineText "OR" [regText r1, regText r2, regText rOut]
  | .xor r1 r2 rOut => lineText "XOR" [regText r1, regText r2, regText rOut]
  | .pxl rX rY rCol => lineText "PXL" [regText rX, regText rY, regText rCol]
  | .line rX rY rX1 rY1 rCol => lineText "LINE" [regText rX, regText rY, regText rX1, regText rY1, regText rCol]
  | .prt rX rY rChar => lineText "PRT" [regText rX, regText rY, regText rChar]
  | .gmt => lineText "GMT" []

end Sys2Proof.Machine
end

