-- ==== Sys2Proof/Tests/Slice0.lean ====
section
/-! SUPPORT. Tests. Expected results are those of spec/95_test_vectors.md (its vector numbers stand beside each test) and of
the tables of spec/30_encoding.md, read by hand. Then, for every obligation with hypotheses, a witness that meets them. -/

namespace Sys2Proof.Tests

open Sys2Proof Sys2Proof.Machine

/-- The reset state with code at address 0. -/
def code (bs : List Byte) : State := State.reset.setMem (Memory.writeBytes [] 0 bs)

/-- The reset state with one byte at the program counter given. -/
def codeAt (pc : Nat) (bs : List Byte) : State := (State.reset.setMem (Memory.writeBytes [] pc bs)).setPc pc

/-- The next state of a step (the state itself if there were none). -/
def next (s : State) : State :=
  match step s with
  | .next t => t
  | .fault _ => s
  | .refused _ => s

/-- Whether an outcome is a next state. -/
def isNext (o : Host.Outcome State Fault Refusal) : Bool :=
  match o with
  | .next _ => true
  | .fault _ => false
  | .refused _ => false

/-- A stack with these entries, bottom first. -/
def withStack (s : State) : List Byte → State
  | [] => s
  | v :: rest => withStack (push v s).final rest

/-! Register ids: an ill-formed term for each check of `Instr.idsValid`. -/

theorem test_ids_source_9_refused : (Instr.push 9).idsValid = false := by decide
theorem test_ids_source_11_refused : (Instr.add 0 11 0).idsValid = false := by decide
theorem test_ids_source_255_refused : (Instr.line 0 0 0 0 255).idsValid = false := by decide
theorem test_ids_dest_8_refused : (Instr.mov 8).idsValid = false := by decide
theorem test_ids_dest_9_refused : (Instr.ftr 9).idsValid = false := by decide
theorem test_ids_dest_11_refused : (Instr.not 0 11).idsValid = false := by decide
theorem test_ids_boundary_accepted : (Instr.rtr 8 7).idsValid = true ∧ (Instr.rtr 10 10).idsValid = true := by decide
theorem test_well_formed_takes_every_operand : (Instr.add 9 255 8).wellFormed = true := by decide

/-! Decoding: words written out from the encoding column of 30_encoding.md R97, one for every constructor. -/

theorem test_decode_arith :
    decode [0b00000001, 1, 2, 3] = .ok (.add 1 2 3, []) ∧ decode [0b00000010, 2, 1, 3] = .ok (.sub 2 1 3, []) ∧
    decode [0b00000011, 0, 1, 4] = .ok (.mul 0 1 4, []) ∧ decode [0b00000100, 0, 7, 2] = .ok (.rshift 0 7 2, []) ∧
    decode [0b00000101, 0, 3, 1] = .ok (.lshift 0 3 1, []) := by decide

theorem test_decode_logic :
    decode [0b00010011, 0, 1, 6] = .ok (.and 0 1 6, []) ∧ decode [0b00010100, 2, 3] = .ok (.not 2 3, []) ∧
    decode [0b00010101, 1, 2, 7] = .ok (.or 1 2 7, []) ∧ decode [0b00010110, 0, 1, 5] = .ok (.xor 0 1 5, []) := by decide

theorem test_decode_compare :
    decode [0b00010010, 0, 1] = .ok (.cmp 0 1, []) ∧ decode [0b00010001, 7] = .ok (.ftr 7, []) := by decide

theorem test_decode_control :
    decode [0b00000000] = .ok (.nop, []) ∧ decode [0b00000110, 5, 0x12, 0x34] = .ok (.lbl 5 0x12 0x34, []) ∧
    decode [0b00000111, 5] = .ok (.jmp 5, []) ∧ decode [0b00001000, 1, 6] = .ok (.jif 1 6, []) := by decide

theorem test_decode_move :
    decode [0b00001001, 0, 0x2A] = .ok (.mov 0, [0x2A]) ∧ decode [0b00001010, 5] = .ok (.push 5, []) ∧
    decode [0b00001011, 1, 6] = .ok (.rtr 1 6, []) ∧ decode [0b00001100, 0x12, 0x35, 4] = .ok (.mtr 0x12 0x35 4, []) ∧
    decode [0b00001101, 3, 0x12, 0x34] = .ok (.rtm 3 0x12 0x34, []) ∧
    decode [0b00001110, 0x12, 0x34, 0x12, 0x35] = .ok (.mtm 0x12 0x34 0x12 0x35, []) ∧
    decode [0b00001111, 7, 5] = .ok (.vtr 7 5, []) ∧ decode [0b00010000, 4, 7] = .ok (.rtv 4 7, []) := by decide

theorem test_decode_gpu :
    decode [0b01010000, 0, 1, 2] = .ok (.pxl 0 1 2, []) ∧
    decode [0b01010001, 0, 1, 2, 3, 4] = .ok (.line 0 1 2 3 4, []) ∧
    decode [0b01010010, 0, 0, 6] = .ok (.prt 0 0 6, []) ∧ decode [0b01010011] = .ok (.gmt, []) := by decide

/-- E7 and R98: the bytes beside the two holes of the opcode map. -/
theorem test_decode_unknown :
    decode [0x17] = .error (.unknownOpcode 0x17) ∧ decode [0x4F] = .error (.unknownOpcode 0x4F) ∧
    decode [0x54] = .error (.unknownOpcode 0x54) ∧ decode [0xFF] = .error (.unknownOpcode 0xFF) ∧
    decode [0x01, 1, 2] = .error .truncated ∧ decode [] = .error .truncated := by decide

theorem test_table_word :
    decodeTableWord 48 0x510001020304 = some (.line 0 1 2 3 4) ∧ decodeTableWord 8 0x53 = some .gmt ∧
    decodeTableWord 24 0x09002A = some (.mov 0) ∧ decodeTableWord 8 0x17 = none ∧
    decodeTableWord 32 0x01000000 = some (.add 0 0 0) ∧ decodeTableWord 32 0x00000001 = some (.add 0 0 0) := by decide

theorem test_fetch_word : next (State.reset.withFetchWord 24 0x09052A) = next (code [0x09, 5, 0x2A]) := by decide

/-- R103's notation. -/
theorem test_asm : asmText (.rtr 10 6) 0 = "RTR stk,r6" ∧ asmText (.mov 0) 42 = "MOV r0,42" := by decide

/-! One step each. -/

/-- S13, E8. -/
theorem test_nop : next (code [0]) = ((code [0]).setPc 1).setHalt true (some (.nopSentinel 0)) := by decide

/-- S4. -/
theorem test_add_wraps : (next (((code [1, 1, 2, 3]).setReg 1 200).setReg 2 100)).reg 3 = 44 := by decide

/-- A13: two id-10 sources; the first pop is operand A. -/
theorem test_sub_pops_in_order :
    let t := next (withStack (code [2, 10, 10, 0]) [3, 10])
    t.reg 0 = 7 ∧ t.depth = 0 := by decide

/-- A7. -/
theorem test_sub_wraps : (next (((code [2, 0, 1, 2]).setReg 0 100).setReg 1 200)).reg 2 = 0x9C := by decide

/-- A10. -/
theorem test_mul_low_byte : (next (((code [3, 0, 1, 4]).setReg 0 200).setReg 1 100)).reg 4 = 0x20 := by decide

/-- A14, A15: the source is read first, so the empty stack is the cause, not the bad destination. -/
theorem test_add_first_halt : (next (code [1, 10, 0, 9])).haltRecord = some .stackUnderflow := by decide

/-- E9. -/
theorem test_add_bad_destination :
    let t := next (code [1, 0, 0, 9])
    t.haltRecord = some (.busFault .write 9) ∧ t.pc = 4 := by decide

/-- S6. -/
theorem test_rshift_zero_fill : (next ((code [4, 0, 1, 1]).setReg 0 128)).reg 1 = 64 := by decide

/-- A3. -/
theorem test_rshift_8 : (next ((code [4, 0, 8, 1]).setReg 0 0xFF)).reg 1 = 0 := by decide

/-- S5. -/
theorem test_lshift : (next ((code [5, 0, 3, 1]).setReg 0 1)).reg 1 = 8 := by decide

/-- A5. -/
theorem test_lshift_7 : (next ((code [5, 0, 7, 1]).setReg 0 0xFF)).reg 1 = 0x80 := by decide

/-- A12. -/
theorem test_logic :
    (next (((code [0x13, 0, 1, 2]).setReg 0 0xF0).setReg 1 0x3C)).reg 2 = 0x30 ∧
    (next (((code [0x15, 0, 1, 2]).setReg 0 0xF0).setReg 1 0x3C)).reg 2 = 0xFC ∧
    (next (((code [0x16, 0, 1, 2]).setReg 0 0xF0).setReg 1 0x3C)).reg 2 = 0xCC := by decide

/-- 40_alu_ops.md R136's example. -/
theorem test_not : (next ((code [0x14, 2, 3]).setReg 2 0x0F)).reg 3 = 0xF0 := by decide

/-- F1, F2. -/
theorem test_cmp :
    (next (((code [0x12, 0, 1]).setReg 0 3).setReg 1 3)).flags = 0x19 ∧
    (next (((code [0x12, 0, 1]).setReg 0 200).setReg 1 100)).flags = 0x2A ∧
    (next (((code [0x12, 0, 1]).setReg 0 100).setReg 1 200)).flags = 0x34 := by decide

/-- F2 under `CMP_SIGNED = true`. -/
theorem test_cmp_signed : aluCompare { params with cmpSigned := true } 200 100 = 0x34 := by decide

/-- F6, F7. -/
theorem test_ftr :
    (next ((code [0x11, 10]).setFlags 0x19)).stackContents = [0x19] ∧
    (next (code [0x11, 8])).haltRecord = some (.busFault .write 8) := by decide

/-- S7. -/
theorem test_lbl_jmp :
    let s := next (code [6, 5, 0x12, 0x34, 7, 5])
    s.hdrHi = [(5, 0x12)] ∧ s.hdrLo = [(5, 0x34)] ∧ (next s).pc = 0x1234 := by decide

/-- J3: cmp 6 and 9 not taken, 3 taken; flags 0x19, entry 1 at 0x0020. -/
theorem test_jif :
    let s := fun c : Byte => ((code [8, 1, c]).setFlags 0x19).setHdr [] [(1, 0x20)]
    (next (s 6)).pc = 3 ∧ (next (s 9)).pc = 3 ∧ (next (s 3)).pc = 0x20 := by decide

/-- E2. -/
theorem test_mov :
    let t := next (code [9, 0, 0x2A])
    t.reg 0 = 0x2A ∧ t.pc = 3 := by decide

/-- M5, M6. -/
theorem test_mov_halts :
    (next (codeAt 0xFFFE [9, 0])).haltRecord = some (.memoryFault .main 65536) ∧
    (next (code [9, 8, 1])).haltRecord = some (.busFault .write 8) ∧ (next (code [9, 8, 1])).pc = 3 := by decide

/-- 43_data_movement.md R186's example; M7. -/
theorem test_push :
    (next ((code [0x0A, 5]).setReg 5 7)).stackContents = [7] ∧
    (next (withStack (code [0x0A, 10]) [5])).stackContents = [5] := by decide

/-- P5: the ninth PUSH. -/
theorem test_push_overflow :
    let t := next ((withStack (code [0x0A, 0]) [7, 7, 7, 7, 7, 7, 7, 7]).setReg 0 7)
    t.haltRecord = some (.stackOverflow 7) ∧ t.sp = 7 := by decide

/-- S1; F5's first instruction. -/
theorem test_rtr :
    (next ((code [0x0B, 1, 6]).setReg 1 9)).reg 6 = 9 ∧ (next ((code [0x0B, 8, 0]).setInput 0x15)).reg 0 = 0x15 := by decide

/-- 43_data_movement.md R188's example. -/
theorem test_mtr :
    (next ((code [0x0C, 0x12, 0x35, 4]).setMem ((code [0x0C, 0x12, 0x35, 4]).mem.write 0x1235 0x2A))).reg 4 = 0x2A := by
  decide

/-- R189's example. -/
theorem test_rtm : (next ((code [0x0D, 3, 0x12, 0x34]).setReg 3 0x2A)).mem.read 0x1234 = 0x2A := by decide

/-- R190's example. -/
theorem test_mtm :
    let c := code [0x0E, 0x12, 0x34, 0x12, 0x35]
    (next (c.setMem (c.mem.write 0x1234 0x2A))).mem.read 0x1235 = 0x2A := by decide

/-- R191's example; S8. -/
theorem test_vtr_rtv :
    (next ((code [0x0F, 7, 5]).setMem ((code [0x0F, 7, 5]).mem.write 0xFFF8 0x2A))).reg 5 = 0x2A ∧
    (next ((code [0x10, 4, 7]).setReg 4 0x2A)).mem.read 0xFFF8 = 0x2A := by decide

/-- S10, S9. -/
theorem test_pxl :
    (next ((((code [0x50, 0, 1, 2]).setReg 0 5).setReg 1 5).setReg 2 0xE0)).fb = [(645, 0xE0)] ∧
    (next (((code [0x50, 5, 1, 4]).setReg 5 200).setReg 4 0xE0)).reports = [⟨.pixel, 200, 0⟩] := by decide

/-- S11. -/
theorem test_line :
    (next ((((code [0x51, 0, 1, 2, 3, 4]).setReg 2 4).setReg 3 2).setReg 4 0xE0)).fb =
      [(0, 0xE0), (129, 0xE0), (130, 0xE0), (259, 0xE0), (260, 0xE0)] := by decide

/-- G1 to G4. -/
theorem test_line_pixels :
    linePixels 4 2 0 0 = [(4, 2), (3, 1), (2, 1), (1, 0), (0, 0)] ∧
    linePixels 0 0 2 5 = [(0, 0), (0, 1), (1, 2), (1, 3), (2, 4), (2, 5)] ∧
    linePixels 3 0 0 3 = [(3, 0), (2, 1), (1, 2), (0, 3)] ∧ linePixels 3 3 3 3 = [(3, 3)] := by decide

/-- G7, G8. -/
theorem test_prt :
    (next ((((code [0x52, 0, 1, 2]).setReg 0 15).setReg 1 1).setReg 2 0x42)).fb = [(9359, 0x42)] ∧
    (next ((code [0x52, 1, 0, 1]).setReg 0 2)).haltRecord = some (.memoryFault .framebuffer 9472) := by decide

/-- G9. -/
theorem test_prt_report : (next ((code [0x52, 0, 1, 2]).setReg 0 16)).reports = [⟨.char, 16, 0⟩] := by decide

/-- G12. -/
theorem test_gmt : next (code [0x53]) = (code [0x53]).setPc 1 := by decide

/-- X2. -/
theorem test_unknown_at_the_end :
    (next (codeAt 0xFFFF [0x17])).haltRecord = some (.unknownOpcode 0x17 0xFFFF) := by decide

/-- S12, X5, X6's bound at the small end. -/
theorem test_load :
    (loadImage (List.replicate 16 0xAA ++ [9, 0, 0x2A, 0]) State.reset).map State.mem =
      some [(0, 9), (2, 0x2A)] ∧
    loadImage (List.replicate 16 0xAA) State.reset = some State.reset := by decide

/-- 10_state.md R25: bit 0 is left, bit 7 is S. -/
theorem test_buttons :
    (State.reset.setInput 0x81).pressed .left = true ∧ (State.reset.setInput 0x81).pressed .s = true ∧
    (State.reset.setInput 0x81).pressed .a = false := by decide

/-- 44_gpu.md R216: 0xE0 is red 7. -/
theorem test_colour : colourRed 0xE0 = 7 ∧ colourGreen 0xE0 = 0 ∧ colourBlue 0xE3 = 3 := by decide

/-! Witnesses: for every obligation with hypotheses, a state and operands that meet them, clause by clause. -/

theorem witness_UnknownOpcodesHalt :
    (code [0x17]).halted = false ∧ (code [0x17]).pc < 65536 ∧
    Opcode.ofByte ((code [0x17]).mem.read (code [0x17]).pc) = none ∧
    Opcode.ofByte 0x4F = none ∧ Opcode.ofByte 0x54 = none ∧ Opcode.ofByte 0xFF = none ∧
    Opcode.ofByte 0x16 = some .xor ∧ Opcode.ofByte 0x50 = some .pxl ∧ Opcode.ofByte 0x53 = some .gmt := by decide

theorem witness_StepRunsTheDecodedInstruction :
    BytesAt (code [0x0B, 1, 6]) 0 [0x0B, 1, 6] ∧ decode [0x0B, 1, 6] = .ok (.rtr 1 6, []) ∧
    (code [0x0B, 1, 6]).halted = false :=
  ⟨⟨by decide, by decide⟩, by decide, by decide⟩

theorem witness_FetchPastTheEndHalts :
    ((State.reset.setPc 65536).halted = false ∧ 65536 ≤ (State.reset.setPc 65536).pc) ∧
    (let s := codeAt 0xFFFF [1]
     s.halted = false ∧ s.pc < 65536 ∧ Opcode.ofByte (s.mem.read s.pc) = some .add ∧
       65536 < s.pc + 1 + Opcode.add.operandCount) := by decide

theorem witness_HaltedCoreNeverMoves : (State.reset.setHalt true (some .stackUnderflow)).halted = true := by decide

theorem witness_PcAdvancesByTheLength :
    let s := code [9, 0, 0x2A]
    s.halted = false ∧ Opcode.ofByte (s.mem.read s.pc) = some .mov ∧ Opcode.mov ≠ .jmp ∧ Opcode.mov ≠ .jif ∧
      (next s).halted = false ∧ step s = .next (next s) :=
  ⟨by decide, by decide, by decide, by decide, by decide, rfl⟩

theorem witness_BinaryInstructionsComplete :
    let s := withStack State.reset [3, 10]
    Readable 10 s ∧ Readable 10 (afterRead 10 s) ∧ Writable 10 (afterRead 10 (afterRead 10 s)) ∧
      Readable 8 s ∧ Writable 7 (afterRead 8 s) := by decide

theorem witness_NotCompletes : Readable 0 State.reset ∧ Writable 10 (afterRead 0 State.reset) := by decide

/-- Amounts 7 and 8, on the two sides of the bound. -/
theorem witness_ShiftsComplete :
    Readable 0 State.reset ∧ Writable 1 (afterRead 0 State.reset) ∧ (7 : Byte).toNat ≤ 7 ∧ ¬ (8 : Byte).toNat ≤ 7 := by
  decide

/-- A literal amount, a register amount on both sides of `Readable`, an unreadable r. -/
theorem witness_ShiftsUnderEveryParameter :
    let p := { params with shiftNSource := .register }
    (Readable 0 State.reset ∧ params.shiftNSource = .literal) ∧
      (Readable 0 State.reset ∧ p.shiftNSource = .register ∧ Readable 8 (afterRead 0 State.reset)) ∧
      (Readable 0 State.reset ∧ p.shiftNSource = .register ∧ ¬ Readable 9 (afterRead 0 State.reset)) ∧
      ¬ Readable 10 State.reset := by decide

theorem witness_ParametersAreTheDefaults :
    (Instr.ftr 0).opcode ∉ [Opcode.cmp, .rshift, .lshift, .jif, .mtm, .pxl, .line, .prt] := by
  decide

theorem witness_CompareCompletes :
    Readable 8 State.reset ∧ Readable 7 (afterRead 8 State.reset) ∧
    (let s := withStack State.reset [1, 2]
     Readable 10 s ∧ Readable 10 (afterRead 10 s)) := by decide

theorem witness_OnlyCmpWritesFlags :
    (Instr.ftr 0).opcode ≠ .cmp ∧ isNext (exec (.ftr 0) State.reset) = true ∧
    (let s := code [0x12, 0, 0]
     (next s).flags ≠ s.flags ∧ step s = .next (next s)) :=
  ⟨by decide, by decide, by decide, rfl⟩

theorem witness_FtrCopiesFlags : Writable 7 State.reset ∧ ¬ Writable 8 State.reset := by decide

theorem witness_NopHaltsWithTheSentinel :
    State.reset.halted = false ∧ State.reset.pc < 65536 ∧ State.reset.mem.read State.reset.pc = 0 := by decide

theorem witness_JifTestsTheFlagsBit :
    (7 : Byte).toNat ≤ 7 ∧ (State.reset.setFlags 0x80).flags.getLsbD 7 = true ∧
      State.reset.flags.getLsbD 7 = false ∧ 8 ≤ (8 : Byte).toNat := by decide

/-- The three relations, at the ends of the byte range. -/
theorem witness_JifAgreesWithTheLastCompare :
    let s := State.reset.setReg 1 255
    Readable 0 s ∧ Readable 1 (afterRead 0 s) ∧ isNext (exec (.cmp 0 1) s) = true ∧
      byteVal params.cmpSigned (readValue 0 s) = byteVal params.cmpSigned (readValue 0 (afterRead 0 s)) ∧
      byteVal params.cmpSigned (readValue 1 s) > byteVal params.cmpSigned (readValue 0 (afterRead 1 s)) ∧
      byteVal params.cmpSigned (readValue 0 s) < byteVal params.cmpSigned (readValue 1 (afterRead 0 s)) := by decide

theorem witness_JumpGoesToTheMostRecentLabel :
    (5 : Byte) ≠ 6 ∧
      exec (.lbl 5 0x12 0x34) State.reset = .next (next (code [6, 5, 0x12, 0x34]) |>.setMem [] |>.setPc 0) ∧
      isNext (exec (.lbl 6 0 0) (next (code [6, 5, 0x12, 0x34]) |>.setMem [] |>.setPc 0)) = true :=
  ⟨by decide, rfl, by decide⟩

theorem witness_MovLoadsTheByteAtPc :
    (State.reset.setPc 65535).pc < 65536 ∧ Writable 0 (State.reset.setPc 65535) ∧
      ¬ Writable 8 (State.reset.setPc 65535) ∧ 65536 ≤ (State.reset.setPc 65536).pc := by decide

theorem witness_PushPushesTheRegister :
    let full := withStack State.reset [1, 2, 3, 4, 5, 6, 7, 8]
    ((afterRead 10 full).depth.val < 8 ∧ Readable 10 full) ∧ (9 : Byte).toNat = 9 ∧ 11 ≤ (11 : Byte).toNat ∧
      ((10 : Byte).toNat = 10 ∧ State.reset.depth.val = 0) ∧ ((8 : Byte).toNat ≤ 8 ∧ full.depth.val = 8) := by decide

theorem witness_RtrCopies :
    Readable 8 State.reset ∧ Writable 10 (afterRead 8 State.reset) ∧ ¬ Writable 8 (afterRead 8 State.reset) := by decide

theorem witness_LoadsComplete : Writable 7 State.reset ∧ Writable 10 State.reset := by decide

theorem witness_RtmStoresOneByte :
    Readable 8 State.reset ∧ (9 : Byte).toNat = 9 ∧ 11 ≤ (255 : Byte).toNat ∧ (10 : Byte).toNat = 10 ∧
      State.reset.depth.val = 0 := by decide

theorem witness_RtvStoresOneByte :
    Readable 10 (withStack State.reset [1]) ∧ (9 : Byte).toNat = 9 ∧ 11 ≤ (11 : Byte).toNat ∧ (10 : Byte).toNat = 10 ∧
      State.reset.depth.val = 0 := by decide

theorem witness_StoredVariableIsLoaded :
    Readable 4 State.reset ∧ isNext (exec (.rtv 4 255) State.reset) = true ∧ (7 : Byte).toNat = (7 : Fin 8).val := by
  decide

theorem witness_PushAndPop :
    let full := withStack State.reset [1, 2, 3, 4, 5, 6, 7, 8]
    State.reset.sp + 1 ≤ 7 ∧ full.sp + 1 > 7 ∧ 0 ≤ full.sp ∧ State.reset.sp < 0 := by decide

theorem witness_StackIsLastInFirstOut :
    State.reset.depth.val + [1, 2, 3, 4, 5, 6, 7, 8].length ≤ 8 ∧
      State.reset.depth.val + [1, 2, 3, 4, 5, 6, 7, 8].length = 8 ∧ State.reset.depth.val = 0 := by decide

theorem witness_RegisterIdsDecode :
    (7 : Byte).toNat = (7 : Fin 8).val ∧ (8 : Byte).toNat = 8 ∧ (10 : Byte).toNat = 10 ∧
      0 < (withStack State.reset [1]).depth.val ∧ (9 : Byte).toNat = 9 ∧ 11 ≤ (11 : Byte).toNat := by decide

theorem witness_UnreadableFirstSourceHalts :
    (Instr.rtm 9 0 0).sources = 9 :: [] ∧ ¬ Readable 9 State.reset ∧ (Instr.push 10).sources = 10 :: [] ∧
      ¬ Readable 10 State.reset := by decide

/-- A stack source with one entry read twice, and the third source of PXL, the fifth of LINE. -/
theorem witness_UnreadableLaterSourceHalts :
    let s := withStack State.reset [1]
    ((Instr.sub 10 10 0).sources = 10 :: ([] ++ 10 :: []) ∧ ReadableAll [10] s ∧ ¬ Readable 10 (afterReads [10] s) ∧
      (Instr.sub 10 10 0).opcode ∉ [Opcode.pxl, .line, .prt]) ∧
    ((Instr.pxl 0 10 10).sources = 0 :: ([10] ++ 10 :: []) ∧ ReadableAll [0, 10] s ∧
      ¬ Readable 10 (afterReads [0, 10] s) ∧ (Instr.pxl 0 10 10).opcode ∈ [Opcode.pxl, .line, .prt]) ∧
    ((Instr.line 0 1 8 7 9).sources = 0 :: ([1, 8, 7] ++ 9 :: []) ∧ ReadableAll [0, 1, 8, 7] s ∧
      ¬ Readable 9 (afterReads [0, 1, 8, 7] s)) := by
  simp only [ReadableAll, afterReads, and_true]
  decide

/-- An id no register has beside a stack source; a full stack; MOV's last immediate byte. -/
theorem witness_UnwritableDestinationHalts :
    let one := withStack State.reset [1]
    let full := withStack State.reset [1, 2, 3, 4, 5, 6, 7, 8]
    ((Instr.add 10 8 255).dest = some 255 ∧ ReadableAll [10, 8] one ∧ ¬ Writable 255 (afterReads [10, 8] one)) ∧
    ((Instr.mtr 0 0 10).dest = some 10 ∧ (Instr.mtr 0 0 10).sources = [] ∧ ¬ Writable 10 full) ∧
    ((Instr.xor 0 1 10).dest = some 10 ∧ ReadableAll [0, 1] full ∧ ¬ Writable 10 (afterReads [0, 1] full)) ∧
    ((Instr.mov 8).dest = some 8 ∧ ¬ Writable 8 (State.reset.setPc 65535) ∧ (State.reset.setPc 65535).pc < 65536) := by
  simp only [ReadableAll, afterReads, and_true]
  decide

/-- (127, 71) is the last pixel; (128, 71) and (0, -1) are off the grid. -/
theorem witness_DrawPixelWritesOrReports :
    (0 ≤ (127 : Int) ∧ (127 : Int) ≤ 127 ∧ 0 ≤ (71 : Int) ∧ (71 : Int) ≤ 71) ∧
      ¬(0 ≤ (128 : Int) ∧ (128 : Int) ≤ 127 ∧ 0 ≤ (71 : Int) ∧ (71 : Int) ≤ 71) ∧
      ¬(0 ≤ (0 : Int) ∧ (0 : Int) ≤ 127 ∧ 0 ≤ (-1 : Int) ∧ (-1 : Int) ≤ 71) := by decide

theorem witness_FramebufferWriteIsBounded : 9359 < 9360 ∧ 9360 ≤ 9360 := by decide

theorem witness_PxlCompletes :
    let s := withStack State.reset [1, 2, 3]
    Readable 10 s ∧ Readable 10 (afterRead 10 s) ∧ Readable 10 (afterRead 10 (afterRead 10 s)) := by decide

theorem witness_LineCompletes :
    let s := withStack State.reset [1]
    Readable 0 s ∧ Readable 1 (afterRead 0 s) ∧ Readable 8 (afterRead 1 (afterRead 0 s)) ∧
      Readable 10 (afterRead 8 (afterRead 1 (afterRead 0 s))) ∧
      Readable 7 (afterRead 10 (afterRead 8 (afterRead 1 (afterRead 0 s)))) := by decide

/-- Cells (15, 1), (15, 2), (15, 8), (16, 0) and (0, 9): the bounds of the three cases. -/
theorem witness_PrtWritesReportsOrHalts :
    let s := fun x y : Byte => (State.reset.setReg 0 x).setReg 1 y
    let x := fun a b : Byte => byteVal params.gpuCoordSigned (readValue 0 (s a b))
    let y := fun a b : Byte => byteVal params.gpuCoordSigned (readValue 1 (afterRead 0 (s a b)))
    (Readable 0 (s 15 1) ∧ Readable 1 (afterRead 0 (s 15 1)) ∧ Readable 2 (afterRead 1 (afterRead 0 (s 15 1)))) ∧
      (0 ≤ x 15 1 ∧ x 15 1 ≤ 15 ∧ 0 ≤ y 15 1 ∧ y 15 1 ≤ 1) ∧
      (0 ≤ x 15 2 ∧ x 15 2 ≤ 15 ∧ 2 ≤ y 15 2 ∧ y 15 2 ≤ 8) ∧ (2 ≤ y 15 8 ∧ y 15 8 ≤ 8) ∧
      15 < x 16 0 ∧ 8 < y 0 9 := by decide

theorem witness_GmtChangesOnlyPc :
    let s := code [0x53]
    s.halted = false ∧ s.pc < 65536 ∧ s.mem.read s.pc = 0x53 := by decide

theorem witness_LineStaysInItsBoundingBox : ((2 : Int), (1 : Int)) ∈ linePixels 0 0 4 2 := by decide

theorem witness_OnlyTheDestinationRegisterChanges :
    isNext (exec (.add 0 1 7) State.reset) = true ∧ (Instr.add 0 1 7).dest ≠ some (BitVec.ofNat 8 (6 : Fin 8).val) ∧
      isNext (exec (.mtm 0 0 0 0) State.reset) = true ∧ (Instr.mtm 0 0 0 0).dest ≠ some (BitVec.ofNat 8 (0 : Fin 8).val) := by
  decide

theorem witness_OnlyTheStoredByteChanges :
    isNext (exec (.rtm 0 0x12 0x34) State.reset) = true ∧ storeAddress (.rtm 0 0x12 0x34) = some 0x1234 ∧
      storeAddress (.rtm 0 0x12 0x34) ≠ some 0x1235 ∧ storeAddress (.add 0 0 0) ≠ some 0 := by decide

theorem witness_StackChangesOnlyThroughIdTen :
    isNext (exec (.lshift 0 10 0) State.reset) = true ∧ (Instr.lshift 0 10 0).opcode ≠ .push ∧
      (∀ r, r ∈ (Instr.lshift 0 10 0).sources → r ≠ 10) ∧ (Instr.lshift 0 10 0).dest ≠ some 10 := by decide

theorem witness_EachStateHasItsWriters :
    isNext (exec .gmt State.reset) = true ∧ Opcode.gmt ≠ .lbl ∧ Opcode.gmt ∉ [Opcode.pxl, .line, .prt] ∧
      Opcode.gmt ∉ [Opcode.jmp, .jif, .mov] ∧
      Opcode.gmt ∉ [Opcode.add, .sub, .mul, .and, .or, .xor, .not, .rshift, .lshift, .cmp] ∧
      Opcode.gmt ∈ [Opcode.nop, .lbl, .jmp, .jif, .gmt] ∧
      Opcode.gmt ∉ [Opcode.lbl, .jmp, .jif, .mov, .mtr, .rtm, .mtm, .vtr, .rtv] ∧ Opcode.gmt ≠ .lshift ∧
      isNext (exec .nop State.reset) = true := by decide

theorem witness_HaltCausesByInstruction :
    exec .nop (State.reset.setPc 1) = .next ((State.reset.setPc 1).takeHalt (.nopSentinel 0)) ∧
      State.reset.haltRecord = none ∧
      ((State.reset.setPc 1).takeHalt (.nopSentinel 0)).haltRecord = some (.nopSentinel 0) :=
  ⟨rfl, by decide, by decide⟩

theorem witness_CanonicalMemoriesAreEqual :
    Memory.wf 65536 [(0, 1), (65535, 2)] = true ∧
      (∀ a, a < 65536 → Memory.read [(0, 1), (65535, 2)] a = Memory.read [(0, 1), (65535, 2)] a) :=
  ⟨by decide, fun _ _ => rfl⟩

/-- The state before a GMT meets the invariant. -/
theorem code_inv : (code [0x53]).Inv :=
  ⟨by decide, .inl rfl, by decide, rfl, rfl, rfl, rfl, (fun _ h => nomatch h), (fun _ h => nomatch h)⟩

theorem witness_EveryStepKeepsTheInvariant :
    (code [0x53]).Inv ∧ step (code [0x53]) = .next (next (code [0x53])) ∧
      stepUnder { params with cmpSigned := true } (code [0x53]) = .next (next (code [0x53])) :=
  ⟨code_inv, rfl, rfl⟩

/-- Two states apart in every hidden field. -/
theorem witness_HiddenStateIsNeverRead :
    SameVisible State.reset
      { State.reset with
        dbus := 1, abus := 2, abr := 3, aluA := 4, aluB := 5, aluR := 6, freeIdx := 7,
        stk := #v[8, 8, 8, 8, 8, 8, 8, 8] } ∧
      step State.reset = .next (next State.reset) :=
  ⟨⟨rfl, rfl, rfl, rfl, rfl, fun _ h => absurd h (Nat.not_lt_zero _), rfl, rfl, rfl, rfl, rfl, rfl, rfl⟩, rfl⟩

/-- Images of 65552 and 65553 bytes (X6, X7). -/
theorem witness_LoadImageSkipsTheHeader :
    (List.replicate 65552 (0 : Byte)).length - 16 ≤ 65536 ∧ 65536 < (List.replicate 65553 (0 : Byte)).length - 16 := by
  rw [List.length_replicate, List.length_replicate]
  decide

/-- A session that has loaded GMT, set the input and taken a step. -/
theorem witness_EveryReachableSessionMeetsTheInvariant :
    ∃ σ : Session, σ.Reachable ∧ σ.started = true ∧ σ.core.input = 5 ∧ σ.core.pc = 1 :=
  ⟨_, .event .step _ _ _ (.event (.setInput 5) _ _ _
    (.event (.load (List.replicate 16 0 ++ [0x53])) _ _ _ .reset rfl) rfl) rfl, by decide⟩

theorem witness_EveryHostStepKeepsTheInvariant :
    let σ : Session := ⟨code [0x53], false⟩
    σ.core.Inv ∧ hostStep .step σ = .next (⟨next σ.core, true⟩, .nothing) ∧
      hostStepUnder { params with cmpSigned := true } .step σ = .next (⟨next σ.core, true⟩, .nothing) :=
  ⟨code_inv, rfl, rfl⟩

theorem witness_HostWritesOnlyMemoryAndInput :
    hostStep (.setInput 5) Session.reset = .next (⟨State.reset.setInput 5, false⟩, .nothing) ∧
      HostEvent.setInput 5 ≠ .reset ∧ HostEvent.setInput 5 ≠ .step ∧ (∀ img, HostEvent.setInput 5 ≠ .load img) ∧
      (∀ mask, HostEvent.tick ≠ .setInput mask) ∧
      hostStep .step ⟨State.reset.setHalt true (some .stackUnderflow), true⟩ =
        .next (⟨State.reset.setHalt true (some .stackUnderflow), true⟩, .nothing) ∧
      (State.reset.setHalt true (some .stackUnderflow)).halted = true ∧ HostEvent.step ≠ .reset :=
  ⟨rfl, by decide, by decide, (fun _ h => nomatch h), (fun _ h => nomatch h), rfl, by decide, by decide⟩

end Sys2Proof.Tests
end

section
namespace Sys2Proof.Machine

/-! The invariant while an instruction executes, and the step (EveryStepKeepsTheInvariant). -/

/-- The invariant while instruction i executes: what `State.Inv` asks of a core that has not halted, and the opcode byte
of a NOP behind the program counter. -/
structure Executing (i : Instr) (s : State) : Prop where
  pc_le : s.pc ≤ memSize
  flags_word : s.flags = 0 ∨ s.flags = 0x19 ∨ s.flags = 0x2A ∨ s.flags = 0x34
  mem_wf : s.mem.wf memSize = true
  hdrHi_wf : s.hdrHi.wf hdrSize = true
  hdrLo_wf : s.hdrLo.wf hdrSize = true
  fb_wf : s.fb.wf fbSize = true
  running : s.halted = false
  noRecord : s.haltRecord = none
  reports_outOfRange : ∀ r, r ∈ s.reports → r.outOfRange
  pc_pos : i = .nop → 0 < s.pc

theorem Executing.inv {i : Instr} {s : State} (h : Executing i s) : s.Inv :=
  { h with
    halted_iff := by rw [h.running, h.noRecord]; rfl
    halt_justified := by simp [h.noRecord] }

/-- Halt entry keeps the invariant when the state justifies the cause (R254). -/
theorem State.Inv.takeHalt {s : State} {c : HaltCause} (h : s.Inv) (hc : c.Justified s) : (s.takeHalt c).Inv :=
  { h with
    halted_iff := rfl
    halt_justified := by
      intro d hd
      cases hd
      exact hc }

theorem State.Inv.haltRecord_eq_none {s : State} (h : s.Inv) (hh : s.halted = false) : s.haltRecord = none := by
  simpa [hh] using h.halted_iff

theorem State.Inv.setPc {s : State} (h : s.Inv) (hh : s.halted = false) {n : Nat} (hn : n ≤ memSize) :
    (s.setPc n).Inv :=
  { h with
    pc_le := hn
    halt_justified := by simp [h.haltRecord_eq_none hh] }

/-- An instruction starts to execute past its own first byte. -/
theorem State.Inv.executing {s : State} (h : s.Inv) (hh : s.halted = false) {n : Nat} (hn : n ≤ memSize)
    (hpos : 0 < n) (i : Instr) : Executing i (s.setPc n) :=
  { h with
    pc_le := hn
    running := hh
    noRecord := h.haltRecord_eq_none hh
    pc_pos := fun _ => hpos }

/-- A register read that halts does so with a cause the state justifies (R26). -/
theorem readCause_justified {id : Byte} {s : State} (h : ¬ Readable id s) : (readCause id).Justified s := by
  unfold readCause
  by_cases h10 : id.toNat = 10
  · rw [if_pos h10]
    show s.depth.val = 0
    omega
  · rw [if_neg h10]
    show readableId id = false
    simp only [readableId, Bool.or_eq_false_iff, decide_eq_false_iff_not, beq_eq_false_iff_ne]
    omega

/-- A register write that halts does so with a cause the state justifies (R27). -/
theorem writeCause_justified {id : Byte} (v : Byte) {s : State} (h : ¬ Writable id s) :
    (writeCause id v).Justified s := by
  unfold writeCause
  by_cases h10 : id.toNat = 10
  · rw [if_pos h10]
    show s.depth.val = 8
    omega
  · rw [if_neg h10]
    show writableId id = false
    simp only [writableId, Bool.or_eq_false_iff, decide_eq_false_iff_not, beq_eq_false_iff_ne]
    omega

theorem Executing.afterWrite {i : Instr} {s : State} (h : Executing i s) (d v : Byte) :
    Executing i (afterWrite d v s) := by
  unfold Machine.afterWrite
  split
  · exact { h with }
  · split <;> exact { h with }

theorem Executing.regWrite {i : Instr} {s : State} (h : Executing i s) (d v : Byte) :
    (regWrite d v s).Ends (Executing i) State.Inv := by
  rcases regWrite_cases d v s with ⟨_, e⟩ | ⟨hw, e⟩ <;> rw [e]
  · exact h.afterWrite d v
  · have hd : Executing i (s.setDbus v) := { h with }
    exact hd.inv.takeHalt (writeCause_justified v hw)

theorem Executing.push {i : Instr} {s : State} (h : Executing i s) (v : Byte) :
    (push v s).Ends (Executing i) State.Inv := by
  by_cases hd : s.depth.val < 8
  · rw [push_of_lt v hd]
    exact { h with }
  · have h8 : s.depth.val = 8 := by omega
    rw [push_of_full v h8]
    exact h.inv.takeHalt h8

theorem Executing.setScratch {i : Instr} {s : State} (h : Executing i s) (p : Params) (v : Byte) :
    Executing i (s.setScratch p v) := by
  unfold State.setScratch
  split
  · exact h
  · exact { h with }

theorem Executing.report {i : Instr} {s : State} (h : Executing i s) {prim : GpuPrim} {x y : Int}
    (hr : (GpuReport.mk prim x y).outOfRange) : Executing i (report prim x y s) :=
  { h with
    reports_outOfRange := by
      intro r hmem
      rcases List.mem_append.mp hmem with hold | hnew
      · exact h.reports_outOfRange r hold
      · rw [List.mem_singleton.mp hnew]
        exact hr }

theorem Executing.fbWrite {i : Instr} {s : State} (h : Executing i s) {off : Nat} (hoff : off < fbSize) (c : Byte) :
    Executing i (s.setFb (s.fb.write off c)) :=
  { h with fb_wf := Memory.wf_write h.fb_wf hoff c }

/-- A pixel lands inside the framebuffer or is reported (R217). -/
theorem Executing.pixelDrawn {i : Instr} {s : State} (h : Executing i s) (c : Byte) (q : Int × Int) :
    Executing i (pixelDrawn c s q) := by
  unfold Machine.pixelDrawn
  split
  case isTrue hin => exact h.fbWrite (by unfold fbSize; omega) c
  case isFalse hout => exact h.report hout

/-- A character lands inside the framebuffer, halts past its end, or is reported (R219). -/
theorem Executing.drawChar {i : Instr} {s : State} (h : Executing i s) (x y : Int) (c : Byte) :
    (drawChar x y c s).Ends (Executing i) State.Inv := by
  rcases drawChar_cases x y c s with ⟨hin, hy, e⟩ | ⟨hin, hy, e⟩ | ⟨hout, e⟩ <;> rw [e]
  · have hr := (charInRange_iff x y).mp hin
    exact h.fbWrite (by unfold fbSize; omega) c
  · have hr := (charInRange_iff x y).mp hin
    refine h.inv.takeHalt ?_
    show 9472 ≤ (9216 + y * 128 + x).toNat ∧ (9216 + y * 128 + x).toNat ≤ 10255
    omega
  · refine h.report ?_
    show ¬(0 ≤ x ∧ x ≤ 15 ∧ 0 ≤ y ∧ y ≤ 8)
    rw [← charInRange_iff, hout]
    exact Bool.false_ne_true

/-- Every update an instruction can make keeps the invariant, and every halt it can take is justified. -/
theorem executing_closed (p : Params) (i : Instr) : ExecClosed p i (Executing i) State.Inv where
  dbus _ _ _ h := { h with }
  drop _ _ h _ := { h with }
  readHalt _ _ _ h hr := h.inv.takeHalt (readCause_justified hr)
  write d v _ _ h := h.regWrite d v
  push _ v _ h := h.push v
  alu _ _ _ h := ⟨{ h with }, { h with }, { h with }⟩
  free _ _ _ h := { h with }
  flags _ _ _ hv h := { h with flags_word := .inr hv }
  abr _ _ _ h := { h with }
  abus _ _ _ h := { h with }
  hdr idx hi lo _ _ h :=
    { h with
      hdrHi_wf := Memory.wf_write h.hdrHi_wf idx.isLt hi
      hdrLo_wf := Memory.wf_write h.hdrLo_wf idx.isLt lo }
  jump ho _ _ h hn :=
    { h with
      pc_le := hn.le
      pc_pos := by
        rintro rfl
        simp [Instr.opcode] at ho }
  advance _ s h hlt :=
    { h with
      pc_le := hlt
      pc_pos := fun _ => s.pc.succ_pos }
  pastEnd _ _ h hle := h.inv.takeHalt ⟨h.pc_le.antisymm hle, h.pc_le.antisymm hle⟩
  store _ v _ _ ha h := { h with mem_wf := Memory.wf_write h.mem_wf ha v }
  scratch _ _ v h := h.setScratch p v
  pixel _ _ c q h := h.pixelDrawn c q
  char _ _ _ _ _ h := h.drawChar _ _ _
  sentinel hi s h := by
    have hpos := h.pc_pos hi
    have hle := h.pc_le
    refine h.inv.takeHalt ?_
    show s.pc - 1 < memSize ∧ s.pc = s.pc - 1 + 1
    omega

/-- An execute part that starts in the invariant ends in it. -/
theorem execUnder_inv {p : Params} {i : Instr} {s t : State} (h : Executing i s) (he : execUnder p i s = .next t) :
    t.Inv :=
  (execUnder_keeps (executing_closed p i) h he).elim Executing.inv id

/-- A step keeps the invariant: a fetch that halts is justified, and one that completes leaves `Executing`. -/
theorem stepUnder_inv {p : Params} {s t : State} (h : s.Inv) (hst : stepUnder p s = .next t) : t.Inv := by
  cases hh : s.halted with
  | true =>
    cases (stepBy_of_halted hh).symm.trans hst
    exact h
  | false =>
    rcases fetchInstr_cases s with ⟨hpc, e⟩ | ⟨hpc, hop, e⟩ | ⟨hpc, o, -, -, e⟩ | ⟨hpc, o, -, hfit, e⟩
    · cases (stepBy_of_fetch_halted hh e).symm.trans hst
      exact h.takeHalt ⟨h.pc_le.antisymm hpc, h.pc_le.antisymm hpc⟩
    · cases (stepBy_of_fetch_halted hh e).symm.trans hst
      exact (h.setPc hh hpc).takeHalt ⟨hop, hpc, rfl⟩
    · cases (stepBy_of_fetch_halted hh e).symm.trans hst
      exact (h.setPc hh le_rfl).takeHalt ⟨rfl, rfl⟩
    · exact execUnder_inv (h.executing hh hfit (by omega) _) ((stepBy_of_fetch_done hh e).symm.trans hst)

/-- Settles O55: `execUnder_keeps` with the invariant of a running core, and the four cases of a fetch. -/
theorem everyStepKeepsTheInvariant : Obligations.EveryStepKeepsTheInvariant := by
  unfold Obligations.EveryStepKeepsTheInvariant
  refine ⟨fun s t h hst => ?_, fun p s t h hst => stepUnder_inv h hst⟩
  rw [step_eq_stepUnder] at hst
  exact stepUnder_inv h hst

/-! The host's interactions (EveryHostStepKeepsTheInvariant). -/

/-- An external reset gives the invariant (R50, R285). -/
theorem externalReset_inv (s : State) : s.externalReset.Inv where
  pc_le := Nat.zero_le _
  flags_word := .inl rfl
  mem_wf := rfl
  hdrHi_wf := rfl
  hdrLo_wf := rfl
  fb_wf := rfl
  halted_iff := rfl
  halt_justified _ h := nomatch h
  reports_outOfRange _ h := nomatch h

/-- A load that is accepted keeps the invariant: the image fits main memory (R288, D24). -/
theorem loadImage_inv {img : List Byte} {s t : State} (h : s.Inv) (hl : loadImage img s = some t) : t.Inv := by
  rcases loadImage_cases img s with ⟨hlen, e⟩ | ⟨-, e⟩ <;> cases e.symm.trans hl
  refine { h with mem_wf := Memory.wf_writeBytes h.mem_wf ?_ }
  simp only [List.length_drop, imageHeader, memSize]
  omega

/-- The host keeps the invariant around any core step that keeps it. -/
theorem hostStepBy_inv {coreStep : State → Host.Outcome State Fault Refusal}
    (hstep : ∀ s t : State, s.Inv → coreStep s = .next t → t.Inv) (e : HostEvent) {σ τ : Session}
    {r : HostReply} (h : σ.core.Inv) (he : hostStepBy coreStep e σ = .next (τ, r)) : τ.core.Inv := by
  cases e with
  | reset =>
    cases he
    exact externalReset_inv σ.core
  | load img =>
    simp only [hostStepBy] at he
    split at he
    · cases he
    · split at he
      · cases he
        exact h
      · cases he
        exact loadImage_inv h ‹_›
  | setInput mask =>
    cases he
    exact { h with }
  | step =>
    simp only [hostStepBy] at he
    split at he <;> cases he
    exact hstep _ _ h ‹_›
  | snapshot | readFramebuffer off | readHalt | tick =>
    cases he
    exact h

/-- Settles O60: reset and load by their own lemmas, step by O55's `stepUnder_inv`; the rest leaves the core or sets the
input mask. -/
theorem everyHostStepKeepsTheInvariant : Obligations.EveryHostStepKeepsTheInvariant := by
  unfold Obligations.EveryHostStepKeepsTheInvariant
  refine ⟨fun e σ τ r h he => ?_, fun p e σ τ r h he => hostStepBy_inv (fun _ _ => stepUnder_inv) e h he⟩
  rw [hostStep_eq_hostStepUnder] at he
  exact hostStepBy_inv (fun _ _ => stepUnder_inv) e h he

end Sys2Proof.Machine
end

section
namespace Sys2Proof.Machine

/-! Two runs side by side, and the step from states that differ in hidden state only (HiddenStateIsNeverRead). -/

/-- Two runs that end alike: both go on with the same value or both halt, in states that differ in hidden state only. -/
inductive Run.Alike {α : Type} : Run α → Run α → Prop where
  | done (a : α) {s t : State} : SameVisible s t → Run.Alike (.done a s) (.done a t)
  | halted {s t : State} : SameVisible s t → Run.Alike (.halted s) (.halted t)

theorem Run.Alike.final {α : Type} {r r' : Run α} (h : r.Alike r') : SameVisible r.final r'.final := by
  cases h with
  | done a hst => exact hst
  | halted hst => exact hst

theorem Run.Alike.andThen {α β : Type} {r r' : Run α} (h : r.Alike r') {k k' : α → State → Run β}
    (hk : ∀ a s t, SameVisible s t → (k a s).Alike (k' a t)) : (r.andThen k).Alike (r'.andThen k') := by
  cases h with
  | done a hst => exact hk a _ _ hst
  | halted hst => exact .halted hst

variable {s t : State}

/-! Updates of hidden state, with values of its own on each side. -/

section Hidden

variable {v w : Byte} {a b : Word} {m n : Nat}

theorem SameVisible.setDbus (h : SameVisible s t) : SameVisible (s.setDbus v) (t.setDbus w) := { h with }
theorem SameVisible.setAbus (h : SameVisible s t) : SameVisible (s.setAbus a) (t.setAbus b) := { h with }
theorem SameVisible.setAbr (h : SameVisible s t) : SameVisible (s.setAbr a) (t.setAbr b) := { h with }
theorem SameVisible.setAluA (h : SameVisible s t) : SameVisible (s.setAluA v) (t.setAluA w) := { h with }
theorem SameVisible.setAluB (h : SameVisible s t) : SameVisible (s.setAluB v) (t.setAluB w) := { h with }
theorem SameVisible.setAluR (h : SameVisible s t) : SameVisible (s.setAluR v) (t.setAluR w) := { h with }
theorem SameVisible.setFreeIdx (h : SameVisible s t) : SameVisible (s.setFreeIdx m) (t.setFreeIdx n) := { h with }

end Hidden

/-- The free values LSHIFT leaves in the latches (R134, D27) do not matter. -/
theorem SameVisible.freeLatches (h : SameVisible s t) : SameVisible s.freeLatches t.freeLatches :=
  h.setAluA.setAluB.setAluR.setFreeIdx

theorem SameVisible.absoluteAddress (h : SameVisible s t) (hi lo : Byte) :
    SameVisible (absoluteAddress hi lo s) (absoluteAddress hi lo t) := h.setAbr.setAbus

theorem SameVisible.variableAddress (h : SameVisible s t) (varId : Byte) :
    SameVisible (variableAddress varId s) (variableAddress varId t) := by
  rw [variableAddress_eq, variableAddress_eq]
  exact h.setAbr.setAbus

/-! Updates of visible state, with the same value on both sides. -/

theorem SameVisible.depth_val (h : SameVisible s t) : s.depth.val = t.depth.val := congrArg Fin.val h.depth

theorem SameVisible.takeHalt (h : SameVisible s t) (c : HaltCause) : SameVisible (s.takeHalt c) (t.takeHalt c) :=
  { h with halted := rfl, haltRecord := rfl }

theorem SameVisible.setFlags (h : SameVisible s t) (v : Byte) : SameVisible (s.setFlags v) (t.setFlags v) :=
  { h with flags := rfl }

theorem SameVisible.setPc (h : SameVisible s t) (n : Nat) : SameVisible (s.setPc n) (t.setPc n) :=
  { h with pc := rfl }

theorem SameVisible.setReg (h : SameVisible s t) (i : Fin 8) (v : Byte) : SameVisible (s.setReg i v) (t.setReg i v) :=
  { h with x := congrArg (fun x : Vector Byte 8 => x.set i v) h.x }

theorem SameVisible.setMem (h : SameVisible s t) (m : Memory) : SameVisible (s.setMem m) (t.setMem m) :=
  { h with mem := rfl }

theorem SameVisible.fbWrite (h : SameVisible s t) (a : Nat) (v : Byte) :
    SameVisible (s.setFb (s.fb.write a v)) (t.setFb (t.fb.write a v)) :=
  { h with fb := congrArg (fun m : Memory => m.write a v) h.fb }

theorem SameVisible.report (h : SameVisible s t) (prim : GpuPrim) (x y : Int) :
    SameVisible (report prim x y s) (report prim x y t) :=
  { h with reports := congrArg (fun l => l ++ [GpuReport.mk prim x y]) h.reports }

theorem SameVisible.dropTop (h : SameVisible s t) : SameVisible s.dropTop t.dropTop :=
  { h with
    depth := Fin.ext (congrArg (fun n => n - 1) h.depth_val)
    entries := fun i hi => h.entries i (lt_of_lt_of_le hi (Nat.sub_le _ _)) }

/-- The slot a push writes is the same in both states, and is an entry after it. -/
theorem SameVisible.pushed (h : SameVisible s t) (v : Byte) (hs : s.depth.val < 8) (ht : t.depth.val < 8) :
    SameVisible ((s.setSlot ⟨s.depth.val, hs⟩ v).setDepth ⟨s.depth.val + 1, by omega⟩)
      ((t.setSlot ⟨t.depth.val, ht⟩ v).setDepth ⟨t.depth.val + 1, by omega⟩) :=
  { h with
    depth := Fin.ext (congrArg (fun n => n + 1) h.depth_val)
    entries := by
      intro i hi
      show (s.setSlot _ v).slot i = (t.setSlot _ v).slot i
      rw [State.slot_setSlot, State.slot_setSlot]
      have hd := h.depth_val
      by_cases htop : s.depth.val = i.val
      · rw [if_pos (Fin.ext htop), if_pos (Fin.ext (hd ▸ htop))]
      · have htop' : t.depth.val ≠ i.val := hd ▸ htop
        have hlt : i.val < s.depth.val := by
          have hi' : i.val < s.depth.val + 1 := hi
          omega
        rw [if_neg (mt (congrArg Fin.val) htop), if_neg (mt (congrArg Fin.val) htop')]
        exact h.entries i hlt }

/-! Register operands. -/

theorem SameVisible.top_eq (h : SameVisible s t) (hpos : 0 < s.depth.val) : s.top = t.top := by
  have e := h.entries ⟨s.depth.val - 1, by omega⟩ (Nat.sub_lt hpos one_pos)
  rw [State.top, e, State.top]
  congr 2
  rw [h.depth]

theorem SameVisible.readable_iff (h : SameVisible s t) (id : Byte) : Readable id s ↔ Readable id t := by
  unfold Readable
  rw [h.depth]

/-- A readable id gives the same value in both states: of the stack, only its top entry. -/
theorem SameVisible.readValue_eq (h : SameVisible s t) {id : Byte} (hr : Readable id s) :
    readValue id s = readValue id t := by
  unfold readValue
  split
  · exact State.reg_congr h.x _
  · split
    · exact h.input
    · exact h.top_eq (by omega)

theorem SameVisible.afterRead (h : SameVisible s t) (id : Byte) : SameVisible (afterRead id s) (afterRead id t) := by
  unfold Machine.afterRead
  split
  · exact h.dropTop.setDbus
  · exact h.setDbus

/-- A register read from both states: the same value, or the same halt. -/
theorem SameVisible.regRead_cases (h : SameVisible s t) (id : Byte) :
    (Readable id s ∧ regRead id s = .done (readValue id s) (Machine.afterRead id s) ∧
        regRead id t = .done (readValue id s) (Machine.afterRead id t)) ∨
      (regRead id s = .halted (s.takeHalt (readCause id)) ∧ regRead id t = .halted (t.takeHalt (readCause id))) := by
  by_cases hr : Readable id s
  · refine .inl ⟨hr, regRead_of_readable hr, ?_⟩
    rw [h.readValue_eq hr]
    exact regRead_of_readable ((h.readable_iff id).mp hr)
  · exact .inr ⟨regRead_of_not_readable hr, regRead_of_not_readable (mt (h.readable_iff id).mpr hr)⟩

theorem SameVisible.regRead (h : SameVisible s t) (id : Byte) : (regRead id s).Alike (regRead id t) := by
  rcases h.regRead_cases id with ⟨-, e, e'⟩ | ⟨e, e'⟩ <;> rw [e, e']
  · exact .done _ (h.afterRead id)
  · exact .halted (h.takeHalt _)

/-- A register read, and what follows it in the states the read leaves: for an operation that takes the value from the
data bus, or another operand from a latch. -/
theorem SameVisible.regRead_andThen {β : Type} (h : SameVisible s t) (id : Byte) {k : Byte → State → Run β}
    (hk : Readable id s →
      (k (readValue id s) (Machine.afterRead id s)).Alike (k (readValue id s) (Machine.afterRead id t))) :
    ((Machine.regRead id s).andThen k).Alike ((Machine.regRead id t).andThen k) := by
  rcases h.regRead_cases id with ⟨hr, e, e'⟩ | ⟨e, e'⟩ <;> rw [e, e']
  · exact hk hr
  · exact .halted (h.takeHalt _)

theorem SameVisible.push (h : SameVisible s t) (v : Byte) : (push v s).Alike (push v t) := by
  have hd := h.depth_val
  by_cases hlt : s.depth.val < 8
  · rw [push_of_lt v hlt, push_of_lt v (hd ▸ hlt)]
    exact .done _ (h.pushed v hlt (hd ▸ hlt))
  · rw [push_of_full v (by omega), push_of_full v (by omega)]
    exact .halted (h.takeHalt _)

/-- A register write of one value, from states whose buses and latches may differ. -/
theorem SameVisible.regWrite (h : SameVisible s t) (id v : Byte) : (regWrite id v s).Alike (regWrite id v t) := by
  have hb : SameVisible (s.setDbus v) (t.setDbus v) := h.setDbus
  unfold Machine.regWrite
  split
  · exact .done _ (hb.setReg _ v)
  · split
    · exact hb.push v
    · exact .halted (hb.takeHalt _)

/-- The shift amount, and what follows it; latch A is as before. -/
theorem SameVisible.shiftAmount_andThen {β : Type} (h : SameVisible s t) (p : Params) (n : Byte)
    {k : Byte → State → Run β}
    (hk : ∀ b u v, SameVisible u v → u.aluA = s.aluA → v.aluA = t.aluA → (k b u).Alike (k b v)) :
    ((shiftAmount p n s).andThen k).Alike ((shiftAmount p n t).andThen k) := by
  cases hp : p.shiftNSource with
  | literal =>
    rw [shiftAmount_literal hp, shiftAmount_literal hp]
    exact hk n s t h rfl rfl
  | register =>
    rw [shiftAmount_register hp, shiftAmount_register hp]
    exact h.regRead_andThen n fun _ => hk _ _ _ (h.afterRead n) (afterRead_aluA n s) (afterRead_aluA n t)

/-! Draws. -/

theorem SameVisible.pixelDrawn (h : SameVisible s t) (c : Byte) (q : Int × Int) :
    SameVisible (pixelDrawn c s q) (pixelDrawn c t q) := by
  unfold Machine.pixelDrawn
  split
  · exact h.fbWrite _ c
  · exact h.report .pixel q.1 q.2

theorem SameVisible.pixelsDrawn (h : SameVisible s t) (c : Byte) (l : List (Int × Int)) :
    SameVisible (l.foldl (Machine.pixelDrawn c) s) (l.foldl (Machine.pixelDrawn c) t) := by
  induction l generalizing s t with
  | nil => exact h
  | cons q rest ih => exact ih (h.pixelDrawn c q)

theorem SameVisible.drawPixel (h : SameVisible s t) (x y : Int) (c : Byte) :
    (drawPixel x y c s).Alike (drawPixel x y c t) := by
  rw [drawPixel_eq, drawPixel_eq]
  exact .done _ (h.pixelDrawn c (x, y))

theorem SameVisible.drawLine (h : SameVisible s t) (x0 y0 x1 y1 : Int) (c : Byte) :
    (drawLine x0 y0 x1 y1 c s).Alike (drawLine x0 y0 x1 y1 c t) := by
  rw [drawLine_eq, drawLine_eq]
  exact .done _ (h.pixelsDrawn c _)

theorem SameVisible.drawChar (h : SameVisible s t) (x y : Int) (c : Byte) :
    (drawChar x y c s).Alike (drawChar x y c t) := by
  unfold Machine.drawChar Machine.fbWrite
  split
  · split
    · exact .done _ (h.fbWrite _ c)
    · exact .halted (h.takeHalt _)
  · exact .done _ (h.report .char x y)

/-! The operations behind the instructions. -/

/-- The result goes through the latches, but depends on the operands alone. -/
theorem writeResult_aluRun (op : Byte → Byte → Byte) (b rOut : Byte) (s : State) :
    writeResult rOut ((s.setAluB b).aluRun op) =
      Machine.regWrite rOut (op s.aluA b) (((s.setAluB b).setAluR (op s.aluA b)).setDbus (op s.aluA b)) := rfl

theorem SameVisible.binary (h : SameVisible s t) (op : Byte → Byte → Byte) (r1 r2 rOut : Byte) :
    (binary op r1 r2 rOut s).Alike (binary op r1 r2 rOut t) := by
  refine (h.regRead r1).andThen fun a u v h1 => h1.setAluA.regRead_andThen r2 fun _ => ?_
  simp only [writeResult_aluRun, afterRead_aluA, State.setAluA_aluA]
  exact (h1.setAluA.afterRead r2).setAluB.setAluR.setDbus.regWrite rOut _

theorem SameVisible.complement (h : SameVisible s t) (r rOut : Byte) :
    (complement r rOut s).Alike (complement r rOut t) :=
  (h.regRead r).andThen fun _ _ _ h1 => h1.setAluA.setAluR.setDbus.regWrite rOut _

theorem SameVisible.shiftRight (h : SameVisible s t) (p : Params) (r n rOut : Byte) :
    (shiftRight p r n rOut s).Alike (shiftRight p r n rOut t) := by
  refine (h.regRead r).andThen fun a u v h1 => h1.setAluA.shiftAmount_andThen p n fun b w z h2 hw hz => ?_
  simp only [writeResult_aluRun, State.setDbus_aluA, hw, hz, State.setAluA_aluA]
  exact h2.setDbus.setAluB.setAluR.setDbus.regWrite rOut _

theorem SameVisible.shiftLeft (h : SameVisible s t) (p : Params) (r n rOut : Byte) :
    (shiftLeft p r n rOut s).Alike (shiftLeft p r n rOut t) :=
  (h.regRead r).andThen fun _ _ _ h1 =>
    h1.shiftAmount_andThen p n fun _ _ _ h2 _ _ => h2.freeLatches.setDbus.regWrite rOut _

theorem SameVisible.compareRegs (h : SameVisible s t) (p : Params) (r1 r2 : Byte) :
    (compareRegs p r1 r2 s).Alike (compareRegs p r1 r2 t) := by
  refine (h.regRead r1).andThen fun a u v h1 => h1.setAluA.regRead_andThen r2 fun _ => .done _ ?_
  simp only [State.aluRun, State.setAluB_aluA, State.setAluB_aluB, State.setAluR_aluR, afterRead_aluA,
    State.setAluA_aluA]
  exact (h1.setAluA.afterRead r2).setAluB.setAluR.setDbus.setFlags _

theorem SameVisible.hdrRead_eq (h : SameVisible s t) (idx : Byte) : hdrRead idx s = hdrRead idx t := by
  rw [hdrRead, h.hdrHi, h.hdrLo, hdrRead]

theorem SameVisible.jumpThrough (h : SameVisible s t) (idx : Byte) :
    SameVisible (jumpThrough idx s) (jumpThrough idx t) := by
  rw [jumpThrough_eq, jumpThrough_eq, h.hdrRead_eq idx]
  exact h.setAbr.setAbus.setPc _

theorem SameVisible.jumpIf (h : SameVisible s t) (p : Params) (idx cmp : Byte) :
    SameVisible (jumpIf p idx cmp s) (jumpIf p idx cmp t) := by
  rw [jumpIf_eq, jumpIf_eq, h.flags]
  split
  · exact h.jumpThrough idx
  · exact h

theorem SameVisible.hdrWrite (h : SameVisible s t) (idx hi lo : Byte) :
    SameVisible (hdrWrite idx hi lo s) (hdrWrite idx hi lo t) :=
  { h with
    hdrHi := congrArg (fun m : Memory => m.write idx.toNat hi) h.hdrHi
    hdrLo := congrArg (fun m : Memory => m.write idx.toNat lo) h.hdrLo }

/-- A load from the address on the bus to a register. -/
theorem SameVisible.busRead_regWrite (h : SameVisible s t) (ha : s.abus = t.abus) (rTo : Byte) :
    ((busRead s).andThen fun _ u => Machine.regWrite rTo u.dbus u).Alike
      ((busRead t).andThen fun _ u => Machine.regWrite rTo u.dbus u) := by
  rw [busRead_eq, busRead_eq, ← ha, ← h.mem]
  exact h.setDbus.regWrite rTo _

/-- A store of the data bus at the address on the bus. -/
theorem SameVisible.busWrite (h : SameVisible s t) (ha : s.abus = t.abus) (hb : s.dbus = t.dbus) :
    (busWrite s).Alike (busWrite t) := by
  rw [busWrite_eq, busWrite_eq, ← ha, ← hb, ← h.mem]
  exact .done _ (h.setMem _)

/-- A store of a register at an address that is put on the bus after the register is read. -/
theorem SameVisible.regRead_busWrite (h : SameVisible s t) (r : Byte) {toBus : State → State} {a : Word}
    (hv : ∀ u v, SameVisible u v → SameVisible (toBus u) (toBus v)) (ha : ∀ u, (toBus u).abus = a)
    (hb : ∀ u, (toBus u).dbus = u.dbus) :
    ((Machine.regRead r s).andThen fun _ u => Machine.busWrite (toBus u)).Alike
      ((Machine.regRead r t).andThen fun _ u => Machine.busWrite (toBus u)) := by
  refine h.regRead_andThen r fun hr => SameVisible.busWrite (hv _ _ (h.afterRead r)) ?_ ?_
  · rw [ha, ha]
  · rw [hb, hb, afterRead_dbus, afterRead_dbus, h.readValue_eq hr]

theorem variableAddress_dbus (varId : Byte) (s : State) : (variableAddress varId s).dbus = s.dbus := by
  rw [variableAddress_eq, State.setAbus_dbus, State.setAbr_dbus]

theorem SameVisible.setScratch (h : SameVisible s t) (p : Params) (v : Byte) :
    SameVisible (s.setScratch p v) (t.setScratch p v) := by
  unfold State.setScratch
  split
  · exact h
  · exact h.setReg _ v

theorem SameVisible.copyByte (h : SameVisible s t) (p : Params) (hiA loA hiB loB : Byte) :
    (copyByte p hiA loA hiB loB s).Alike (copyByte p hiA loA hiB loB t) := by
  rw [copyByte_eq, copyByte_eq, ← h.mem]
  exact .done _ ((h.setScratch p _).setAbr.setAbus.setDbus.setMem _)

theorem SameVisible.fetchImmediate_regWrite (h : SameVisible s t) (rTo : Byte) :
    ((fetchImmediate s).andThen fun _ u => Machine.regWrite rTo u.dbus u).Alike
      ((fetchImmediate t).andThen fun _ u => Machine.regWrite rTo u.dbus u) := by
  by_cases hpc : s.pc < memSize
  · rw [fetchImmediate_of_lt hpc, fetchImmediate_of_lt (h.pc ▸ hpc), ← h.pc, ← h.mem]
    exact (h.setAbus.setDbus.setPc _).regWrite rTo _
  · have hle : memSize ≤ s.pc := not_lt.mp hpc
    rw [fetchImmediate_of_le hle, fetchImmediate_of_le (h.pc ▸ hle), ← h.pc]
    exact .halted (h.takeHalt _)

theorem SameVisible.pixelFromRegs (h : SameVisible s t) (p : Params) (rX rY rCol : Byte) :
    (pixelFromRegs p rX rY rCol s).Alike (pixelFromRegs p rX rY rCol t) :=
  (h.regRead rX).andThen fun _ _ _ h => (h.regRead rY).andThen fun _ _ _ h =>
    (h.regRead rCol).andThen fun _ _ _ h => h.drawPixel _ _ _

theorem SameVisible.lineFromRegs (h : SameVisible s t) (p : Params) (rX rY rX1 rY1 rCol : Byte) :
    (lineFromRegs p rX rY rX1 rY1 rCol s).Alike (lineFromRegs p rX rY rX1 rY1 rCol t) :=
  (h.regRead rX).andThen fun _ _ _ h => (h.regRead rY).andThen fun _ _ _ h =>
    (h.regRead rX1).andThen fun _ _ _ h => (h.regRead rY1).andThen fun _ _ _ h =>
    (h.regRead rCol).andThen fun _ _ _ h => h.drawLine _ _ _ _ _

theorem SameVisible.charFromRegs (h : SameVisible s t) (p : Params) (rX rY rChar : Byte) :
    (charFromRegs p rX rY rChar s).Alike (charFromRegs p rX rY rChar t) :=
  (h.regRead rX).andThen fun _ _ _ h => (h.regRead rY).andThen fun _ _ _ h =>
    (h.regRead rChar).andThen fun _ _ _ h => h.drawChar _ _ _

/-! Every instruction, and the step. -/

theorem execUnder_sameVisible (p : Params) (i : Instr) (h : SameVisible s t) :
    ∃ s' t', execUnder p i s = .next s' ∧ execUnder p i t = .next t' ∧ SameVisible s' t' := by
  cases i with
  | nop =>
    refine ⟨_, _, rfl, rfl, ?_⟩
    rw [h.pc]
    exact h.takeHalt _
  | add r1 r2 rOut | sub r1 r2 rOut | mul r1 r2 rOut | and r1 r2 rOut | or r1 r2 rOut | xor r1 r2 rOut =>
    exact ⟨_, _, rfl, rfl, (h.binary _ r1 r2 rOut).final⟩
  | not r rOut => exact ⟨_, _, rfl, rfl, (h.complement r rOut).final⟩
  | rshift r n rOut => exact ⟨_, _, rfl, rfl, (h.shiftRight p r n rOut).final⟩
  | lshift r n rOut => exact ⟨_, _, rfl, rfl, (h.shiftLeft p r n rOut).final⟩
  | cmp r1 r2 => exact ⟨_, _, rfl, rfl, (h.compareRegs p r1 r2).final⟩
  | ftr rTo =>
    refine ⟨_, _, rfl, rfl, Run.Alike.final ?_⟩
    rw [h.flags]
    exact h.setDbus.regWrite rTo _
  | lbl idx hi lo => exact ⟨_, _, rfl, rfl, (h.absoluteAddress hi lo).hdrWrite idx _ _⟩
  | jmp idx => exact ⟨_, _, rfl, rfl, h.jumpThrough idx⟩
  | jif idx cmp => exact ⟨_, _, rfl, rfl, h.jumpIf p idx cmp⟩
  | mov rTo => exact ⟨_, _, rfl, rfl, (h.fetchImmediate_regWrite rTo).final⟩
  | push r => exact ⟨_, _, rfl, rfl, ((h.regRead r).andThen fun a _ _ h => h.push a).final⟩
  | rtr rFrom rTo => exact ⟨_, _, rfl, rfl, ((h.regRead rFrom).andThen fun a _ _ h => h.regWrite rTo a).final⟩
  | mtr hi lo rTo => exact ⟨_, _, rfl, rfl, ((h.absoluteAddress hi lo).busRead_regWrite rfl rTo).final⟩
  | vtr varId rTo =>
    have ha : (variableAddress varId s).abus = (variableAddress varId t).abus := by
      rw [variableAddress_abus, variableAddress_abus]
    exact ⟨_, _, rfl, rfl, ((h.variableAddress varId).busRead_regWrite ha rTo).final⟩
  | rtm r hi lo =>
    exact ⟨_, _, rfl, rfl,
      (h.regRead_busWrite r (fun _ _ h => h.absoluteAddress hi lo) (fun _ => rfl) fun _ => rfl).final⟩
  | rtv r varId =>
    exact ⟨_, _, rfl, rfl,
      (h.regRead_busWrite r (fun _ _ h => h.variableAddress varId) (variableAddress_abus varId)
        (variableAddress_dbus varId)).final⟩
  | mtm hiA loA hiB loB => exact ⟨_, _, rfl, rfl, (h.copyByte p hiA loA hiB loB).final⟩
  | pxl rX rY rCol => exact ⟨_, _, rfl, rfl, (h.pixelFromRegs p rX rY rCol).final⟩
  | line rX rY rX1 rY1 rCol => exact ⟨_, _, rfl, rfl, (h.lineFromRegs p rX rY rX1 rY1 rCol).final⟩
  | prt rX rY rChar => exact ⟨_, _, rfl, rfl, (h.charFromRegs p rX rY rChar).final⟩
  | gmt => exact ⟨_, _, rfl, rfl, h⟩

theorem SameVisible.fetch (h : SameVisible s t) : (fetch s).Alike (fetch t) := by
  by_cases hpc : s.pc < memSize
  · rw [fetch_of_lt hpc, fetch_of_lt (h.pc ▸ hpc), ← h.pc, ← h.mem]
    exact .done _ (h.setPc _)
  · have hle : memSize ≤ s.pc := not_lt.mp hpc
    rw [fetch_of_le hle, fetch_of_le (h.pc ▸ hle), ← h.pc]
    exact .halted (h.takeHalt _)

theorem SameVisible.fetchBytes (h : SameVisible s t) (k : Nat) : (fetchBytes k s).Alike (fetchBytes k t) := by
  induction k generalizing s t with
  | zero => exact .done _ h
  | succ k ih => exact h.fetch.andThen fun b _ _ h => (ih h).andThen fun bs _ _ h => .done _ h

theorem SameVisible.fetchInstr (h : SameVisible s t) : (fetchInstr s).Alike (fetchInstr t) := by
  unfold Machine.fetchInstr
  refine h.fetch.andThen fun op u v h' => ?_
  cases Opcode.ofByte op with
  | none =>
    rw [h.pc]
    exact .halted (h'.takeHalt _)
  | some o => exact (h'.fetchBytes o.operandCount).andThen fun bs _ _ h => .done _ h

theorem stepUnder_sameVisible (p : Params) (h : SameVisible s t) :
    ∃ s' t', stepUnder p s = .next s' ∧ stepUnder p t = .next t' ∧ SameVisible s' t' := by
  unfold stepUnder stepBy
  rw [← h.halted]
  split
  · exact ⟨s, t, rfl, rfl, h⟩
  · have hf := h.fetchInstr
    generalize Machine.fetchInstr s = r at hf
    generalize Machine.fetchInstr t = r' at hf
    cases hf with
    | done i huv => exact execUnder_sameVisible p i huv
    | halted huv => exact ⟨_, _, rfl, rfl, huv⟩

/-- Settles O56: every operation of a step, run from two states that differ in hidden state only, ends alike in both. -/
theorem hiddenStateIsNeverRead : Obligations.HiddenStateIsNeverRead := by
  unfold Obligations.HiddenStateIsNeverRead
  intro s t s' h hst
  obtain ⟨u, t', hs, ht, huv⟩ := stepUnder_sameVisible params h
  rw [step_eq_stepUnder, hs] at hst
  cases hst
  exact ⟨t', (step_eq_stepUnder t).trans ht, huv⟩

end Sys2Proof.Machine
end

section
namespace Sys2Proof.Machine

/-! Both shifts under every parameter (ShiftsUnderEveryParameter). -/

section Shifts

variable {p : Params} {r n rOut b : Byte} {s u : State}

/-- A register write puts its value on the data bus, whatever was there (R27). -/
theorem written_setDbus (id v w : Byte) (s : State) : written id v (s.setDbus w) = written id v s := rfl

/-- The amount does not depend on latch A, which its reading keeps. -/
theorem shiftAmount_setAluA (a : Byte) (hb : shiftAmount p n s = .done b u) :
    shiftAmount p n (s.setAluA a) = .done b (u.setAluA a) := by
  cases hp : p.shiftNSource with
  | literal =>
    rw [shiftAmount_literal hp] at hb ⊢
    cases hb
    rfl
  | register =>
    rw [shiftAmount_register hp] at hb ⊢
    rcases regRead_cases n s with ⟨hr, e⟩ | ⟨-, e⟩ <;> cases e.symm.trans hb
    rw [regRead_of_readable ((readable_setAluA _ _ _).mpr hr), readValue_setAluA, afterRead_setAluA]

theorem execUnder_rshift_of_amount (h : Readable r s) (hb : shiftAmount p n (afterRead r s) = .done b u) :
    execUnder p (.rshift r n rOut) s =
      .next (written rOut (aluRshift p (readValue r s) b)
        (((u.setAluA (readValue r s)).setAluB b).setAluR (aluRshift p (readValue r s) b))) := by
  show (shiftRight p r n rOut s).toOutcome = _
  rw [shiftRight, regRead_of_readable h, Run.andThen_done, shiftAmount_setAluA _ hb, Run.andThen_done, writeResult,
    Run.toOutcome_eq, regWrite_final]
  rfl

/-- LSHIFT leaves some values in the latches (R134, D27). -/
theorem execUnder_lshift_of_amount (h : Readable r s) (hb : shiftAmount p n (afterRead r s) = .done b u) :
    ∃ A B R k, execUnder p (.lshift r n rOut) s =
      .next (written rOut (leftShift p (readValue r s) b) ((((u.setAluA A).setAluB B).setAluR R).setFreeIdx k)) := by
  have e : (shiftLeft p r n rOut s).toOutcome = .next (written rOut (leftShift p (readValue r s) b) u.freeLatches) := by
    rw [shiftLeft, regRead_of_readable h, Run.andThen_done, hb, Run.andThen_done, Run.toOutcome_eq, regWrite_final,
      written_setDbus]
  exact ⟨_, _, _, _, e⟩

/-- A register that should give the amount and cannot be read halts both shifts; r has been read (R133, D9). -/
theorem execUnder_shifts_of_amount_not_readable (h : Readable r s) (hp : p.shiftNSource = .register)
    (hn : ¬ Readable n (afterRead r s)) :
    execUnder p (.rshift r n rOut) s =
        .next (((afterRead r s).setAluA (readValue r s)).takeHalt (readCause n)) ∧
      execUnder p (.lshift r n rOut) s = .next ((afterRead r s).takeHalt (readCause n)) := by
  constructor
  · show (shiftRight p r n rOut s).toOutcome = _
    rw [shiftRight, regRead_of_readable h, Run.andThen_done, shiftAmount_register hp,
      regRead_of_not_readable (mt (readable_setAluA _ _ _).mp hn)]
    rfl
  · show (shiftLeft p r n rOut s).toOutcome = _
    rw [shiftLeft, regRead_of_readable h, Run.andThen_done, shiftAmount_register hp, regRead_of_not_readable hn]
    rfl

/-- An operand r that cannot be read halts both shifts at once (R26). -/
theorem execUnder_shifts_of_not_readable (h : ¬ Readable r s) :
    execUnder p (.rshift r n rOut) s = .next (s.takeHalt (readCause r)) ∧
      execUnder p (.lshift r n rOut) s = .next (s.takeHalt (readCause r)) := by
  constructor
  · show (shiftRight p r n rOut s).toOutcome = _
    rw [shiftRight, regRead_of_not_readable h]
    rfl
  · show (shiftLeft p r n rOut s).toOutcome = _
    rw [shiftLeft, regRead_of_not_readable h]
    rfl

end Shifts

/-- Settles O13: the two completing cases are `execUnder_rshift_of_amount` and `execUnder_lshift_of_amount` at the
amount each source gives. -/
theorem shiftsUnderEveryParameter : Obligations.ShiftsUnderEveryParameter := by
  unfold Obligations.ShiftsUnderEveryParameter
  intro p r n rOut s a s1 right left complete
  have hcomplete : ∀ b u, Readable r s → shiftAmount p n s1 = .done b u → complete b u := by
    intro b u h hb
    have hright : right b = aluRshift p a b := (aluRshift_eq p a b).symm
    have hleft : left b = leftShift p a b := (leftShift_eq p a b).symm
    simp only [complete, hright, hleft]
    exact ⟨execUnder_rshift_of_amount h hb, execUnder_lshift_of_amount h hb⟩
  refine ⟨fun h hp => hcomplete n s1 h (shiftAmount_literal hp n s1), fun h hp hn => ?_,
    fun h hp hn => execUnder_shifts_of_amount_not_readable h hp hn, fun h => execUnder_shifts_of_not_readable h⟩
  exact hcomplete _ _ h ((shiftAmount_register hp n s1).trans (regRead_of_readable hn))

/-! Every step has a next state (EveryStepAnswersANextState). -/

/-- Every arm answers a next state: none raises a fault or a refusal. -/
theorem execUnder_next (p : Params) (i : Instr) (s : State) : ∃ t, execUnder p i s = .next t := by
  cases i <;> exact ⟨_, rfl⟩

/-- A step answers a next state when its execute part does: halted, halting in the fetch, or executing. -/
theorem stepBy_next {execute : Instr → State → Host.Outcome State Fault Refusal}
    (he : ∀ i s, ∃ t, execute i s = .next t) (s : State) : ∃ t, stepBy execute s = .next t := by
  cases hh : s.halted with
  | true => exact ⟨s, stepBy_of_halted hh⟩
  | false =>
    cases hf : fetchInstr s with
    | halted t => exact ⟨t, stepBy_of_fetch_halted hh hf⟩
    | done i u =>
      rw [stepBy_of_fetch_done hh hf]
      exact he i u

theorem exec_next (i : Instr) (s : State) : ∃ t, exec i s = .next t := by
  rw [exec_eq_execUnder]
  exact execUnder_next params i s

/-- Settles O6: every arm of `exec` answers a next state, and so does the step around it. -/
theorem everyStepAnswersANextState : Obligations.EveryStepAnswersANextState := by
  unfold Obligations.EveryStepAnswersANextState
  exact ⟨exec_next, stepBy_next exec_next⟩

/-! The parameters (ParametersAreTheDefaults). -/

/-- An instruction that no row of 00_scope.md R8 is about does not depend on the parameters. -/
theorem execUnder_eq_exec (p : Params) {i : Instr}
    (hi : i.opcode ∉ [Opcode.cmp, .rshift, .lshift, .jif, .mtm, .pxl, .line, .prt]) (s : State) :
    execUnder p i s = exec i s := by
  cases i with
  | cmp | rshift | lshift | jif | mtm | pxl | line | prt => simp [Instr.opcode] at hi
  | nop | add | sub | mul | and | or | xor | not | lbl | jmp => rfl
  | mov | push | rtr | mtr | rtm | vtr | rtv | ftr | gmt => rfl

/-- Settles O14: the machine is `execUnder` at `params`, whose fields are R8's defaults. -/
theorem parametersAreTheDefaults : Obligations.ParametersAreTheDefaults := by
  unfold Obligations.ParametersAreTheDefaults
  exact ⟨exec_eq_execUnder, step_eq_stepUnder, fun p _ s hi => execUnder_eq_exec p hi s, rfl, rfl, fun _ _ _ => rfl,
    fun _ _ => rfl, rfl, rfl⟩

end Sys2Proof.Machine
end

section
namespace Sys2Proof.Machine

/-! The stack's entries, and Push and Pop over them (PushAndPop). -/

variable {s : State}

/-- A push appends its byte to the entries (R35). -/
theorem stackContents_push (v : Byte) (h : s.depth.val < 8) :
    ((s.setSlot ⟨s.depth.val, h⟩ v).setDepth ⟨s.depth.val + 1, by omega⟩).stackContents = s.stackContents ++ [v] := by
  have hlt : s.depth.val < (s.stk.toList.set s.depth.val v).length := by simpa using h
  show (s.stk.set s.depth.val v h).toList.take (s.depth.val + 1) = s.stk.toList.take s.depth.val ++ [v]
  rw [Vector.toList_set, ← List.take_append_getElem hlt, List.getElem_set_self, List.take_set_of_le le_rfl]

/-- A pop takes the last entry off (R36). -/
theorem stackContents_dropTop (h : 0 < s.depth.val) : s.stackContents = s.dropTop.stackContents ++ [s.top] := by
  have hlt : s.depth.val - 1 < s.stk.toList.length := by simp only [Vector.length_toList]; omega
  have htop : s.top = s.stk.toList[s.depth.val - 1] := (Vector.getElem_toList hlt).symm
  show s.stk.toList.take s.depth.val = s.stk.toList.take (s.depth.val - 1) ++ [s.top]
  rw [htop, List.take_append_getElem hlt, Nat.sub_add_cancel h]

/-- Settles O33: `sp + 1` is the number of entries, so the four cases are those of `push` and `pop`. -/
theorem pushAndPop : Obligations.PushAndPop := by
  unfold Obligations.PushAndPop State.sp
  refine ⟨fun v s h => ?_, fun v s h => push_of_full v (by omega), fun s h => ?_, fun s h => pop_of_empty (by omega)⟩
  · have hroom : s.depth.val < 8 := by omega
    refine ⟨_, push_of_lt v hroom, ?_, stackContents_push v hroom, rfl⟩
    simp only [State.setDepth_depth]
    omega
  · have hpos : 0 < s.depth.val := by omega
    refine ⟨_, _, pop_of_pos hpos, ?_, stackContents_dropTop hpos, rfl⟩
    simp only [dropTop_eq, State.setDepth_depth]
    omega

/-! What every register id reads and writes (RegisterIdsDecode). -/

/-- Settles O35: the rows of R24's table are the branches of `regRead` and `regWrite`. -/
theorem registerIdsDecode : Obligations.RegisterIdsDecode := by
  unfold Obligations.RegisterIdsDecode
  refine ⟨fun id s j h => ?_, fun id s h => ?_, fun id s h hpos => ⟨_, pop_of_pos hpos, ?_⟩, fun id s h => ?_,
    fun id v s j h => ?_, fun id v s h => ?_, fun id v s h => ?_⟩
  · have hid : id.toNat < 8 := h ▸ j.isLt
    have hj : (⟨id.toNat, hid⟩ : Fin 8) = j := Fin.ext h
    rw [regRead, dif_pos hid, hj]
    rfl
  · rw [regRead, dif_neg (by omega), if_pos h]
    rfl
  · rw [regRead, dif_neg (by omega), if_neg (by omega), if_pos h, pop_of_pos hpos]
    rfl
  · rw [regRead_of_not_readable (by omega), readCause, if_neg (by omega)]
    rfl
  · have hw : Writable id s := .inl (by omega)
    refine ⟨_, regWrite_of_writable v hw, ?_, fun k hk => ?_, ?_⟩
    · rw [afterWrite_reg, if_pos h]
    · rw [afterWrite_reg, if_neg (by rw [h]; exact fun e => hk (Fin.ext e.symm))]
    · rw [afterWrite, dif_pos (by omega)]
      rfl
  · rw [regWrite, dif_neg (by omega), if_pos h]
    rfl
  · rw [regWrite_of_not_writable v (by omega), writeCause, if_neg (by omega)]
    rfl

/-! Framebuffer, reset (FramebufferWriteIsBounded, ResetMeetsTheInvariant, ResetValues). -/

/-- Settles O40: the two branches of the bound, at 9360. -/
theorem framebufferWriteIsBounded : Obligations.FramebufferWriteIsBounded := by
  unfold Obligations.FramebufferWriteIsBounded
  exact fun off v s =>
    ⟨fun h => ⟨_, fbWrite_of_lt v s h, fun k => Memory.read_write' s.fb off k v, rfl⟩, fun h => fbWrite_of_le v s h⟩

/-- Settles O53: any external reset gives the invariant, and its result is the reset state. -/
theorem resetMeetsTheInvariant : Obligations.ResetMeetsTheInvariant := by
  unfold Obligations.ResetMeetsTheInvariant
  exact externalReset_inv State.reset

/-- Settles O54: the rows of R50's table, read off `State.reset`. -/
theorem resetValues : Obligations.ResetValues := by
  unfold Obligations.ResetValues
  intro s
  refine ⟨State.reset, rfl, rfl, by decide, rfl, rfl, by decide, by decide, rfl, rfl, fun a => ⟨rfl, rfl, rfl, rfl⟩, ?_⟩
  exact ⟨rfl, rfl, rfl, rfl, rfl, rfl, rfl, rfl, rfl⟩

/-! The canonical form of a memory (CanonicalMemoriesAreEqual). -/

/-- A canonical memory that holds an entry reads as 0 below it and not at it. -/
theorem Memory.read_cons_of_wfFrom {size lo k : Nat} {w : Byte} {rest : Memory}
    (h : Memory.wfFrom size lo ((k, w) :: rest) = true) :
    Memory.read ((k, w) :: rest) k ≠ 0 ∧ ∀ a, a < k → Memory.read ((k, w) :: rest) a = 0 := by
  obtain ⟨-, -, hw, hrest⟩ := Memory.wfFrom_cons h
  refine ⟨by rwa [Memory.read, if_pos rfl], fun a ha => ?_⟩
  rw [Memory.read, if_neg (by omega)]
  exact Memory.read_of_wfFrom_lt hrest (by omega)

/-- Canonical memories that read alike begin at the same address, the lowest that does not read as 0, and their rests
read alike. -/
theorem Memory.eq_of_wfFrom {size lo lo' : Nat} {m m' : Memory} (h : Memory.wfFrom size lo m = true)
    (h' : Memory.wfFrom size lo' m' = true) (heq : ∀ a, a < size → m.read a = m'.read a) : m = m' := by
  induction m generalizing lo lo' m' with
  | nil =>
    cases m' with
    | nil => rfl
    | cons c' rest' =>
      have hk' := (Memory.wfFrom_cons h').2.1
      exact absurd (heq c'.1 hk').symm (Memory.read_cons_of_wfFrom h').1
  | cons c rest ih =>
    obtain ⟨k, w⟩ := c
    obtain ⟨-, hk, -, hrest⟩ := Memory.wfFrom_cons h
    obtain ⟨hne, hbelow⟩ := Memory.read_cons_of_wfFrom h
    cases m' with
    | nil => exact absurd (heq k hk) hne
    | cons c' rest' =>
      obtain ⟨k', w'⟩ := c'
      obtain ⟨-, hk', -, hrest'⟩ := Memory.wfFrom_cons h'
      obtain ⟨hne', hbelow'⟩ := Memory.read_cons_of_wfFrom h'
      obtain rfl : k = k' := by
        rcases lt_trichotomy k k' with hlt | he | hlt
        · exact absurd ((heq k hk).trans (hbelow' k hlt)) hne
        · exact he
        · exact absurd ((heq k' hk').symm.trans (hbelow k' hlt)) hne'
      obtain rfl : w = w' := by simpa [Memory.read] using heq k hk
      rw [ih hrest hrest' fun a ha => ?_]
      by_cases hle : a ≤ k
      · rw [Memory.read_of_wfFrom_lt hrest (by omega), Memory.read_of_wfFrom_lt hrest' (by omega)]
      · simpa [Memory.read, show k ≠ a by omega] using heq a ha

/-- Settles O52: both memories are canonical from address 0. -/
theorem canonicalMemoriesAreEqual : Obligations.CanonicalMemoriesAreEqual := by
  unfold Obligations.CanonicalMemoriesAreEqual Memory.wf
  exact fun _ _ _ h h' heq => Memory.eq_of_wfFrom h h' heq

/-! A fetch past the end of memory (FetchPastTheEndHalts). -/

/-- Settles O5: the cases of `fetchInstr` at the end of memory and of an instruction cut off there. -/
theorem fetchPastTheEndHalts : Obligations.FetchPastTheEndHalts := by
  unfold Obligations.FetchPastTheEndHalts
  exact ⟨fun _ hh hpc => step_of_fetch_halted hh (fetchInstr_of_le hpc),
    fun _ _ hh hpc ho hcut => step_of_fetch_halted hh (fetchInstr_of_cut hpc ho hcut)⟩

end Sys2Proof.Machine
end

section
namespace Sys2Proof.Machine

/-! What an instruction leaves alone (PcAdvancesByTheLength, OnlyTheDestinationRegisterChanges,
StackChangesOnlyThroughIdTen, EachStateHasItsWriters). -/

/-- What instruction i, begun in s, may not have changed in t, field by field of the state but for the halt bit and
record. -/
structure Frame (i : Instr) (s t : State) : Prop where
  reg : ∀ j : Fin 8, i.dest ≠ some (BitVec.ofNat 8 j.val) → t.reg j = s.reg j
  input : t.input = s.input
  pc : i.opcode ∉ [Opcode.jmp, .jif, .mov] → t.pc = s.pc
  flags : i.opcode ≠ .cmp → t.flags = s.flags
  stack : i.opcode ≠ .push → (∀ r, r ∈ i.sources → r ≠ 10) → i.dest ≠ some 10 → t.stk = s.stk ∧ t.depth = s.depth
  hdr : i.opcode ≠ .lbl → t.hdrHi = s.hdrHi ∧ t.hdrLo = s.hdrLo
  mem : ∀ a, storeAddress i ≠ some a → t.mem.read a = s.mem.read a
  gpu : i.opcode ∉ [Opcode.pxl, .line, .prt] → t.fb = s.fb ∧ t.reports = s.reports
  reports : ∃ new, t.reports = s.reports ++ new
  alu : ¬ usesAlu i.opcode → t.aluA = s.aluA ∧ t.aluB = s.aluB ∧ t.aluR = s.aluR
  dbus : ¬ usesDbus i.opcode → t.dbus = s.dbus
  abus : ¬ (usesAbr i.opcode ∨ i.opcode = .mov) → t.abus = s.abus
  abr : ¬ usesAbr i.opcode → t.abr = s.abr
  freeIdx : i.opcode ≠ .lshift → t.freeIdx = s.freeIdx

/-- Instruction i, begun in s, has not halted in t. -/
def RunningFrom (i : Instr) (s t : State) : Prop :=
  Frame i s t ∧ t.halted = s.halted ∧ t.haltRecord = s.haltRecord

/-- Instruction i, begun in s, has halted in t, with a cause R251 gives it. -/
def StoppedFrom (i : Instr) (s t : State) : Prop :=
  Frame i s t ∧ t.halted = true ∧ ∃ c, t.haltRecord = some c ∧ mayHaltWith i.opcode c = true

variable {i : Instr} {s t : State} {d : Byte}

theorem runningFrom_self (i : Instr) (s : State) : RunningFrom i s s where
  left :=
    { reg _ _ := rfl, input := rfl, pc _ := rfl, flags _ := rfl, stack _ _ _ := ⟨rfl, rfl⟩, hdr _ := ⟨rfl, rfl⟩
      mem _ _ := rfl, gpu _ := ⟨rfl, rfl⟩, reports := ⟨[], (List.append_nil _).symm⟩, alu _ := ⟨rfl, rfl, rfl⟩
      dbus _ := rfl, abus _ := rfl, abr _ := rfl, freeIdx _ := rfl }
  right := ⟨rfl, rfl⟩

theorem Frame.takeHalt (h : Frame i s t) {c : HaltCause} (hc : mayHaltWith i.opcode c = true) :
    StoppedFrom i s (t.takeHalt c) :=
  ⟨{ h with }, rfl, c, rfl, hc⟩

/-! The causes of R251's table that register operands give. -/

/-- An instruction with a source may halt on reading it. -/
theorem mayHaltWith_readCause {r : Byte} (hr : r ∈ i.sources) (id : Byte) :
    mayHaltWith i.opcode (readCause id) = true := by
  unfold readCause
  cases i with
  | nop | lbl | jmp | jif | mov | mtr | mtm | vtr | ftr | gmt => simp [Instr.sources] at hr
  | add | sub | mul | and | or | xor | not | rshift | lshift | cmp => split <;> rfl
  | push | rtr | rtm | rtv | pxl | line | prt => split <;> rfl

/-- An instruction with a destination may halt on writing it. -/
theorem mayHaltWith_writeCause (hd : i.dest = some d) (id v : Byte) :
    mayHaltWith i.opcode (writeCause id v) = true := by
  unfold writeCause
  cases i with
  | nop | lbl | jmp | jif | push | rtm | mtm | rtv | cmp | pxl | line | prt | gmt => simp [Instr.dest] at hd
  | add | sub | mul | and | or | xor | not | rshift | lshift => split <;> rfl
  | mov | rtr | mtr | vtr | ftr => split <;> rfl

/-- An instruction with a destination puts a value on the data bus. -/
theorem usesDbus_of_dest (hd : i.dest = some d) : usesDbus i.opcode := by
  cases i with
  | nop | lbl | jmp | jif | gmt => simp [Instr.dest] at hd
  | _ => simp [usesDbus, Instr.opcode]

/-! Register writes, pushes and draws. -/

theorem Frame.afterWrite (h : Frame i s t) (hd : i.dest = some d) (v : Byte) (hw : Writable d t) :
    Frame i s (afterWrite d v t) := by
  have hdbus : ¬ usesDbus i.opcode → v = s.dbus := absurd (usesDbus_of_dest hd)
  unfold Machine.afterWrite
  by_cases h8 : d.toNat < 8
  · rw [dif_pos h8]
    refine { h with reg := fun j hj => ?_, dbus := hdbus }
    have hne : (⟨d.toNat, h8⟩ : Fin 8) ≠ j := by
      rintro rfl
      exact hj (by rw [hd, BitVec.ofNat_toNat, BitVec.setWidth_eq])
    rw [State.reg_setReg, if_neg hne]
    exact h.reg j hj
  · have h10 : d.toNat = 10 ∧ t.depth.val < 8 := by omega
    have hdest : i.dest = some 10 := hd.trans (congrArg some (BitVec.eq_of_toNat_eq h10.1))
    rw [dif_neg h8, dif_pos h10.2]
    exact { h with stack := fun _ _ hn => absurd hdest hn, dbus := hdbus }

theorem RunningFrom.regWrite (h : RunningFrom i s t) (hd : i.dest = some d) (v : Byte) :
    (regWrite d v t).Ends (RunningFrom i s) (StoppedFrom i s) := by
  obtain ⟨hf, hhalted, hrecord⟩ := h
  rcases regWrite_cases d v t with ⟨hw, e⟩ | ⟨-, e⟩ <;> rw [e]
  · exact ⟨hf.afterWrite hd v hw, (afterWrite_halted d v t).trans hhalted, (afterWrite_haltRecord d v t).trans hrecord⟩
  · have hbus : Frame i s (t.setDbus v) := { hf with dbus := absurd (usesDbus_of_dest hd) }
    exact hbus.takeHalt (mayHaltWith_writeCause hd d v)

theorem RunningFrom.push (h : RunningFrom i s t) (ho : i.opcode = .push) (v : Byte) :
    (push v t).Ends (RunningFrom i s) (StoppedFrom i s) := by
  by_cases hlt : t.depth.val < 8
  · rw [push_of_lt v hlt]
    exact ⟨{ h.1 with stack := absurd ho }, h.2⟩
  · rw [push_of_full v (by omega)]
    exact h.1.takeHalt (by rw [ho]; rfl)

theorem Frame.report (h : Frame i s t) (ho : i.opcode ∈ [Opcode.pxl, .line, .prt]) (prim : GpuPrim) (x y : Int) :
    Frame i s (report prim x y t) := by
  obtain ⟨new, hnew⟩ := h.reports
  refine { h with gpu := absurd ho, reports := ⟨new ++ [⟨prim, x, y⟩], ?_⟩ }
  show t.reports ++ [_] = _
  rw [hnew, List.append_assoc]

theorem Frame.setFb (h : Frame i s t) (ho : i.opcode ∈ [Opcode.pxl, .line, .prt]) (m : Memory) :
    Frame i s (t.setFb m) :=
  { h with gpu := absurd ho }

theorem RunningFrom.pixelDrawn (h : RunningFrom i s t) (ho : i.opcode ∈ [Opcode.pxl, .line, .prt]) (c : Byte)
    (q : Int × Int) : RunningFrom i s (pixelDrawn c t q) := by
  unfold Machine.pixelDrawn
  split
  · exact ⟨h.1.setFb ho _, h.2⟩
  · exact ⟨h.1.report ho .pixel q.1 q.2, h.2⟩

theorem RunningFrom.drawChar (h : RunningFrom i s t) (ho : i.opcode = .prt) (x y : Int) (c : Byte) :
    (drawChar x y c t).Ends (RunningFrom i s) (StoppedFrom i s) := by
  have hmem : i.opcode ∈ [Opcode.pxl, .line, .prt] := by simp [ho]
  rcases drawChar_cases x y c t with ⟨-, -, e⟩ | ⟨-, -, e⟩ | ⟨-, e⟩ <;> rw [e]
  · exact ⟨h.1.setFb hmem _, h.2⟩
  · exact h.1.takeHalt (by rw [ho]; rfl)
  · exact ⟨h.1.report hmem .char x y, h.2⟩

/-- Every update an instruction can make keeps its frame, and every halt it can take is in R251's table. -/
theorem runningFrom_closed (i : Instr) (s : State) : ExecClosed params i (RunningFrom i s) (StoppedFrom i s) where
  dbus hb _ _ h := ⟨{ h.1 with dbus := absurd hb }, h.2⟩
  drop hr _ h _ :=
    ⟨{ h.1 with stack := fun _ hn _ => absurd rfl (hn 10 (readsUnder_params i ▸ hr)) }, h.2⟩
  readHalt id _ hr h _ := h.1.takeHalt (mayHaltWith_readCause (readsUnder_params i ▸ hr) id)
  write _ v _ hd h := h.regWrite hd v
  push ho v _ h := h.push ho v
  alu ho _ _ h :=
    ⟨⟨{ h.1 with alu := absurd ho }, h.2⟩, ⟨{ h.1 with alu := absurd ho }, h.2⟩,
      ⟨{ h.1 with alu := absurd ho }, h.2⟩⟩
  free ho _ _ h := ⟨{ h.1 with freeIdx := absurd ho }, h.2⟩
  flags ho _ _ _ h := ⟨{ h.1 with flags := absurd ho }, h.2⟩
  abr ho _ _ h := ⟨{ h.1 with abr := absurd ho }, h.2⟩
  abus ho _ _ h := ⟨{ h.1 with abus := absurd ho }, h.2⟩
  hdr _ _ _ hi _ h := ⟨{ h.1 with hdr := absurd (hi ▸ rfl) }, h.2⟩
  jump ho _ _ h _ := ⟨{ h.1 with pc := absurd (by rcases ho with ho | ho <;> simp [ho]) }, h.2⟩
  advance ho _ h _ := ⟨{ h.1 with pc := absurd (by simp [ho]) }, h.2⟩
  pastEnd ho _ h _ := h.1.takeHalt (by rw [ho]; rfl)
  store a v t ha _ h := by
    refine ⟨{ h.1 with mem := fun b hb => ?_ }, h.2⟩
    have hne : a ≠ b := fun e => hb (e ▸ ha)
    exact (Memory.read_write_of_ne t.mem v hne).trans (h.1.mem b hb)
  scratch _ _ _ h := h
  pixel ho _ c q h := h.pixelDrawn (by rcases ho with ho | ho <;> simp [ho]) c q
  char ho _ _ _ c h := h.drawChar ho _ _ c
  sentinel hi _ h := h.1.takeHalt (by rw [hi]; rfl)

/-- An instruction completes or halts within its frame. -/
theorem exec_runs_or_stops (he : exec i s = .next t) : RunningFrom i s t ∨ StoppedFrom i s t :=
  exec_keeps (runningFrom_closed i s) (runningFrom_self i s) he

theorem exec_frame (he : exec i s = .next t) : Frame i s t :=
  (exec_runs_or_stops he).elim And.left And.left

/-- Settles O47: the registers' clause of the frame. -/
theorem onlyTheDestinationRegisterChanges : Obligations.OnlyTheDestinationRegisterChanges := by
  unfold Obligations.OnlyTheDestinationRegisterChanges
  exact fun _ _ _ j he hd => (exec_frame he).reg j hd

/-- Settles O49: the stack's clause of the frame. -/
theorem stackChangesOnlyThroughIdTen : Obligations.StackChangesOnlyThroughIdTen := by
  unfold Obligations.StackChangesOnlyThroughIdTen
  exact fun _ _ _ he hpush hsrc hdest => (exec_frame he).stack hpush hsrc hdest

/-- Settles O50: the other clauses of the frame, and the two ends of `exec_runs_or_stops` for the halt. -/
theorem eachStateHasItsWriters : Obligations.EachStateHasItsWriters := by
  unfold Obligations.EachStateHasItsWriters
  intro i s t he
  have h := exec_frame he
  refine ⟨h.input, h.hdr, h.gpu, h.reports, h.pc, h.alu, fun hn => h.dbus (not_not.mpr hn), fun hn => h.abus ?_, h.abr,
    h.freeIdx, (exec_runs_or_stops he).imp And.right And.right⟩
  rintro (hu | hu)
  · simp only [usesAbr, List.mem_cons, List.not_mem_nil, or_false] at hu
    rcases hu with hu | hu | hu | hu | hu | hu | hu | hu <;> simp [hu] at hn
  · simp [hu] at hn

/-! The program counter after an instruction (PcAdvancesByTheLength). -/

/-- MOV advances past its immediate, or halts at the end of memory (R185, D22). -/
theorem exec_mov_pc {rTo : Byte} (he : exec (.mov rTo) s = .next t) : t.pc = s.pc + 1 ∨ t.halted = true := by
  cases he
  by_cases hpc : s.pc < memSize
  · left
    rw [fetchImmediate_of_lt hpc, Run.andThen_done, regWrite_final_pc, State.setPc_pc]
  · right
    rw [fetchImmediate_of_le (not_lt.mp hpc)]
    rfl

/-- After the fetch an instruction that is no jump and does not halt moves the program counter by what its length holds
besides the opcode and the operands: MOV's immediate (R31, R95, R105). -/
theorem exec_pc (hjmp : i.opcode ≠ .jmp) (hjif : i.opcode ≠ .jif) (he : exec i s = .next t) (ht : t.halted = false) :
    t.pc + 1 + i.opcode.operandCount = s.pc + i.opcode.length := by
  by_cases hmov : i.opcode = .mov
  · cases i with
    | mov rTo =>
      have hpc : t.pc = s.pc + 1 := (exec_mov_pc he).resolve_right (by simp [ht])
      rw [hpc]
      rfl
    | _ => cases hmov
  · rw [(exec_frame he).pc (by simp [hjmp, hjif, hmov]), Opcode.length, if_neg hmov, Nat.add_assoc]

/-- Settles O8: a fetch that halts is excluded, and one that completes leaves the rest to `exec_pc`. -/
theorem pcAdvancesByTheLength : Obligations.PcAdvancesByTheLength := by
  unfold Obligations.PcAdvancesByTheLength
  intro s t o hh ho hjmp hjif hst ht
  have hfetch : ∀ (u : State) (c : HaltCause), fetchInstr s ≠ .halted (u.takeHalt c) := by
    intro u c e
    cases (step_of_fetch_halted hh e).symm.trans hst
    cases ht
  rcases fetchInstr_cases s with ⟨-, e⟩ | ⟨-, -, e⟩ | ⟨-, o', -, -, e⟩ | ⟨-, o', ho', -, e⟩
  · exact absurd e (hfetch _ _)
  · exact absurd e (hfetch _ _)
  · exact absurd e (hfetch _ _)
  · obtain rfl : o' = o := Option.some.inj (ho'.symm.trans ho)
    have he := (step_of_fetch_done hh e).symm.trans hst
    have hpc := exec_pc (by rwa [Opcode.opcode_build]) (by rwa [Opcode.opcode_build]) he ht
    simp only [Opcode.opcode_build, State.setPc_pc] at hpc
    omega

end Sys2Proof.Machine
end

section
namespace Sys2Proof.Machine

/-! An instruction up to its register write (UnwritableDestinationHalts). -/

/-- Reads in turn change the depth and the data bus and nothing else. -/
theorem afterReads_eq (ids : List Byte) (s : State) : ∃ n v, afterReads ids s = (s.setDepth n).setDbus v := by
  induction ids generalizing s with
  | nil => exact ⟨s.depth, s.dbus, rfl⟩
  | cons id rest ih =>
    obtain ⟨n, v, e⟩ := ih (afterRead id s)
    refine ⟨n, v, ?_⟩
    rw [afterReads_cons, e, afterRead]
    split <;> rfl

/-- u is a state in which instruction i, begun in s, may write its destination: its sources read and MOV's immediate
fetched. Nothing is said of the buses, the latches and the counter of free values. -/
structure BeforeWrite (i : Instr) (s u : State) : Prop where
  pc : u.pc = if i.opcode = .mov then s.pc + 1 else s.pc
  depth : u.depth = (afterReads i.sources s).depth
  stk : u.stk = s.stk
  x : u.x = s.x
  input : u.input = s.input
  flags : u.flags = s.flags
  mem : u.mem = s.mem
  hdrHi : u.hdrHi = s.hdrHi
  hdrLo : u.hdrLo = s.hdrLo
  fb : u.fb = s.fb
  reports : u.reports = s.reports

variable {i : Instr} {d : Byte} {s u : State}

theorem beforeWrite_afterReads (hi : i.opcode ≠ .mov) : BeforeWrite i s (afterReads i.sources s) := by
  obtain ⟨n, v, e⟩ := afterReads_eq i.sources s
  constructor <;> simp [e, hi]

theorem BeforeWrite.writable_iff (h : BeforeWrite i s u) (d : Byte) :
    Writable d u ↔ Writable d (afterReads i.sources s) := by
  unfold Writable
  rw [h.depth]

/-! The updates between the reads and the write. -/

variable {v : Byte} {w : Word} {n : Nat}

theorem BeforeWrite.setAluA (h : BeforeWrite i s u) : BeforeWrite i s (u.setAluA v) := { h with }
theorem BeforeWrite.setAluB (h : BeforeWrite i s u) : BeforeWrite i s (u.setAluB v) := { h with }
theorem BeforeWrite.setAluR (h : BeforeWrite i s u) : BeforeWrite i s (u.setAluR v) := { h with }
theorem BeforeWrite.setFreeIdx (h : BeforeWrite i s u) : BeforeWrite i s (u.setFreeIdx n) := { h with }
theorem BeforeWrite.setAbr (h : BeforeWrite i s u) : BeforeWrite i s (u.setAbr w) := { h with }
theorem BeforeWrite.setAbus (h : BeforeWrite i s u) : BeforeWrite i s (u.setAbus w) := { h with }

/-! The instructions with a destination. -/

/-- R129, whichever way the write ends. -/
theorem binary_toOutcome (op : Byte → Byte → Byte) {r1 r2 : Byte} (h1 : Readable r1 s) (h2 : Readable r2 (afterRead r1 s))
    (rOut : Byte) :
    (binary op r1 r2 rOut s).toOutcome = .next
      (written rOut (op (readValue r1 s) (readValue r2 (afterRead r1 s)))
        ((((afterRead r2 (afterRead r1 s)).setAluA (readValue r1 s)).setAluB (readValue r2 (afterRead r1 s))).setAluR
          (op (readValue r1 s) (readValue r2 (afterRead r1 s))))) := by
  rw [binary, regRead_of_readable h1, Run.andThen_done, regRead_of_readable ((readable_setAluA _ _ _).mpr h2),
    Run.andThen_done, writeResult_aluRun, afterRead_setAluA, readValue_setAluA, Run.toOutcome_eq, regWrite_final,
    written_setDbus]
  rfl

/-- R136, whichever way the write ends. -/
theorem complement_toOutcome {r : Byte} (h : Readable r s) (rOut : Byte) :
    (complement r rOut s).toOutcome =
      .next (written rOut (~~~ readValue r s)
        (((afterRead r s).setAluA (readValue r s)).setAluR (~~~ readValue r s))) := by
  rw [complement, regRead_of_readable h, Run.andThen_done, writeResult, Run.toOutcome_eq, regWrite_final,
    written_setDbus]
  rfl

/-- R187, whichever way the write ends. -/
theorem exec_rtr_eq {rFrom : Byte} (h : Readable rFrom s) (rTo : Byte) :
    exec (.rtr rFrom rTo) s = .next (written rTo (readValue rFrom s) (afterRead rFrom s)) := by
  show Run.toOutcome _ = _
  rw [regRead_of_readable h, Run.andThen_done, Run.toOutcome_eq, regWrite_final]

/-- A load through the address on the bus (R62), whichever way the write ends. -/
theorem busRead_regWrite_final (rTo : Byte) (s : State) :
    ((busRead s).andThen fun _ t => regWrite rTo t.dbus t).final = written rTo (s.mem.read s.abus.toNat) s := by
  rw [busRead_eq, Run.andThen_done, regWrite_final, State.setDbus_dbus, written_setDbus]

/-- R188, whichever way the write ends. -/
theorem exec_mtr_eq (hi lo rTo : Byte) (s : State) :
    exec (.mtr hi lo rTo) s =
      .next (written rTo (s.mem.read (addressOf hi lo)) ((s.setAbr (cat hi lo)).setAbus (cat hi lo))) := by
  show Run.toOutcome _ = _
  rw [Run.toOutcome_eq, busRead_regWrite_final, absoluteAddress_eq, State.setAbus_abus, cat_toNat]
  rfl

/-- R191, whichever way the write ends. -/
theorem exec_vtr_eq (varId rTo : Byte) (s : State) :
    exec (.vtr varId rTo) s =
      .next (written rTo (s.mem.read (slotAddress varId)) ((s.setAbr 0xFFFF).setAbus (0xFFFF - zext16 varId))) := by
  rw [exec, execVtr, Run.toOutcome_eq, busRead_regWrite_final, variableAddress_eq, State.setAbus_abus, variable_toNat,
    slotAddress, State.setAbus_mem, State.setAbr_mem]

/-- R153, whichever way the write ends. -/
theorem exec_ftr_eq (rTo : Byte) (s : State) : exec (.ftr rTo) s = .next (written rTo s.flags s) := by
  show Run.toOutcome _ = _
  rw [Run.toOutcome_eq, regWrite_final, written_setDbus]

/-- R185 with an immediate inside memory, whichever way the write ends. -/
theorem exec_mov_eq (rTo : Byte) (h : s.pc < memSize) :
    exec (.mov rTo) s =
      .next (written rTo (s.mem.read s.pc) ((s.setAbus (BitVec.ofNat 16 s.pc)).setPc (s.pc + 1))) := by
  show Run.toOutcome _ = _
  rw [fetchImmediate_of_lt h, Run.andThen_done, Run.toOutcome_eq, regWrite_final]
  rfl

/-- Every instruction with a destination comes to write it, when its sources can be read and MOV's immediate exists, and
the byte it writes is `resultByte`. -/
theorem exec_writes_resultByte (hd : i.dest = some d) (hr : ReadableAll i.sources s)
    (hpc : i.opcode = .mov → s.pc < memSize) :
    ∃ u, exec i s = .next (written d (resultByte i s) u) ∧ BeforeWrite i s u := by
  have hb := beforeWrite_afterReads (i := i) (s := s)
  cases i with
  | nop | lbl | jmp | jif | push | rtm | mtm | rtv | cmp | pxl | line | prt | gmt => cases hd
  | add r1 r2 rOut | sub r1 r2 rOut | mul r1 r2 rOut | and r1 r2 rOut | or r1 r2 rOut | xor r1 r2 rOut =>
    cases hd
    exact ⟨_, binary_toOutcome _ hr.1 hr.2.1 d, (hb nofun).setAluA.setAluB.setAluR⟩
  | not r rOut =>
    cases hd
    exact ⟨_, complement_toOutcome hr.1 d, (hb nofun).setAluA.setAluR⟩
  | rshift r n rOut =>
    cases hd
    have e := execUnder_rshift_of_amount (p := params) (rOut := d) hr.1 (shiftAmount_literal rfl n _)
    exact ⟨_, e, (hb nofun).setAluA.setAluB.setAluR⟩
  | lshift r n rOut =>
    cases hd
    obtain ⟨A, B, R, k, e⟩ :=
      execUnder_lshift_of_amount (p := params) (rOut := d) hr.1 (shiftAmount_literal rfl n _)
    exact ⟨_, e, (hb nofun).setAluA.setAluB.setAluR.setFreeIdx⟩
  | mov rTo =>
    cases hd
    exact ⟨_, exec_mov_eq d (hpc rfl), by constructor <;> rfl⟩
  | rtr rFrom rTo =>
    cases hd
    exact ⟨_, exec_rtr_eq hr.1 d, hb nofun⟩
  | mtr hi lo rTo =>
    cases hd
    exact ⟨_, exec_mtr_eq hi lo d s, (hb nofun).setAbr.setAbus⟩
  | vtr varId rTo =>
    cases hd
    exact ⟨_, exec_vtr_eq varId d s, (hb nofun).setAbr.setAbus⟩
  | ftr rTo =>
    cases hd
    exact ⟨_, exec_ftr_eq d s, hb nofun⟩

/-- Settles O38: the write of `exec_writes_resultByte` halts, and what it leaves is the state before the write but for
the data bus and the halt. -/
theorem unwritableDestinationHalts : Obligations.UnwritableDestinationHalts := by
  unfold Obligations.UnwritableDestinationHalts
  intro i d s hd hr hw hpc
  obtain ⟨u, he, h⟩ := exec_writes_resultByte hd hr hpc
  rw [written_of_not_writable _ (mt (h.writable_iff d).mp hw)] at he
  exact ⟨_, he, rfl, rfl, rfl, h.pc, h.depth, h.stk, h.x, h.input, h.flags, h.mem, h.hdrHi, h.hdrLo, h.fb, h.reports⟩

end Sys2Proof.Machine
end

section
namespace Sys2Proof.Machine

/-! Main memory and sessions (OnlyTheStoredByteChanges, EveryReachableSessionMeetsTheInvariant). -/

/-- Settles O48: the memory's clause of the frame. -/
theorem onlyTheStoredByteChanges : Obligations.OnlyTheStoredByteChanges := by
  unfold Obligations.OnlyTheStoredByteChanges
  exact fun _ _ _ a he ha => (exec_frame he).mem a ha

/-- Settles O58, by induction on how the session was brought about: reset is O53, every further interaction O60. -/
theorem everyReachableSessionMeetsTheInvariant : Obligations.EveryReachableSessionMeetsTheInvariant := by
  unfold Obligations.EveryReachableSessionMeetsTheInvariant
  intro σ hσ
  obtain ⟨hkeep, -⟩ := everyHostStepKeepsTheInvariant
  induction hσ with
  | reset => exact resetMeetsTheInvariant
  | event e σ τ r _ he ih => exact hkeep e σ τ r ih he

end Sys2Proof.Machine
end

section
namespace Sys2Proof

open Machine

/-! The decoder and the encoder (DecodeAndEncodeAgree, UnknownOpcodesHalt, KnownWordsDecode). -/

/-- What the encoder writes decodes, with the bytes behind it left over. -/
theorem decode_encode_append (i : Instr) (rest : List Byte) : decode (encode i ++ rest) = .ok (i, rest) := by
  rw [encode, List.cons_append, decode_cons, Opcode.ofByte_toByte]
  simp only [← Instr.length_operands, List.length_append, Nat.le_add_right, if_true, List.take_left, List.drop_left,
    Opcode.build_operands]

/-- An instruction built from as many bytes as its opcode declares is encoded by the opcode byte and these bytes. -/
theorem encode_build {o : Opcode} {bs : List Byte} (h : bs.length = o.operandCount) :
    encode (o.build bs) = o.toByte :: bs := by
  rw [encode, Opcode.opcode_build, Opcode.operands_build h]

/-- Bytes that decode are the encoding of what they decode to, followed by the bytes left over. -/
theorem eq_encode_append_of_decode {bs rest : List Byte} {i : Instr} (h : decode bs = .ok (i, rest)) :
    bs = encode i ++ rest := by
  cases bs with
  | nil => cases h
  | cons op tail =>
    rw [decode_cons] at h
    cases ho : Opcode.ofByte op with
    | none => simp [ho] at h
    | some o =>
      by_cases hlen : o.operandCount ≤ tail.length
      · simp only [ho, if_pos hlen, Except.ok.injEq, Prod.mk.injEq] at h
        obtain ⟨rfl, rfl⟩ := h
        rw [encode_build (List.length_take_of_le hlen), Opcode.toByte_of_ofByte ho, List.cons_append,
          List.take_append_drop]
      · simp [ho, hlen] at h

/-- Settles O2: what is encoded decodes, and what decodes is its own encoding. -/
theorem decodeAndEncodeAgree : Obligations.DecodeAndEncodeAgree := by
  unfold Obligations.DecodeAndEncodeAgree
  exact fun _ rest i => ⟨eq_encode_append_of_decode, fun h => h ▸ decode_encode_append i rest⟩

/-- The opcode bytes of R97, in the order of the table, are 0x00 to 0x16 and then 0x50 to 0x53. -/
theorem Opcode.all_map_toNat_toByte :
    Opcode.all.map (fun o => o.toByte.toNat) = List.range 0x17 ++ List.range' 0x50 4 := by decide

/-- A byte is unknown when it is not the byte of a row. -/
theorem Opcode.ofByte_eq_none_iff {b : Byte} :
    Opcode.ofByte b = none ↔ b.toNat ∉ Opcode.all.map fun o => o.toByte.toNat := by
  simp only [Opcode.ofByte, List.find?_eq_none, beq_iff_eq, List.mem_map, not_exists, not_and, BitVec.toNat_inj]

/-- R98: the bytes between the two blocks of opcodes, and those above the second, are unknown. -/
theorem Opcode.ofByte_eq_none_iff_range {b : Byte} :
    Opcode.ofByte b = none ↔ (0x17 ≤ b.toNat ∧ b.toNat ≤ 0x4F) ∨ (0x54 ≤ b.toNat ∧ b.toNat ≤ 0xFF) := by
  rw [Opcode.ofByte_eq_none_iff, Opcode.all_map_toNat_toByte, List.mem_append, List.mem_range, List.mem_range'_1]
  have hb : b.toNat < 256 := b.isLt
  omega

/-- Settles O3: the ranges are those left out by the table's opcode bytes, and a fetch of such a byte halts. -/
theorem unknownOpcodesHalt : Obligations.UnknownOpcodesHalt := by
  unfold Obligations.UnknownOpcodesHalt
  exact ⟨fun _ => Opcode.ofByte_eq_none_iff_range,
    fun _ hh hpc ho => step_of_fetch_halted hh (fetchInstr_of_unknown hpc ho)⟩

/-- Settles O1: the first eight words are encodings, and the ninth begins with a byte of no row. -/
theorem knownWordsDecode : Obligations.KnownWordsDecode := by
  unfold Obligations.KnownWordsDecode
  have hunknown : Opcode.ofByte 0x17 = none := Opcode.ofByte_eq_none_iff_range.mpr (by decide)
  exact ⟨decode_encode_append (.add 1 2 3) [], decode_encode_append (.lshift 0 3 1) [],
    decode_encode_append (.cmp 0 1) [], decode_encode_append (.jif 1 5) [], decode_encode_append (.mov 0) [0x2A],
    decode_encode_append (.mtm 0x12 0x34 0x12 0x35) [], decode_encode_append (.line 0 1 2 3 4) [],
    decode_encode_append .gmt [], by rw [decode_cons, hunknown]⟩

end Sys2Proof
end

section
namespace Sys2Proof.Machine

/-! The ALU operations, and the ALU instructions with a writable destination (AluOperationsOnBytes,
BinaryInstructionsComplete, NotCompletes, ShiftsComplete). -/

/-- R122: the borrow brings the difference of the numbers back between 0 and 255. -/
theorem aluSub_toNat (a b : Byte) : ((aluSub a b).toNat : Int) = ((a.toNat : Int) - (b.toNat : Int)) % 256 := by
  have hb : b.toNat < 256 := b.isLt
  have hsub : (aluSub a b).toNat = (256 - b.toNat + a.toNat) % 256 := BitVec.toNat_sub a b
  omega

/-- Settles O9: subtraction is `aluSub_toNat`; the other operations are the library's on bit vectors. -/
theorem aluOperationsOnBytes : Obligations.AluOperationsOnBytes := by
  unfold Obligations.AluOperationsOnBytes
  exact fun a b => ⟨BitVec.toNat_add a b, aluSub_toNat a b, BitVec.toNat_mul a b, fun _ _ => BitVec.getLsbD_xor,
    fun _ _ => BitVec.getLsbD_or, fun _ _ => BitVec.getLsbD_and, BitVec.toNat_not, fun _ _ => rfl⟩

/-- Settles O10: each of the six is `binary` at its own operation. -/
theorem binaryInstructionsComplete : Obligations.BinaryInstructionsComplete := by
  unfold Obligations.BinaryInstructionsComplete
  intro r1 r2 rOut s a s1 b s2 result h1 h2 hw
  have hop : ∀ op : Byte → Byte → Byte, (binary op r1 r2 rOut s).toOutcome = .next (result (op a b)) :=
    fun op => congrArg Run.toOutcome (binary_of_readable op h1 h2 hw)
  exact ⟨hop aluAdd, hop aluSub, hop aluMul, hop aluAnd, hop aluOr, hop aluXor⟩

/-- Settles O11: NOT is `complement`. -/
theorem notCompletes : Obligations.NotCompletes := by
  unfold Obligations.NotCompletes
  exact fun _ _ _ h hw => congrArg Run.toOutcome (complement_of_readable h hw)

/-- Settles O12: the case of a literal amount of O13 at `params`, where the write completes. -/
theorem shiftsComplete : Obligations.ShiftsComplete := by
  unfold Obligations.ShiftsComplete
  refine ⟨rfl, fun r n rOut s h hw => ?_⟩
  obtain ⟨hliteral, -⟩ := shiftsUnderEveryParameter params r n rOut s
  obtain ⟨hright, A, B, R, k, hleft⟩ := hliteral h rfl
  rw [written_of_writable _ (by exact hw)] at hright hleft
  exact ⟨hright, A, B, R, k, hleft⟩

end Sys2Proof.Machine
end

section
namespace Sys2Proof.Machine

/-! The compare, the flags register, and JIF's test of it (CompareWordBits, CompareCompletes, OnlyCmpWritesFlags,
FtrCopiesFlags, JifAgreesWithTheLastCompare). -/

/-- Each of six Booleans packed as in R150 stands at its own bit, and bits 7:6 stay 0. -/
theorem getLsbD_packedFlags : ∀ eq gt lt ge le ne : Bool,
    let w := bit eq * 1 + bit gt * 2 + bit lt * 4 + bit ge * 8 + bit le * 16 + bit ne * 32
    w.getLsbD 0 = eq ∧ w.getLsbD 1 = gt ∧ w.getLsbD 2 = lt ∧ w.getLsbD 3 = ge ∧ w.getLsbD 4 = le ∧
      w.getLsbD 5 = ne ∧ w.getLsbD 6 = false ∧ w.getLsbD 7 = false := by
  decide

/-- Settles O15: the compare packs its five comparisons and the negation of equal. -/
theorem compareWordBits : Obligations.CompareWordBits := by
  unfold Obligations.CompareWordBits
  exact fun p a b =>
    getLsbD_packedFlags (aluEq p a b) (aluGt p a b) (aluLt p a b) (aluGe p a b) (aluLe p a b) (!aluEq p a b)

/-- Settles O16: CMP is `compareRegs`. -/
theorem compareCompletes : Obligations.CompareCompletes := by
  unfold Obligations.CompareCompletes
  exact fun _ _ _ h1 h2 => ⟨fun p => compareRegs_of_readable p h1 h2,
    congrArg Run.toOutcome (compareRegs_of_readable params h1 h2)⟩

/-- Settles O17: the flags' clause of the frame; a halted core and a fetch that halts keep the flags too. -/
theorem onlyCmpWritesFlags : Obligations.OnlyCmpWritesFlags := by
  unfold Obligations.OnlyCmpWritesFlags
  refine ⟨fun i s t he => (exec_frame he).flags, fun s t hst hne => ?_⟩
  cases hh : s.halted with
  | true =>
    cases (step_of_halted hh).symm.trans hst
    exact absurd rfl hne
  | false =>
    have hfetch : ∀ u : State, u.flags = s.flags → fetchInstr s ≠ .halted u := by
      intro u hu e
      cases (step_of_fetch_halted hh e).symm.trans hst
      exact hne hu
    rcases fetchInstr_cases s with ⟨-, e⟩ | ⟨-, -, e⟩ | ⟨-, o, -, -, e⟩ | ⟨-, o, ho, -, e⟩
    · exact absurd e (hfetch _ rfl)
    · exact absurd e (hfetch _ rfl)
    · exact absurd e (hfetch _ rfl)
    · have hframe := exec_frame ((step_of_fetch_done hh e).symm.trans hst)
      have hcmp : o = .cmp := by
        by_contra hn
        exact hne (hframe.flags (by rwa [Opcode.opcode_build]))
      rw [← Opcode.toByte_of_ofByte ho, hcmp, Opcode.toByte]

/-- Settles O18: both ends of the register write of `exec_ftr_eq`. -/
theorem ftrCopiesFlags : Obligations.FtrCopiesFlags := by
  unfold Obligations.FtrCopiesFlags
  intro rTo s
  rw [exec_ftr_eq]
  exact ⟨fun hw => by rw [written_of_writable _ hw], fun hw => by rw [written_of_not_writable _ hw]; rfl⟩

/-! R151's table, row by row, and JIF on a flags bit (R172). -/

section FlagBits

variable {signed : Bool} {a b : Byte}

theorem flagWord_of_eq (h : byteVal signed a = byteVal signed b) : flagWord signed a b = 0x19 := if_pos h

theorem flagWord_of_gt (h : byteVal signed a > byteVal signed b) : flagWord signed a b = 0x2A := by
  rw [flagWord, if_neg (ne_of_gt h), if_pos h]

theorem flagWord_of_lt (h : byteVal signed a < byteVal signed b) : flagWord signed a b = 0x34 := by
  rw [flagWord, if_neg (ne_of_lt h), if_neg (not_lt_of_gt h)]

variable {w idx cmp : Byte} {s : State}

theorem exec_jif_of_bit_set (hf : s.flags = w) (hb : cmp.toNat ≤ 7 ∧ w.getLsbD cmp.toNat = true) :
    exec (.jif idx cmp) s = exec (.jmp idx) s := by
  obtain ⟨hle, hbit⟩ := hb
  have htaken : jifTaken params cmp s.flags = true := by rw [jifTaken, if_pos hle, hf, hbit]
  show Host.Outcome.next (jumpIf params idx cmp s) = .next (jumpThrough idx s)
  rw [jumpIf_eq, if_pos htaken]

theorem exec_jif_of_bit_clear (hf : s.flags = w) (hb : cmp.toNat ≤ 7 ∧ w.getLsbD cmp.toNat = false) :
    exec (.jif idx cmp) s = .next s := by
  obtain ⟨hle, hbit⟩ := hb
  have htaken : jifTaken params cmp s.flags = false := by rw [jifTaken, if_pos hle, hf, hbit]
  show Host.Outcome.next (jumpIf params idx cmp s) = _
  rw [jumpIf_eq, htaken, if_neg Bool.false_ne_true]

end FlagBits

/-- Settles O23: CMP leaves the word of R151's table in the flags, whose set bits JIF takes and whose clear bits it does
not. -/
theorem jifAgreesWithTheLastCompare : Obligations.JifAgreesWithTheLastCompare := by
  unfold Obligations.JifAgreesWithTheLastCompare
  intro r1 r2 idx s t h1 h2 he va vb taken
  have hflags : t.flags = flagWord params.cmpSigned (readValue r1 s) (readValue r2 (afterRead r1 s)) := by
    cases (compareCompletes r1 r2 s h1 h2).2.symm.trans he
    rfl
  have hclear : ∀ {w : Byte} {bits : List Nat}, t.flags = w → (∀ n ∈ bits, n ≤ 7 ∧ w.getLsbD n = false) →
      ∀ c : Byte, c.toNat ∈ bits → exec (.jif idx c) t = .next t :=
    fun hf hbits c hc => exec_jif_of_bit_clear hf (hbits c.toNat hc)
  refine ⟨fun h => ?eq, fun h => ?gt, fun h => ?lt⟩
  case eq =>
    have hf : t.flags = 0x19 := hflags.trans (flagWord_of_eq h)
    exact ⟨exec_jif_of_bit_set hf (by decide), exec_jif_of_bit_set hf (by decide), exec_jif_of_bit_set hf (by decide),
      hclear hf (by decide)⟩
  case gt =>
    have hf : t.flags = 0x2A := hflags.trans (flagWord_of_gt h)
    exact ⟨exec_jif_of_bit_set hf (by decide), exec_jif_of_bit_set hf (by decide), exec_jif_of_bit_set hf (by decide),
      hclear hf (by decide)⟩
  case lt =>
    have hf : t.flags = 0x34 := hflags.trans (flagWord_of_lt h)
    exact ⟨exec_jif_of_bit_set hf (by decide), exec_jif_of_bit_set hf (by decide), exec_jif_of_bit_set hf (by decide),
      hclear hf (by decide)⟩

end Sys2Proof.Machine
end

section
namespace Sys2Proof.Machine

/-! The fetch of an instruction's bytes, and NOP (StepRunsTheDecodedInstruction, NopHaltsWithTheSentinel). -/

section FetchEncoded

variable {s : State} {op : Byte} {bs : List Byte}

theorem BytesAt.read_pc (h : BytesAt s s.pc (op :: bs)) : s.mem.read s.pc = op := h.2 0 (Nat.zero_lt_succ _)

theorem BytesAt.read_behind_pc (h : BytesAt s s.pc (op :: bs)) :
    (List.range bs.length).map (fun j => s.mem.read (s.pc + 1 + j)) = bs := by
  refine List.ext_getElem (by simp) fun k _ hk => ?_
  have hread : s.mem.read (s.pc + (k + 1)) = bs[k] := h.2 (k + 1) (Nat.succ_lt_succ hk)
  rw [List.getElem_map, List.getElem_range, Nat.add_right_comm, Nat.add_assoc, hread]

/-- R165, R166: fetching an instruction's encoding gives the instruction and moves the program counter past it. -/
theorem fetchInstr_of_bytesAt_encode {i : Instr} (h : BytesAt s s.pc (encode i)) :
    fetchInstr s = .done i (s.setPc (s.pc + (encode i).length)) := by
  have hfit : s.pc + (i.opcode.operandCount + 1) ≤ memSize := i.length_operands ▸ h.1
  have hoperands : (List.range i.opcode.operandCount).map (fun j => s.mem.read (s.pc + 1 + j)) = i.operands :=
    i.length_operands ▸ h.read_behind_pc
  have hopcode : Opcode.ofByte (s.mem.read s.pc) = some i.opcode := by rw [h.read_pc, Opcode.ofByte_toByte]
  rw [fetchInstr_of_known (by omega) hopcode (by omega), hoperands, Opcode.build_operands, encode, List.length_cons,
    Instr.length_operands, Nat.add_assoc, Nat.add_comm 1]

end FetchEncoded

/-- Settles O4: bytes that decode with nothing left are an encoding, and its fetch leaves the execute part. -/
theorem stepRunsTheDecodedInstruction : Obligations.StepRunsTheDecodedInstruction := by
  unfold Obligations.StepRunsTheDecodedInstruction
  intro s i bs hh hbytes hdecode
  obtain rfl : bs = encode i := by simpa using eq_encode_append_of_decode hdecode
  have hfetch := fetchInstr_of_bytesAt_encode hbytes
  exact ⟨step_of_fetch_done hh hfetch, fun _ => stepBy_of_fetch_done hh hfetch⟩

/-- Settles O19: the one byte 0 is the encoding of NOP, so O4 gives the step. -/
theorem nopHaltsWithTheSentinel : Obligations.NopHaltsWithTheSentinel := by
  unfold Obligations.NopHaltsWithTheSentinel
  refine ⟨fun _ => rfl, fun s hh hpc hzero => ?_⟩
  have hbytes : BytesAt s s.pc (encode .nop) := by
    refine ⟨hpc, fun k hk => ?_⟩
    obtain rfl : k = 0 := Nat.lt_one_iff.mp hk
    exact hzero
  obtain ⟨hstep, -⟩ := stepRunsTheDecodedInstruction s .nop _ hh hbytes (decode_encode_append .nop [])
  exact hstep

end Sys2Proof.Machine
end

section
namespace Sys2Proof.Machine

/-! The header tables and jumps through them (LblRecordsTheAddress, JmpGoesToTheHeaderEntry, JifTestsTheFlagsBit,
JumpGoesToTheMostRecentLabel). -/

/-- R169: the two bytes that go through the address bus are the operands. -/
theorem exec_lbl_eq (idx hi lo : Byte) (s : State) :
    exec (.lbl idx hi lo) s = .next (hdrWrite idx hi lo (absoluteAddress hi lo s)) := by
  show Host.Outcome.next (hdrWrite idx (hiByte (cat hi lo)) (loByte (cat hi lo)) (absoluteAddress hi lo s)) = _
  rw [hiByte_cat, loByte_cat]

theorem exec_jmp_eq (idx : Byte) (s : State) : exec (.jmp idx) s = .next (jumpThrough idx s) := rfl

theorem hdrRead_toNat (idx : Byte) (s : State) :
    (hdrRead idx s).toNat = addressOf (s.hdrHi.read idx.toNat) (s.hdrLo.read idx.toNat) := cat_toNat _ _

theorem hdrRead_hdrWrite_self (idx hi lo : Byte) (s : State) : hdrRead idx (hdrWrite idx hi lo s) = cat hi lo := by
  simp [hdrRead, hdrWrite]

theorem hdrRead_hdrWrite_of_ne {idx idx' : Byte} (h : idx ≠ idx') (hi lo : Byte) (s : State) :
    hdrRead idx (hdrWrite idx' hi lo s) = hdrRead idx s := by
  have hne : idx'.toNat ≠ idx.toNat := fun e => h (BitVec.eq_of_toNat_eq e.symm)
  simp [hdrRead, hdrWrite, Memory.read_write_of_ne _ _ hne]

/-- Staging an address does not touch the header tables. -/
theorem hdrRead_absoluteAddress (idx hi lo : Byte) (s : State) :
    hdrRead idx (absoluteAddress hi lo s) = hdrRead idx s := rfl

/-- Settles O20: the two tables by reading after a write; address-bus register and bus hold the staged address. -/
theorem lblRecordsTheAddress : Obligations.LblRecordsTheAddress := by
  unfold Obligations.LblRecordsTheAddress
  exact fun idx hi lo s => ⟨_, exec_lbl_eq idx hi lo s, fun k => Memory.read_write' _ _ k hi,
    fun k => Memory.read_write' _ _ k lo, cat_toNat hi lo, cat_toNat hi lo, rfl⟩

/-- Settles O21: register, bus and program counter all take the header entry. -/
theorem jmpGoesToTheHeaderEntry : Obligations.JmpGoesToTheHeaderEntry := by
  unfold Obligations.JmpGoesToTheHeaderEntry
  exact fun idx s => ⟨_, exec_jmp_eq idx s, hdrRead_toNat idx s, rfl, rfl, rfl⟩

theorem jumpIf_of_high (p : Params) (idx : Byte) {cmp : Byte} (s : State) (h : 8 ≤ cmp.toNat) :
    jumpIf p idx cmp s = if p.jifCmpHigh cmp s.flags then jumpThrough idx s else s := by
  have htaken : jifTaken p cmp s.flags = p.jifCmpHigh cmp s.flags := if_neg (by omega)
  rw [jumpIf_eq, htaken]

/-- Settles O22: the two values of the tested bit, and a compare type from 8 up at `params` and at any parameters. -/
theorem jifTestsTheFlagsBit : Obligations.JifTestsTheFlagsBit := by
  unfold Obligations.JifTestsTheFlagsBit
  intro idx cmp s
  refine ⟨fun hle hset => ?taken, fun hle hclear => ?notTaken, fun hhigh => ?high, fun p hhigh => ?highUnder⟩
  case taken =>
    exact ⟨_, (exec_jif_of_bit_set rfl ⟨hle, hset⟩).trans (exec_jmp_eq idx s), exec_jmp_eq idx s, hdrRead_toNat idx s⟩
  case notTaken => exact exec_jif_of_bit_clear rfl ⟨hle, hclear⟩
  case high => exact congrArg Host.Outcome.next (jumpIf_of_high params idx s hhigh)
  case highUnder => exact jumpIf_of_high p idx s hhigh

/-- Settles O24: the later LBL leaves the entry of another index as the first one wrote it. -/
theorem jumpGoesToTheMostRecentLabel : Obligations.JumpGoesToTheMostRecentLabel := by
  unfold Obligations.JumpGoesToTheMostRecentLabel
  intro idx hi lo idx' hi' lo' s t u hne hfirst hlater
  obtain rfl := Host.Outcome.next.inj ((exec_lbl_eq idx hi lo s).symm.trans hfirst)
  obtain rfl := Host.Outcome.next.inj ((exec_lbl_eq idx' hi' lo' _).symm.trans hlater)
  refine ⟨_, exec_jmp_eq idx _, ?_⟩
  rw [jumpThrough_eq, State.setPc_pc, hdrRead_hdrWrite_of_ne hne, hdrRead_absoluteAddress, hdrRead_hdrWrite_self,
    cat_toNat, addressOf]

end Sys2Proof.Machine
end

section
namespace Sys2Proof.Machine

/-! Loads and register copies (MovLoadsTheByteAtPc, RtrCopies, LoadsComplete). -/

variable {r : Byte} {s : State}

/-- R185, D22: MOV whose immediate would lie past the end of memory. -/
theorem exec_mov_of_le (rTo : Byte) (h : memSize ≤ s.pc) :
    exec (.mov rTo) s = .next (s.takeHalt (.memoryFault .main s.pc)) := by
  show Run.toOutcome _ = _
  rw [fetchImmediate_of_le h]
  rfl

/-- Settles O25: both ends of the register write of `exec_mov_eq`, and the end of memory. -/
theorem movLoadsTheByteAtPc : Obligations.MovLoadsTheByteAtPc := by
  unfold Obligations.MovLoadsTheByteAtPc
  intro rTo s t
  refine ⟨fun hpc hw => ?_, fun hpc hw => ?_, fun hpc => exec_mov_of_le rTo hpc⟩
  · rw [exec_mov_eq rTo hpc, written_of_writable _ (by exact hw)]
    rfl
  · rw [exec_mov_eq rTo hpc, written_of_not_writable _ (by exact hw)]
    rfl

/-- The value read is on the data bus already, so putting it there again changes nothing (R26). -/
theorem setDbus_afterRead (id : Byte) (s : State) : (afterRead id s).setDbus (readValue id s) = afterRead id s := by
  unfold afterRead
  split <;> rfl

/-- Settles O27: both ends of the register write of `exec_rtr_eq`. -/
theorem rtrCopies : Obligations.RtrCopies := by
  unfold Obligations.RtrCopies
  intro rFrom rTo s h
  rw [exec_rtr_eq h]
  exact ⟨fun hw => by rw [written_of_writable _ hw],
    fun hw => by rw [written_of_not_writable _ hw, setDbus_afterRead]⟩

theorem cat_toNat_eq_addressOf (hi lo : Byte) : (cat hi lo).toNat = addressOf hi lo := cat_toNat hi lo

/-- Settles O28: the register write of `exec_mtr_eq` and of `exec_vtr_eq` completes. -/
theorem loadsComplete : Obligations.LoadsComplete := by
  unfold Obligations.LoadsComplete
  intro hi lo varId rTo s hw
  rw [exec_mtr_eq, exec_vtr_eq, written_of_writable _ (by exact hw), written_of_writable _ (by exact hw)]
  exact ⟨⟨_, rfl, rfl, cat_toNat_eq_addressOf hi lo, cat_toNat_eq_addressOf hi lo⟩,
    ⟨_, rfl, rfl, rfl, variable_toNat varId⟩⟩

/-! A register read that halts what begins with it (R26, R254). -/

theorem regRead_of_no_register (h : r.toNat = 9 ∨ 11 ≤ r.toNat) :
    regRead r s = .halted (s.takeHalt (.busFault .read r)) := by
  rw [regRead_of_not_readable (by omega), readCause, if_neg (by omega)]

theorem regRead_of_stack_empty (h : r.toNat = 10) (hd : s.depth.val = 0) :
    regRead r s = .halted (s.takeHalt .stackUnderflow) := by
  rw [regRead_of_not_readable (by omega), readCause, if_pos h]

theorem toOutcome_of_regRead_halted {β : Type} {t : State} (h : regRead r s = .halted t)
    (k : Byte → State → Run β) : ((regRead r s).andThen k).toOutcome = .next t := by
  rw [h]
  rfl

/-! PUSH (PushPushesTheRegister). -/

/-- R186: what follows the read of a readable register is the push of its value. -/
theorem exec_push_eq (h : Readable r s) : exec (.push r) s = (push (readValue r s) (afterRead r s)).toOutcome := by
  show Run.toOutcome _ = _
  rw [regRead_of_readable h, Run.andThen_done]

/-- Reading a register changes the depth and the data bus and nothing else. -/
theorem afterRead_eq (id : Byte) (s : State) : ∃ n, afterRead id s = (s.setDepth n).setDbus (readValue id s) := by
  unfold afterRead
  split
  · exact ⟨_, rfl⟩
  · exact ⟨s.depth, rfl⟩

theorem afterRead_of_ne_stack {id : Byte} (h : id.toNat ≠ 10) (s : State) :
    afterRead id s = s.setDbus (readValue id s) := if_neg h

/-- The byte pushed is the new top entry (R35). -/
theorem top_pushed (v : Byte) (h : s.depth.val < 8) :
    ((s.setSlot ⟨s.depth.val, h⟩ v).setDepth ⟨s.depth.val + 1, by omega⟩).top = v := s.slot_setSlot_self _ v

/-- Settles O26: the two ends of the push after a read, and the two halts of the read. -/
theorem pushPushesTheRegister : Obligations.PushPushesTheRegister := by
  unfold Obligations.PushPushesTheRegister
  intro r s
  refine ⟨fun hroom h => ?_, fun h => ⟨_, toOutcome_of_regRead_halted (regRead_of_no_register h) _, rfl, rfl⟩,
    fun h hd => ⟨_, toOutcome_of_regRead_halted (regRead_of_stack_empty h hd) _, rfl, rfl⟩, fun h hfull => ?_⟩
  · rw [exec_push_eq h]
    obtain ⟨n, e⟩ := afterRead_eq r s
    generalize afterRead r s = u at hroom e
    subst e
    rw [push_of_lt _ hroom]
    refine ⟨_, rfl, rfl, top_pushed _ hroom, fun j hj => ?_, rfl⟩
    exact (State.slot_setSlot _ _ j _).trans (if_neg fun he => hj (congrArg Fin.val he).symm)
  · rw [exec_push_eq (.inl h), afterRead_of_ne_stack (by omega), push_of_full _ (by exact hfull)]
    exact ⟨_, rfl, rfl, rfl, rfl, rfl⟩

/-! Stores (RtmStoresOneByte, RtvStoresOneByte, MtmCopiesOneByte, StoredVariableIsLoaded). -/

/-- A readable register stored at the address put on the bus after the read (R62). -/
theorem regRead_busWrite_toOutcome (h : Readable r s) (b a : Word) :
    ((regRead r s).andThen fun _ t => busWrite ((t.setAbr b).setAbus a)).toOutcome =
      .next ((((afterRead r s).setMem (s.mem.write a.toNat (readValue r s))).setAbr b).setAbus a) := by
  rw [regRead_of_readable h, Run.andThen_done, busWrite_eq, State.setAbus_abus, State.setAbus_dbus, State.setAbr_dbus,
    afterRead_dbus, State.setAbus_mem, State.setAbr_mem, afterRead_mem]
  rfl

/-- R189. -/
theorem exec_rtm_eq (h : Readable r s) (hi lo : Byte) :
    exec (.rtm r hi lo) s =
      .next ((((afterRead r s).setMem (s.mem.write (addressOf hi lo) (readValue r s))).setAbr (cat hi lo)).setAbus
        (cat hi lo)) := by
  rw [← cat_toNat_eq_addressOf]
  exact regRead_busWrite_toOutcome h _ _

/-- R192. -/
theorem exec_rtv_eq (h : Readable r s) (varId : Byte) :
    exec (.rtv r varId) s =
      .next ((((afterRead r s).setMem (s.mem.write (slotAddress varId) (readValue r s))).setAbr 0xFFFF).setAbus
        (0xFFFF - zext16 varId)) := by
  rw [slotAddress, ← variable_toNat, exec, execRtv]
  simp only [variableAddress_eq]
  exact regRead_busWrite_toOutcome h _ _

/-- Settles O29: the byte stored by `exec_rtm_eq`, and the two halts of the read. -/
theorem rtmStoresOneByte : Obligations.RtmStoresOneByte := by
  unfold Obligations.RtmStoresOneByte
  exact fun r hi lo s =>
    ⟨fun h => ⟨_, exec_rtm_eq h hi lo, fun a => Memory.read_write' _ _ a _, cat_toNat_eq_addressOf hi lo,
        cat_toNat_eq_addressOf hi lo, rfl⟩,
      fun h => ⟨_, toOutcome_of_regRead_halted (regRead_of_no_register h) _, rfl, rfl, rfl⟩,
      fun h hd => ⟨_, toOutcome_of_regRead_halted (regRead_of_stack_empty h hd) _, rfl, rfl, rfl⟩⟩

/-- Settles O30: the byte stored by `exec_rtv_eq`, and the two halts of the read. -/
theorem rtvStoresOneByte : Obligations.RtvStoresOneByte := by
  unfold Obligations.RtvStoresOneByte
  exact fun r varId s =>
    ⟨fun h => ⟨_, exec_rtv_eq h varId, fun a => Memory.read_write' _ _ a _, rfl, variable_toNat varId, rfl⟩,
      fun h => ⟨_, toOutcome_of_regRead_halted (regRead_of_no_register h) _, rfl, rfl, rfl⟩,
      fun h hd => ⟨_, toOutcome_of_regRead_halted (regRead_of_stack_empty h hd) _, rfl, rfl, rfl⟩⟩

/-- MTM's scratch register is written where the parameter names one, and no other register is (R190). -/
theorem reg_setScratch (p : Params) (v : Byte) (s : State) (j : Fin 8) :
    (s.setScratch p v).reg j = if p.mtmScratch = some j then v else s.reg j := by
  unfold State.setScratch
  cases p.mtmScratch with
  | none => rfl
  | some k =>
    show (s.setReg k v).reg j = _
    simp only [State.reg_setReg, Option.some.injEq]

theorem setScratch_eq (p : Params) (v : Byte) (s : State) : ∃ x, s.setScratch p v = { s with x := x } := by
  unfold State.setScratch
  split <;> exact ⟨_, rfl⟩

/-- Settles O31: the state of `copyByte_eq`, field by field. -/
theorem mtmCopiesOneByte : Obligations.MtmCopiesOneByte := by
  unfold Obligations.MtmCopiesOneByte
  intro hiA loA hiB loB s
  refine ⟨fun p => ?_, rfl⟩
  rw [copyByte_eq, cat_toNat_eq_addressOf, cat_toNat_eq_addressOf]
  refine ⟨_, rfl, fun a => Memory.read_write' _ _ a _, reg_setScratch p _ s, rfl, cat_toNat_eq_addressOf hiB loB,
    cat_toNat_eq_addressOf hiB loB, ?_⟩
  obtain ⟨x, e⟩ := setScratch_eq p (s.mem.read (addressOf hiA loA)) s
  rw [e]
  rfl

/-- Settles O32: VTR reads the slot that RTV wrote, and writes a general register. -/
theorem storedVariableIsLoaded : Obligations.StoredVariableIsLoaded := by
  unfold Obligations.StoredVariableIsLoaded
  intro r r2 varId s t h he j hj
  obtain rfl := Host.Outcome.next.inj ((exec_rtv_eq h varId).symm.trans he)
  have hw : ∀ u, Writable r2 u := fun _ => .inl (by omega)
  refine ⟨_, exec_vtr_eq varId r2 _, ?_, ?_⟩
  · rw [written_of_writable _ (hw _), afterWrite_reg, if_pos hj]
    exact Memory.read_write_self _ _ _
  · rw [written_of_writable _ (hw _), afterWrite_mem, State.setAbus_mem, State.setAbr_mem]

/-! Runs of pushes and pops (StackIsLastInFirstOut). -/

theorem length_stackContents (s : State) : s.stackContents.length = s.depth.val := by
  rw [State.stackContents, List.length_take, Vector.length_toList]
  omega

/-- Bytes that fit are appended to the entries in order (R35). -/
theorem pushAll_of_le (vs : List Byte) (h : s.depth.val + vs.length ≤ 8) :
    ∃ t, pushAll vs s = .done () t ∧ t.stackContents = s.stackContents ++ vs := by
  induction vs generalizing s with
  | nil => exact ⟨s, rfl, (List.append_nil _).symm⟩
  | cons v rest ih =>
    rw [List.length_cons] at h
    have hroom : s.depth.val < 8 := by omega
    obtain ⟨t, ht, hc⟩ := ih (s := (s.setSlot ⟨s.depth.val, hroom⟩ v).setDepth ⟨s.depth.val + 1, by omega⟩)
      (by simp only [State.setDepth_depth]; omega)
    refine ⟨t, by rw [pushAll, push_of_lt v hroom, Run.andThen_done, ht], ?_⟩
    rw [hc, stackContents_push, List.append_assoc, List.singleton_append]

/-- Pops take the entries off from the last one down (R36). -/
theorem popAll_of_stackContents {c : List Byte} (ws : List Byte) (h : s.stackContents = c ++ ws.reverse) :
    ∃ u, popAll ws.length s = .done ws u ∧ u.stackContents = c := by
  induction ws generalizing s with
  | nil => exact ⟨s, rfl, h.trans (List.append_nil c)⟩
  | cons w rest ih =>
    rw [List.reverse_cons, ← List.append_assoc] at h
    have hpos : 0 < s.depth.val := by
      rw [← length_stackContents, h, List.length_append]
      exact Nat.succ_pos _
    obtain ⟨hrest, htop⟩ := List.append_inj' ((stackContents_dropTop hpos).symm.trans h) rfl
    obtain ⟨u, hu, hc⟩ := ih hrest
    refine ⟨u, ?_, hc⟩
    rw [List.length_cons, popAll, pop_of_pos hpos, Run.andThen_done, hu, Run.andThen_done, List.singleton_inj.mp htop]

/-- Settles O34: the pushes append the bytes to the entries, so the pops give them reversed; after pushes up to 8
entries the stack is full. -/
theorem stackIsLastInFirstOut : Obligations.StackIsLastInFirstOut := by
  unfold Obligations.StackIsLastInFirstOut
  refine ⟨fun vs s h => ?_, fun vs v s h => ?_, fun s h => pop_of_empty h⟩
  · obtain ⟨t, ht, hct⟩ := pushAll_of_le vs h
    rw [← vs.reverse_reverse] at hct
    obtain ⟨u, hu, hcu⟩ := popAll_of_stackContents vs.reverse hct
    rw [List.length_reverse] at hu
    refine ⟨t, u, ht, hu, hcu, Fin.ext ?_⟩
    rw [← length_stackContents, hcu, length_stackContents]
  · obtain ⟨t, ht, hct⟩ := pushAll_of_le vs h.le
    have hfull : t.depth.val = 8 := by
      rw [← length_stackContents, hct, List.length_append, length_stackContents, h]
    exact ⟨t, ht, push_of_full v hfull⟩

end Sys2Proof.Machine
end

section
namespace Sys2Proof.Machine

/-! The pixels of a line (LineIsTheClosedForm, LineStaysInItsBoundingBox). -/

/-- `q(i)` of R226: how far pixel i of a line is along the axis that does not drive. -/
def lineOffset (L S i : Nat) : Nat := (L / 2 + i * S) / L

section LinePixels

variable {L S i : Nat}

theorem lineOffset_zero (L S : Nat) : lineOffset L S 0 = 0 := by
  rw [lineOffset, Nat.zero_mul, Nat.add_zero, Nat.div_div_eq_div_mul, Nat.div_eq_zero_iff]
  omega

theorem lineOffset_last (hS : S ≤ L) : lineOffset L S L = S := by
  rcases Nat.eq_zero_or_pos L with rfl | hL
  · rw [lineOffset, Nat.div_zero]
    omega
  · rw [lineOffset, Nat.add_mul_div_left _ _ hL, Nat.div_eq_of_lt (by omega), Nat.zero_add]

/-- The offset grows with i, so it is at most that of the last pixel. -/
theorem lineOffset_le (hS : S ≤ L) (hi : i ≤ L) : lineOffset L S i ≤ S :=
  calc lineOffset L S i ≤ lineOffset L S L :=
        Nat.div_le_div_right (Nat.add_le_add_left (Nat.mul_le_mul_right S hi) _)
    _ = S := lineOffset_last hS

/-- R218's loop from any numerator below L: before iteration i the numerator has reached L as often as L goes into
num + i*S, and each time both axes were stepped. -/
theorem getElem?_linePixelsFrom {n num : Nat} (hS : S ≤ L) (hnum : num < L) (hi : i < n) (x y sx sy dxd dyd : Int) :
    (linePixelsFrom n L S num x y sx sy dxd dyd)[i]? =
      some (x + i * dxd + ((num + i * S) / L : Nat) * (sx - dxd),
        y + i * dyd + ((num + i * S) / L : Nat) * (sy - dyd)) := by
  induction n generalizing num i x y with
  | zero => omega
  | succ n ih =>
    rw [linePixelsFrom_succ]
    cases i with
    | zero => simp [Nat.div_eq_of_lt hnum]
    | succ i =>
      rw [List.getElem?_cons_succ]
      split
      · have hq : (num + (i + 1) * S) / L = (num + S - L + i * S) / L + 1 := by
          rw [← Nat.add_div_right _ (by omega), Nat.succ_mul]
          congr 1
          omega
        rw [ih (by omega) (by omega), hq]
        congr 2 <;> push_cast <;> ring
      · rw [ih (by omega) (by omega), Nat.succ_mul, Nat.add_right_comm, Nat.add_assoc num]
        congr 2 <;> push_cast <;> ring

/-- R218's loop as a line runs it; for L = 0 its one pixel is the first. -/
theorem getElem?_linePixelsFrom_half (hS : S ≤ L) (hi : i ≤ L) (x y sx sy dxd dyd : Int) :
    (linePixelsFrom (L + 1) L S (L / 2) x y sx sy dxd dyd)[i]? =
      some (x + i * dxd + lineOffset L S i * (sx - dxd), y + i * dyd + lineOffset L S i * (sy - dyd)) := by
  rcases Nat.eq_zero_or_pos L with rfl | hL
  · obtain rfl : i = 0 := by omega
    simp [linePixelsFrom_succ, lineOffset_zero]
  · exact getElem?_linePixelsFrom hS (by omega) (by omega) x y sx sy dxd dyd

end LinePixels

section Endpoints

variable {x0 y0 x1 y1 : Int} {i : Nat}

/-- The width drives when it is not the shorter one. -/
theorem linePixels_of_width_drives (h : (y1 - y0).natAbs ≤ (x1 - x0).natAbs) :
    linePixels x0 y0 x1 y1 =
      linePixelsFrom ((x1 - x0).natAbs + 1) (x1 - x0).natAbs (y1 - y0).natAbs ((x1 - x0).natAbs / 2) x0 y0
        (x1 - x0).sign (y1 - y0).sign (x1 - x0).sign 0 := if_pos h

theorem linePixels_of_height_drives (h : (x1 - x0).natAbs < (y1 - y0).natAbs) :
    linePixels x0 y0 x1 y1 =
      linePixelsFrom ((y1 - y0).natAbs + 1) (y1 - y0).natAbs (x1 - x0).natAbs ((y1 - y0).natAbs / 2) x0 y0
        (x1 - x0).sign (y1 - y0).sign 0 (y1 - y0).sign := if_neg (by omega)

theorem length_linePixels (x0 y0 x1 y1 : Int) :
    (linePixels x0 y0 x1 y1).length = max (x1 - x0).natAbs (y1 - y0).natAbs + 1 := by
  rcases Nat.lt_or_ge (x1 - x0).natAbs (y1 - y0).natAbs with h | h
  · rw [linePixels_of_height_drives h, length_linePixelsFrom, Nat.max_eq_right h.le]
  · rw [linePixels_of_width_drives h, length_linePixelsFrom, Nat.max_eq_left h]

/-- R226: pixel i is i steps along the axis that drives. -/
theorem getElem?_linePixels (hi : i ≤ max (x1 - x0).natAbs (y1 - y0).natAbs) :
    (linePixels x0 y0 x1 y1)[i]? = some
      (if (y1 - y0).natAbs ≤ (x1 - x0).natAbs then
        (x0 + i * (x1 - x0).sign,
          y0 + lineOffset (max (x1 - x0).natAbs (y1 - y0).natAbs) (min (x1 - x0).natAbs (y1 - y0).natAbs) i *
            (y1 - y0).sign)
      else
        (x0 + lineOffset (max (x1 - x0).natAbs (y1 - y0).natAbs) (min (x1 - x0).natAbs (y1 - y0).natAbs) i *
            (x1 - x0).sign,
          y0 + i * (y1 - y0).sign)) := by
  rcases Nat.lt_or_ge (x1 - x0).natAbs (y1 - y0).natAbs with h | h
  · rw [Nat.max_eq_right h.le] at hi ⊢
    rw [if_neg (Nat.not_le_of_gt h), Nat.min_eq_left h.le, linePixels_of_height_drives h,
      getElem?_linePixelsFrom_half h.le hi]
    simp
  · rw [Nat.max_eq_left h] at hi ⊢
    rw [if_pos h, Nat.min_eq_right h, linePixels_of_width_drives h, getElem?_linePixelsFrom_half h hi]
    simp

/-- As many unit steps as the two are apart lead from a to b. -/
theorem add_natAbs_mul_sign (a b : Int) : a + (b - a).natAbs * (b - a).sign = b := by
  rw [Int.mul_comm, Int.sign_mul_natAbs]
  omega

/-- At most as many unit steps as the two are apart stay between a and b. -/
theorem add_mul_sign_between (a b : Int) {k : Nat} (hk : k ≤ (b - a).natAbs) :
    min a b ≤ a + k * (b - a).sign ∧ a + k * (b - a).sign ≤ max a b := by
  rcases Int.sign_trichotomy (b - a) with h | h | h
  · rw [h]
    rw [Int.sign_eq_one_iff_pos] at h
    omega
  · rw [h]
    omega
  · rw [h]
    rw [Int.sign_eq_neg_one_iff_neg] at h
    omega

end Endpoints

/-- Settles O45: the pixels are those of `getElem?_linePixels`; the offset is 0 at the first and S at the last. -/
theorem lineIsTheClosedForm : Obligations.LineIsTheClosedForm := by
  unfold Obligations.LineIsTheClosedForm
  intro x0 y0 x1 y1 w h L S q
  have hpixel := fun (i : Nat) (hi : i ≤ L) => getElem?_linePixels (x0 := x0) (y0 := y0) (x1 := x1) (y1 := y1) hi
  refine ⟨length_linePixels x0 y0 x1 y1, hpixel, ?first, ?last⟩
  case first =>
    rw [hpixel 0 (Nat.zero_le L), lineOffset_zero]
    simp
  case last =>
    rw [hpixel L le_rfl, lineOffset_last min_le_max]
    split
    · next hd => rw [show L = w.natAbs from Nat.max_eq_left hd, Nat.min_eq_right hd, add_natAbs_mul_sign,
        add_natAbs_mul_sign]
    · next hd =>
      have hlt := Nat.lt_of_not_le hd
      rw [show L = h.natAbs from Nat.max_eq_right hlt.le, Nat.min_eq_left hlt.le, add_natAbs_mul_sign,
        add_natAbs_mul_sign]

/-- Settles O46: a pixel of the line is pixel i for some i up to L, and neither i nor its offset leads past the second
endpoint. -/
theorem lineStaysInItsBoundingBox : Obligations.LineStaysInItsBoundingBox := by
  unfold Obligations.LineStaysInItsBoundingBox
  intro x0 y0 x1 y1 q hq
  obtain ⟨i, hi⟩ := List.mem_iff_getElem?.mp hq
  have hlt : i < (linePixels x0 y0 x1 y1).length := (List.getElem?_eq_some_iff.mp hi).1
  rw [length_linePixels] at hlt
  have hle : i ≤ max (x1 - x0).natAbs (y1 - y0).natAbs := Nat.le_of_lt_succ hlt
  have hoffset := lineOffset_le (min_le_max (a := (x1 - x0).natAbs) (b := (y1 - y0).natAbs)) hle
  obtain rfl := Option.some.inj ((getElem?_linePixels hle).symm.trans hi)
  split <;> exact and_assoc.mp ⟨add_mul_sign_between x0 x1 (by omega), add_mul_sign_between y0 y1 (by omega)⟩

end Sys2Proof.Machine
end

section
namespace Sys2Proof.Machine

/-! The GPU instructions (DrawPixelWritesOrReports, PxlCompletes, LineCompletes, PrtWritesReportsOrHalts,
GmtChangesOnlyPc). -/

/-- Reading back a write at an offset that is given as an integer, as the GPU computes it. -/
theorem Memory.read_write_intOffset (m : Memory) {z : Int} (hz : 0 ≤ z) (v : Byte) (off : Nat) :
    (m.write z.toNat v).read off = if (off : Int) = z then v else m.read off := by
  have hoff : off = z.toNat ↔ (off : Int) = z := by omega
  rw [Memory.read_write', if_congr hoff rfl rfl]

/-- Settles O39: the two branches of `pixelDrawn`. -/
theorem drawPixelWritesOrReports : Obligations.DrawPixelWritesOrReports := by
  unfold Obligations.DrawPixelWritesOrReports
  refine fun x y c s => ⟨_, drawPixel_eq x y c s, fun hin => ?_, fun hout => if_neg hout⟩
  rw [pixelDrawn, if_pos hin]
  exact ⟨Memory.read_write_intOffset s.fb (by omega) c, rfl⟩

/-- R223. -/
theorem lineFromRegs_of_readable (p : Params) {rX rY rX1 rY1 rCol : Byte} {s : State} (h1 : Readable rX s)
    (h2 : Readable rY (afterRead rX s)) (h3 : Readable rX1 (afterRead rY (afterRead rX s)))
    (h4 : Readable rY1 (afterRead rX1 (afterRead rY (afterRead rX s))))
    (h5 : Readable rCol (afterRead rY1 (afterRead rX1 (afterRead rY (afterRead rX s))))) :
    lineFromRegs p rX rY rX1 rY1 rCol s =
      drawLine (coord p (readValue rX s)) (coord p (readValue rY (afterRead rX s)))
        (coord p (readValue rX1 (afterRead rY (afterRead rX s))))
        (coord p (readValue rY1 (afterRead rX1 (afterRead rY (afterRead rX s)))))
        (readValue rCol (afterRead rY1 (afterRead rX1 (afterRead rY (afterRead rX s)))))
        (afterRead rCol (afterRead rY1 (afterRead rX1 (afterRead rY (afterRead rX s))))) := by
  rw [lineFromRegs, regRead_of_readable h1, Run.andThen_done, regRead_of_readable h2, Run.andThen_done,
    regRead_of_readable h3, Run.andThen_done, regRead_of_readable h4, Run.andThen_done, regRead_of_readable h5,
    Run.andThen_done]

/-- Settles O41: PXL is `pixelFromRegs`, and drawing a pixel never halts. -/
theorem pxlCompletes : Obligations.PxlCompletes := by
  unfold Obligations.PxlCompletes
  intro rX rY rCol s s1 s2 s3 result h1 h2 h3
  have hpixel : ∀ p : Params, pixelFromRegs p rX rY rCol s = .done () (result p.gpuCoordSigned) := fun p =>
    (pixelFromRegs_of_readable p h1 h2 h3).trans (drawPixel_eq _ _ _ _)
  exact ⟨hpixel, congrArg Run.toOutcome (hpixel params)⟩

/-- Settles O42: LINE is `lineFromRegs`, and drawing the line's pixels never halts. -/
theorem lineCompletes : Obligations.LineCompletes := by
  unfold Obligations.LineCompletes
  intro rX rY rX1 rY1 rCol s s1 s2 s3 s4 s5 pixels result h1 h2 h3 h4 h5
  have hline : ∀ p : Params, lineFromRegs p rX rY rX1 rY1 rCol s = .done () (result p.gpuCoordSigned) := fun p =>
    (lineFromRegs_of_readable p h1 h2 h3 h4 h5).trans (drawLine_eq _ _ _ _ _ _)
  exact ⟨hline, congrArg Run.toOutcome (hline params)⟩

section DrawChar

variable {x y : Int} {s : State}

/-- R219 in the two rows that fit in the framebuffer. -/
theorem drawChar_of_row_le_one (h : 0 ≤ x ∧ x ≤ 15 ∧ 0 ≤ y ∧ y ≤ 1) (code : Byte) :
    drawChar x y code s = .done () (s.setFb (s.fb.write (9216 + y * 128 + x).toNat code)) := by
  rw [drawChar, if_pos ((charInRange_iff x y).mpr (by omega)), fbWrite_of_lt _ _ (by unfold fbSize; omega)]

/-- R219 in the rows past the end of the framebuffer (D12). -/
theorem drawChar_of_two_le_row (h : 0 ≤ x ∧ x ≤ 15 ∧ 2 ≤ y ∧ y ≤ 8) (code : Byte) :
    drawChar x y code s = .halted (s.takeHalt (.memoryFault .framebuffer (9216 + y * 128 + x).toNat)) := by
  rw [drawChar, if_pos ((charInRange_iff x y).mpr (by omega)), fbWrite_of_le _ _ (by unfold fbSize; omega)]

/-- R219 off the character grid. -/
theorem drawChar_of_outOfRange (h : x < 0 ∨ 15 < x ∨ y < 0 ∨ 8 < y) (code : Byte) :
    drawChar x y code s = .done () (report .char x y s) := by
  rw [drawChar, if_neg (mt (charInRange_iff x y).mp (by omega))]

end DrawChar

/-- Settles O43: PRT is `charFromRegs`, and the three cases are those of `drawChar`. -/
theorem prtWritesReportsOrHalts : Obligations.PrtWritesReportsOrHalts := by
  unfold Obligations.PrtWritesReportsOrHalts
  intro rX rY rChar s s1 s2 s3 x y code h1 h2 h3
  have hprt : exec (.prt rX rY rChar) s = (drawChar x y code s3).toOutcome :=
    congrArg Run.toOutcome (charFromRegs_of_readable params h1 h2 h3)
  have hfb : s3.fb = s.fb := by simp only [s3, s2, s1, afterRead_fb]
  have hreports : s3.reports = s.reports := by simp only [s3, s2, s1, afterRead_reports]
  rw [hprt, ← hfb, ← hreports]
  refine ⟨fun h => ?written, fun h => ?halts, fun h => ?reported⟩
  case written =>
    rw [drawChar_of_row_le_one h]
    exact ⟨_, rfl, Memory.read_write_intOffset s3.fb (by omega) code, rfl⟩
  case halts =>
    rw [drawChar_of_two_le_row h]
    rfl
  case reported =>
    rw [drawChar_of_outOfRange h]
    rfl

/-- The bytes of a one-byte encoding. -/
theorem bytesAt_pc_singleton {s : State} {b : Byte} (hpc : s.pc < memSize) (hb : s.mem.read s.pc = b) :
    BytesAt s s.pc [b] := by
  refine ⟨hpc, fun k hk => ?_⟩
  obtain rfl : k = 0 := Nat.lt_one_iff.mp hk
  exact hb

/-- Settles O44: the one byte 0x53 is the encoding of GMT, so O4 gives the step. -/
theorem gmtChangesOnlyPc : Obligations.GmtChangesOnlyPc := by
  unfold Obligations.GmtChangesOnlyPc
  refine ⟨fun _ => rfl, fun s hh hpc hgmt => ?_⟩
  obtain ⟨hstep, -⟩ :=
    stepRunsTheDecodedInstruction s .gmt _ hh (bytesAt_pc_singleton hpc hgmt) (decode_encode_append .gmt [])
  exact hstep

end Sys2Proof.Machine
end

section
namespace Sys2Proof.Machine

/-! Halts: the halted core, a source that cannot be read, and the causes of R251's table (HaltedCoreNeverMoves,
UnreadableFirstSourceHalts, UnreadableLaterSourceHalts, HaltCausesByInstruction). -/

variable {i : Instr} {r r1 : Byte} {before after : List Byte} {s : State}

/-- A state that one step leaves as it is stays so through any number of steps. -/
theorem stepsBy_of_step_eq_self {f : State → Host.Outcome State Fault Refusal} (h : f s = .next s) (k : Nat) :
    stepsBy f k s = .next s := by
  induction k with
  | zero => rfl
  | succ k ih =>
    rw [stepsBy, h]
    exact ih

/-- Settles O7: a step of a halted core is a no-op (D10), and so are k of them. -/
theorem haltedCoreNeverMoves : Obligations.HaltedCoreNeverMoves := by
  unfold Obligations.HaltedCoreNeverMoves
  exact fun k _ hh => stepsBy_of_step_eq_self (step_of_halted hh) k

/-- Settles O51: an instruction that completes records no cause, and one that halts records a cause of its row. -/
theorem haltCausesByInstruction : Obligations.HaltCausesByInstruction := by
  unfold Obligations.HaltCausesByInstruction
  intro i s t c he hs ht
  rcases exec_runs_or_stops he with ⟨-, -, hsame⟩ | ⟨-, -, c', hc', hmay⟩
  · cases ht.symm.trans (hsame.trans hs)
  · cases ht.symm.trans hc'
    exact hmay

/-! The first source (UnreadableFirstSourceHalts). -/

/-- An instruction with sources begins with the read of the first (D9). -/
theorem exec_begins_with_regRead {rest : List Byte} (h : i.sources = r :: rest) (s : State) :
    ∃ k : Byte → State → Run Unit, exec i s = ((regRead r s).andThen k).toOutcome := by
  cases i with
  | nop | lbl | jmp | jif | mov | mtr | mtm | vtr | ftr | gmt => cases h
  | add | sub | mul | and | or | xor | not | rshift | lshift | cmp | push | rtr | rtm | rtv | pxl | line | prt =>
    cases h
    exact ⟨_, rfl⟩

/-- Settles O36: the read that `exec_begins_with_regRead` names halts. -/
theorem unreadableFirstSourceHalts : Obligations.UnreadableFirstSourceHalts := by
  unfold Obligations.UnreadableFirstSourceHalts
  intro i r rest s hsrc hr
  obtain ⟨k, e⟩ := exec_begins_with_regRead hsrc s
  exact e.trans (toOutcome_of_regRead_halted (regRead_of_not_readable hr) k)

/-! The later sources (UnreadableLaterSourceHalts). -/

/-- An operation that reads these ids in turn, with nothing in between, before all else it does. -/
inductive ReadsInTurn : List Byte → (State → Run Unit) → Prop where
  | nil (f : State → Run Unit) : ReadsInTurn [] f
  | cons (id : Byte) {rest : List Byte} {k : Byte → State → Run Unit} (hk : ∀ v, ReadsInTurn rest (k v)) :
      ReadsInTurn (id :: rest) fun s => (regRead id s).andThen k

/-- The first id that cannot be read halts the operation in the state the reads before it left. -/
theorem ReadsInTurn.halted {f : State → Run Unit} (h : ReadsInTurn (before ++ r :: after) f)
    (hbefore : ReadableAll before s) (hr : ¬ Readable r (afterReads before s)) :
    f s = .halted ((afterReads before s).takeHalt (readCause r)) := by
  induction before generalizing f s with
  | nil =>
    cases h with
    | cons _ _ =>
      beta_reduce
      rw [regRead_of_not_readable (by exact hr)]
      rfl
  | cons id rest ih =>
    obtain ⟨hid, hrest⟩ := hbefore
    cases h with
    | cons _ hk =>
      beta_reduce
      rw [regRead_of_readable hid]
      exact ih (hk _) hrest hr

/-- PXL, LINE and PRT read all their sources before they draw (R222, R223, R224). -/
theorem exec_readsInTurn (hi : i.opcode ∈ [Opcode.pxl, .line, .prt]) :
    ∃ f, ReadsInTurn i.sources f ∧ ∀ s, exec i s = (f s).toOutcome := by
  cases i with
  | pxl | prt => exact ⟨_, .cons _ fun _ => .cons _ fun _ => .cons _ fun _ => .nil _, fun _ => rfl⟩
  | line =>
    exact ⟨_, .cons _ fun _ => .cons _ fun _ => .cons _ fun _ => .cons _ fun _ => .cons _ fun _ => .nil _,
      fun _ => rfl⟩
  | _ => simp [Instr.opcode] at hi

/-- Only PXL, LINE and PRT have more than two sources. -/
theorem length_sources_le_two (hi : i.opcode ∉ [Opcode.pxl, .line, .prt]) : i.sources.length ≤ 2 := by
  cases i with
  | pxl | line | prt => simp [Instr.opcode] at hi
  | _ => simp [Instr.sources]

/-- The two-source ALU instructions and CMP put the first operand in latch A, then read the second (R129, R152). -/
theorem exec_latches_first_operand (hi : i.opcode ∉ [Opcode.pxl, .line, .prt]) (h : i.sources = [r1, r])
    (s : State) :
    ∃ k : Byte → Byte → State → Run Unit,
      exec i s = ((regRead r1 s).andThen fun a t => (regRead r (t.setAluA a)).andThen (k a)).toOutcome := by
  cases i with
  | pxl | line | prt => simp [Instr.opcode] at hi
  | add | sub | mul | and | or | xor | cmp =>
    cases h
    exact ⟨_, rfl⟩
  | _ => cases h

/-- The second operand's read halts with the first operand in latch A. -/
theorem exec_of_second_operand_not_readable (hi : i.opcode ∉ [Opcode.pxl, .line, .prt]) (h : i.sources = [r1, r])
    (h1 : Readable r1 s) (hr : ¬ Readable r (afterRead r1 s)) :
    exec i s = .next (((afterRead r1 s).setAluA (readValue r1 s)).takeHalt (readCause r)) := by
  obtain ⟨k, e⟩ := exec_latches_first_operand hi h s
  rw [e, regRead_of_readable h1, Run.andThen_done]
  exact toOutcome_of_regRead_halted (regRead_of_not_readable (mt (readable_setAluA _ _ _).mp hr)) _

/-- Settles O37: PXL, LINE and PRT by `ReadsInTurn.halted`; any other instruction with a later source has just two. -/
theorem unreadableLaterSourceHalts : Obligations.UnreadableLaterSourceHalts := by
  unfold Obligations.UnreadableLaterSourceHalts
  intro i r1 r before after s hsrc hbefore hr t
  refine ⟨fun hi => ?gpu, fun hi => ?other⟩
  case gpu =>
    obtain ⟨f, hf, e⟩ := exec_readsInTurn hi
    rw [hsrc] at hf
    rw [e, hf.halted (before := r1 :: before) hbefore hr]
    rfl
  case other =>
    have hlen := length_sources_le_two hi
    simp only [hsrc, List.length_cons, List.length_append] at hlen
    have hzero : before.length = 0 ∧ after.length = 0 := by omega
    obtain ⟨rfl, rfl⟩ : before = [] ∧ after = [] :=
      hzero.imp List.length_eq_zero_iff.mp List.length_eq_zero_iff.mp
    exact exec_of_second_operand_not_readable hi hsrc hbefore.1 hr

end Sys2Proof.Machine
end

section
namespace Sys2Proof.Machine

/-! The bytes a load brings to main memory (LoadImageSkipsTheHeader). -/

/-- Byte a of main memory after a load: the image's byte behind its header, or the old byte where it has none (R288). -/
theorem read_writeBytes_image (m : Memory) (img : List Byte) (a : Nat) :
    (m.writeBytes 0 (img.drop imageHeader)).read a =
      if h : a + imageHeader < img.length then img[a + imageHeader] else m.read a := by
  rw [Memory.read_writeBytes, List.length_drop]
  split
  case isTrue hin =>
    have h : a + imageHeader < img.length := by omega
    have hi : imageHeader + (a - 0) = a + imageHeader := by omega
    rw [dif_pos h, List.getD_eq_getElem?_getD, List.getElem?_drop, hi, List.getElem?_eq_getElem h, Option.getD_some]
  case isFalse hout => rw [dif_neg (by omega)]

/-- Settles O57: `loadImage` in its two cases, and what a write of bytes leaves to be read. -/
theorem loadImageSkipsTheHeader : Obligations.LoadImageSkipsTheHeader := by
  unfold Obligations.LoadImageSkipsTheHeader
  exact fun img s =>
    ⟨fun hle => ⟨_, loadImage_of_le s hle, rfl, read_writeBytes_image s.mem img⟩, loadImage_of_lt s⟩

/-! What an interaction does to the core (HostWritesOnlyMemoryAndInput). -/

/-- A load that is answered changes main memory only: it is taken before the first step, or is too long and changes
nothing (R288, R289). -/
theorem core_of_load_answered {coreStep : State → Host.Outcome State Fault Refusal} {img : List Byte} {σ τ : Session}
    {r : HostReply} (he : hostStepBy coreStep (.load img) σ = .next (τ, r)) : ∃ m, τ.core = σ.core.setMem m := by
  simp only [hostStepBy] at he
  split at he
  · cases he
  · rcases loadImage_cases img σ.core with ⟨-, e⟩ | ⟨-, e⟩ <;> rw [e] at he <;> cases he
    · exact ⟨_, rfl⟩
    · exact ⟨σ.core.mem, rfl⟩

/-- Other than by reset and step, the host changes main memory, by a load, and the input mask, by setting it (R292). -/
theorem hostStepBy_writes_only_mem_and_input {coreStep : State → Host.Outcome State Fault Refusal} {e : HostEvent}
    {σ τ : Session} {r : HostReply} (he : hostStepBy coreStep e σ = .next (τ, r)) (hreset : e ≠ .reset)
    (hstep : e ≠ .step) :
    τ.core = { σ.core with mem := τ.core.mem, input := τ.core.input } ∧
      ((∀ img, e ≠ .load img) → τ.core.mem = σ.core.mem) ∧
      ((∀ mask, e ≠ .setInput mask) → τ.core.input = σ.core.input) := by
  cases e with
  | reset => exact absurd rfl hreset
  | step => exact absurd rfl hstep
  | load img =>
    obtain ⟨m, hm⟩ := core_of_load_answered he
    rw [hm]
    exact ⟨rfl, fun hload => absurd rfl (hload img), fun _ => rfl⟩
  | setInput mask =>
    cases he
    exact ⟨rfl, fun _ => rfl, fun hinput => absurd rfl (hinput mask)⟩
  | snapshot | readFramebuffer off | readHalt | tick =>
    cases he
    exact ⟨rfl, fun _ => rfl, fun _ => rfl⟩

/-- The host's step of a halted core changes nothing of the core (R255, D10). -/
theorem hostStep_step_of_halted {σ : Session} (hh : σ.core.halted = true) :
    hostStep .step σ = .next (⟨σ.core, true⟩, .nothing) := by
  simp only [hostStep, hostStepBy, step_of_halted hh]

/-- Settles O59: a halt lies outside what the host writes, and a step of a halted core keeps it. -/
theorem hostWritesOnlyMemoryAndInput : Obligations.HostWritesOnlyMemoryAndInput := by
  unfold Obligations.HostWritesOnlyMemoryAndInput
  refine ⟨fun e σ τ r he => hostStepBy_writes_only_mem_and_input he, fun e σ τ r he hh hreset => ?_⟩
  by_cases hstep : e = .step
  · subst hstep
    cases (hostStep_step_of_halted hh).symm.trans he
    exact ⟨hh, rfl⟩
  · obtain ⟨hcore, -, -⟩ := hostStepBy_writes_only_mem_and_input he hreset hstep
    rw [hcore]
    exact ⟨hh, rfl⟩

end Sys2Proof.Machine
end
